-- ==== Sys2Proof/Word.lean ====
section
/-!
DEFINITION. The plain words of the block: bytes, nibbles, 32-bit words, colours, and the type of IEEE 754
binary64 values (00_scope.md R9, R11). The operations on binary64 stand in Machine/Float.lean.
-/

namespace Sys2Proof

/-- A register or command word (10_state.md R22, 30_encoding.md R80). -/
abbrev Word := BitVec 32

/-- One byte of PIX, PK or RL (10_state.md R37). -/
abbrev Byte := BitVec 8

/-- A 4-bit half of a byte: a palette code or an opaque nibble (30_encoding.md R91). -/
abbrev Nibble := BitVec 4

/-- A colour of three 8-bit channels (30_encoding.md R90). -/
structure Rgb where
  r : Byte
  g : Byte
  b : Byte
deriving DecidableEq, Repr

/-- A binary64 value (00_scope.md R11). A finite value is `(-1)^neg * mag * 2^-1074`: every finite binary64
value is a whole multiple of the least subnormal, so `mag` is exact and both zeros are kept apart by `neg`.
There is one NaN, because no rule reads a NaN's payload or sign (log entry 7). -/
inductive F64 where
  | nan
  | inf (neg : Bool)
  | fin (neg : Bool) (mag : Nat)
deriving DecidableEq, Repr

/-- A colour of three binary64 channels: an adjusted colour or an entry of EBUF (10_state.md R33). -/
structure Rgb64 where
  r : F64
  g : F64
  b : F64
deriving DecidableEq, Repr

end Sys2Proof
end

