-- ==== Sys2Proof/Config.lean ====
section
/-!
DEFINITION. What an implementation fixes (00_scope.md R6 to R8): the parameters a model takes as arguments, the
parameter set T of 95_test_vectors.md, and the one free value of the spec, what a host read of an unwritten byte returns.
-/

namespace Sys2Proof

/-- The RGB values of the six palette entries, by position (00_scope.md R6, R7). The code of a position is
fixed by the spec and is no parameter (`codeAt`, Machine/Operands.lean). -/
structure Palette where
  e0 : Rgb
  e1 : Rgb
  e2 : Rgb
  e3 : Rgb
  e4 : Rgb
  e5 : Rgb
deriving DecidableEq, Repr

/-- The six entries' colours in the order of their positions. -/
def Palette.colours (p : Palette) : List Rgb :=
  [p.e0, p.e1, p.e2, p.e3, p.e4, p.e5]

/-- The reference default palette (00_scope.md R8; PRESUMED, log entry 13). -/
def Palette.reference : Palette where
  e0 := ⟨0, 0, 0⟩
  e1 := ⟨255, 255, 255⟩
  e2 := ⟨255, 255, 0⟩
  e3 := ⟨255, 0, 0⟩
  e4 := ⟨0, 0, 255⟩
  e5 := ⟨0, 255, 0⟩

/-- The implementation parameters (00_scope.md R6). `Params.wf` (WellFormed.lean) holds their constraints. -/
structure Params where
  palette : Palette
  panelSize : Nat
  maxPixels : Nat
  regBase : Nat
  pixBase : Nat
  pkBase : Nat
  rlBase : Nat
deriving DecidableEq, Repr

/-- PIX holds four bytes for each pixel of the capacity (10_state.md R37). -/
def Params.pixCap (p : Params) : Nat := 4 * p.maxPixels

/-- `PK_CAP = ceil(MAX_PIXELS / 2)` (00_scope.md R6). -/
def Params.pkCap (p : Params) : Nat := (p.maxPixels + 1) / 2

/-- `RL_CAP = 8 + 4 * PK_CAP` (00_scope.md R6). -/
def Params.rlCap (p : Params) : Nat := 8 + 4 * p.pkCap

/-- Parameter set T of 95_test_vectors.md. T names no base address: the four bases are the model's choice
(DESIGN CHOICE, log entry 2). -/
def Params.reference : Params where
  palette := Palette.reference
  panelSize := 4
  maxPixels := 4096
  regBase := 0
  pixBase := 0x10000
  pkBase := 0x20000
  rlBase := 0x30000

/-- FREE VALUE: the byte a host read of an unwritten byte returns, a draw under no law
(20_memory.md R63, 93_implementation_defined.md I6; log entry 5). The argument is the number of the draw. -/
opaque Config.freeByte : Nat → Byte

/-- FREE VALUE: what RL_LEN holds after RLE_ENC or CONVERT where the stream's length does not fit its 32 bits. The spec
writes `reg(RL_LEN) <- |out|` (44_rle.md R152) and states no value there; only a part with a MAX_PIXELS above 2^31 can
reach it (log entry 10). The argument is the length. -/
opaque Config.overlongLength : Nat → Word

end Sys2Proof
end

