-- ==== Sys2Proof/Syntax.lean ====
section
/-!
DEFINITION. The commands of the block, one constructor for each row of spec/opcode_table.json
(30_encoding.md R81). A command has no operand field (R80, R83): its operands are registers and memories.
-/

namespace Sys2Proof

/-- The eight commands (30_encoding.md R81). -/
inductive Instr where
  /-- completes with no effect (40_palette.md R104) -/
  | nop
  /-- nearest palette colour of COLOR into RESULT (40_palette.md R103) -/
  | lookup
  /-- tone adjust and quantize PIX in place (41_quantizer.md R112) -/
  | quant
  /-- circular mask on PIX (42_mask.md R131) -/
  | mask
  /-- PIX to the packed bitstream in PK (43_packer.md R140) -/
  | pack
  /-- PK to the run-length stream in RL (44_rle.md R152) -/
  | rleEnc
  /-- RL back to PK (44_rle.md R154) -/
  | rleDec
  /-- the whole pipeline at the panel size (45_convert.md R170) -/
  | convert
deriving DecidableEq, Repr

end Sys2Proof
end

