-- ==== Sys2Proof/WellFormed.lean ====
section
/-!
DEFINITION. What is well-formed: a command word (30_encoding.md R80, R82), an RLE record (R94), a parameter set
(00_scope.md R6, R7). A command of Syntax.lean has no operand, so every one of them is well-formed.
-/

namespace Sys2Proof

/-- The field Z of a command word, bits 31:8, is zero (30_encoding.md R80). -/
def zeroField (w : Word) : Bool := w.extractLsb' 8 24 == 0#24

/-- The opcode of a command word, bits 7:0, is one of the eight of R81. -/
def knownOpcode (w : Word) : Bool := (w.extractLsb' 0 8).toNat < 8

/-- A legal command word: neither case of 30_encoding.md R82 holds. -/
def commandWordWf (w : Word) : Bool := zeroField w && knownOpcode w

/-- A well-formed RLE record has `1 ≤ run ≤ 255` and `val ≤ 0x0F` (30_encoding.md R94). -/
def recordWf (run val : Byte) : Bool := run != 0#8 && val.toNat ≤ 0x0F

/-- The six RGB triples are pairwise distinct (00_scope.md R7). DESIGN CHOICE: R7's names black, white and red for the
entries with codes 0, 1 and 3 are no constraint here, because the spec gives no RGB value for them (log entry 15). -/
def Palette.wf (p : Palette) : Bool := decide p.colours.Nodup

/-- `[a, a + n)` and `[b, b + m)` do not meet. -/
def windowsApart (a n b m : Nat) : Bool := a + n ≤ b || b + m ≤ a

/-- The constraints on a parameter set: 00_scope.md R6 and R7, and windows that do not overlap (20_memory.md R60). -/
def Params.wf (p : Params) : Bool :=
  p.palette.wf &&
  decide (1 ≤ p.panelSize ∧ p.panelSize ≤ 65535 ∧ p.panelSize * p.panelSize ≤ p.maxPixels ∧ 1 ≤ p.maxPixels) &&
  windowsApart p.regBase 256 p.pixBase p.pixCap &&
  windowsApart p.regBase 256 p.pkBase p.pkCap &&
  windowsApart p.regBase 256 p.rlBase p.rlCap &&
  windowsApart p.pixBase p.pixCap p.pkBase p.pkCap &&
  windowsApart p.pixBase p.pixCap p.rlBase p.rlCap &&
  windowsApart p.pkBase p.pkCap p.rlBase p.rlCap

end Sys2Proof
end

