-- ==== Sys2Proof/Decode.lean ====
section
/-!
DEFINITION. The command decoder and encoder (30_encoding.md R80 to R82). The decoder is total on every 32-bit word and
rejects an illegal one by name.
-/

namespace Sys2Proof

/-- Why a command word is illegal: the two cases of 30_encoding.md R82. Both raise BAD_OPCODE. -/
inductive DecodeError where
  /-- one of bits 31:8 is nonzero, whatever the OPC -/
  | nonzeroHighBits
  /-- OPC in 0x08..0xFF -/
  | reservedOpcode
deriving DecidableEq, Repr

/-- The opcode map (30_encoding.md R81). -/
def opcodeMap (opc : Nat) : Option Instr :=
  match opc with
  | 0x00 => some .nop
  | 0x01 => some .lookup
  | 0x02 => some .quant
  | 0x03 => some .mask
  | 0x04 => some .pack
  | 0x05 => some .rleEnc
  | 0x06 => some .rleDec
  | 0x07 => some .convert
  | _ => none

/-- Decode the word written to CMD (30_encoding.md R80 to R82). -/
def decode (w : Word) : Except DecodeError Instr :=
  if w.extractLsb' 8 24 ≠ 0#24 then .error .nonzeroHighBits
  else
    match opcodeMap (w.extractLsb' 0 8).toNat with
    | some i => .ok i
    | none => .error .reservedOpcode

/-- The opcode of a command (30_encoding.md R81). -/
def opcodeOf : Instr → BitVec 8
  | .nop => 0x00
  | .lookup => 0x01
  | .quant => 0x02
  | .mask => 0x03
  | .pack => 0x04
  | .rleEnc => 0x05
  | .rleDec => 0x06
  | .convert => 0x07

/-- "The full word of each command is `zext_32(OPC)`" (30_encoding.md R81). -/
def encode (i : Instr) : Word := (opcodeOf i).zeroExtend 32

/-- The word's four bytes as a host write of width 4 lays them out, least significant first (20_memory.md R61). -/
def wordBytes (w : Word) : List Byte :=
  [w.extractLsb' 0 8, w.extractLsb' 8 8, w.extractLsb' 16 8, w.extractLsb' 24 8]

/-- The word of four bytes, least significant first; any other number of bytes is no command word. -/
def wordOfBytes : List Byte → Option Word
  | [b0, b1, b2, b3] => some (b3 ++ b2 ++ b1 ++ b0)
  | _ => none

/-- The command a CMD write of these bytes carries; `none` where the bytes are no command word or an illegal one. -/
def decodeBytes (bs : List Byte) : Option Instr :=
  match wordOfBytes bs with
  | some w => (decode w).toOption
  | none => none

/-- The command of the opcode-table word `w` of `nbits` bits, the bits above `nbits` zero. Every row has 32. -/
def decodeTableWord (nbits w : Nat) : Option Instr :=
  if w % 2 ^ nbits < 2 ^ 32 then decodeBytes (wordBytes (BitVec.ofNat 32 (w % 2 ^ nbits))) else none

end Sys2Proof
end

