-- ==== Sys2Proof/Machine/Float.lean ====
section
/-!
DEFINITION. IEEE 754 binary64 arithmetic, rounded roundTiesToEven (00_scope.md R11). A finite value is a whole
multiple of 2^-1074, so every operation is: the exact rational result, then one rounding.
-/

namespace Sys2Proof

/-- `2^k`, in the form Lean's kernel evaluates at once. Irreducible, so that no proof writes 2^1074 out by accident. -/
@[irreducible] def pow2 (k : Nat) : Nat := Nat.pow 2 k

/-- How many units of 2^-1074 make 1: a finite `F64` of magnitude `F64.unit * n` is the integer `n`. The unit is written
as the left factor: Lean's kernel unfolds a product along its right factor. -/
def F64.unit : Nat := pow2 1074

/-- The number of the highest bit set in `n`, found by halving the range: `k` is added where bits at or above `k` remain. -/
def topBitIn : List Nat → Nat → Nat
  | [], _ => 0
  | k :: ks, n => if n < pow2 k then topBitIn ks n else k + topBitIn ks (n / pow2 k)

/-- `Nat.log2 n`, quick to evaluate below 2^4096, which no operation here exceeds. -/
def topBit (n : Nat) : Nat :=
  if n < pow2 4096 then topBitIn [2048, 1024, 512, 256, 128, 64, 32, 16, 8, 4, 2, 1] n else Nat.log2 n

/-- `num / den` (in units) rounded to the nearest magnitude with at most 53 significant bits, ties to even. The
bits below the unit are rounded away as well, which is the subnormal range. -/
def F64.roundMag (num den : Nat) : Nat :=
  let shift := topBit (num / den) - 52
  let step := den * pow2 shift
  let k := num / step
  let rest := num % step
  let up := if 2 * rest > step then 1 else if 2 * rest = step then k % 2 else 0
  (k + up) * pow2 shift

/-- The finite value `±num / den` in units, rounded; past the largest finite value it is infinite. -/
def F64.round (neg : Bool) (num den : Nat) : F64 :=
  let m := F64.roundMag num den
  if m < pow2 2098 then .fin neg m else .inf neg

/-- A finite value's signed number of units. -/
def F64.signed (neg : Bool) (mag : Nat) : Int := if neg then -(mag : Int) else mag

/-- `f64(n)`, the value of a natural number, exact below 2^53 (00_scope.md R11). -/
def F64.ofNat (n : Nat) : F64 := F64.round false (F64.unit * n) 1

/-- `-x`. -/
def F64.neg : F64 → F64
  | .nan => .nan
  | .inf s => .inf (!s)
  | .fin s m => .fin (!s) m

/-- `fadd(a, b)` (00_scope.md R11). An exact zero sum of unlike signs is +0. -/
def F64.add : F64 → F64 → F64
  | .nan, _ => .nan
  | _, .nan => .nan
  | .inf s, .inf t => if s = t then .inf s else .nan
  | .inf s, .fin _ _ => .inf s
  | .fin _ _, .inf t => .inf t
  | .fin s m, .fin t n =>
    let sum := F64.signed s m + F64.signed t n
    if sum = 0 then .fin (s && t) 0 else F64.round (decide (sum < 0)) sum.natAbs 1

/-- `fsub(a, b)` (00_scope.md R11). -/
def F64.sub (a b : F64) : F64 := F64.add a b.neg

/-- `fmul(a, b)` (00_scope.md R11). -/
def F64.mul : F64 → F64 → F64
  | .nan, _ => .nan
  | _, .nan => .nan
  | .inf s, .inf t => .inf (s != t)
  | .inf s, .fin t n => if n = 0 then .nan else .inf (s != t)
  | .fin s m, .inf t => if m = 0 then .nan else .inf (s != t)
  | .fin s m, .fin t n => F64.round (s != t) (m * n) F64.unit

/-- `fdiv(a, b)` (00_scope.md R11). -/
def F64.div : F64 → F64 → F64
  | .nan, _ => .nan
  | _, .nan => .nan
  | .inf _, .inf _ => .nan
  | .inf s, .fin t _ => .inf (s != t)
  | .fin s _, .inf t => .fin (s != t) 0
  | .fin s m, .fin t n =>
    if n = 0 then (if m = 0 then .nan else .inf (s != t)) else F64.round (s != t) (F64.unit * m) n

/-- `flt(a, b)`: false whenever an operand is NaN; the two zeros are equal (00_scope.md R11). -/
def F64.lt : F64 → F64 → Bool
  | .nan, _ => false
  | _, .nan => false
  | .inf s, .inf t => s && !t
  | .inf s, .fin _ _ => s
  | .fin _ _, .inf t => !t
  | .fin s m, .fin t n => decide (F64.signed s m < F64.signed t n)

/-- `fgt(a, b)` (00_scope.md R11). -/
def F64.gt (a b : F64) : Bool := F64.lt b a

/-- `feq(a, b)` (00_scope.md R11). -/
def F64.eq : F64 → F64 → Bool
  | .inf s, .inf t => s == t
  | .fin s m, .fin t n => decide (F64.signed s m = F64.signed t n)
  | _, _ => false

/-- Neither NaN nor infinite. -/
def F64.isFinite : F64 → Bool
  | .fin _ _ => true
  | _ => false

/-- The magnitude of a finite binary64 with biased exponent `e` and fraction `f`, in units. -/
def F64.magOf (e f : Nat) : Nat := if e = 0 then f else (pow2 52 + f) * pow2 (e - 1)

/-- The value with bit pattern `b`: sign bit 63, exponent bits 62:52, fraction bits 51:0 (30_encoding.md R84). -/
def F64.ofBits (b : BitVec 64) : F64 :=
  let neg := b.getLsbD 63
  let e := (b.extractLsb' 52 11).toNat
  let f := (b.extractLsb' 0 52).toNat
  if e = 0x7FF then (if f = 0 then .inf neg else .nan) else .fin neg (F64.magOf e f)

/-- The biased exponent and the fraction of a finite magnitude, as one number `exponent * 2^52 + fraction`. -/
def F64.fieldsOf (mag : Nat) : Nat :=
  if mag < pow2 52 then mag
  else (topBit mag - 51) * pow2 52 + (mag / pow2 (topBit mag - 52) - pow2 52)

/-- The bit pattern of a value; NaN has many, so it has none here. Only the script notation `GAIN f` uses it
(30_encoding.md R87). -/
def F64.toBits : F64 → Option (BitVec 64)
  | .nan => none
  | .inf s => some (BitVec.ofBool s ++ 0x7FF#11 ++ 0#52)
  | .fin s m => some (BitVec.ofBool s ++ BitVec.ofNat 63 (F64.fieldsOf m))

/-- A finite value that binary64 has: at most 53 significant bits, below 2^1024. -/
def F64.representable : F64 → Bool
  | .fin _ m => decide (m < pow2 2098 ∧ m % pow2 (topBit m - 52) = 0)
  | _ => true

/-- Round a finite value to the nearest integer, ties to even; `none` where it is not finite or not in 0..255
(41_quantizer.md R117, 93_implementation_defined.md I4; log entry 8). -/
def F64.toU8 : F64 → Option Byte
  | .fin s m =>
    let k := m / F64.unit
    let rest := m % F64.unit
    let n := if 2 * rest > F64.unit then k + 1 else if 2 * rest = F64.unit then k + k % 2 else k
    if n = 0 ∨ (s = false ∧ n < 256) then some (BitVec.ofNat 8 n) else none
  | _ => none

end Sys2Proof
end

