-- ==== Sys2Proof/Machine/State.lean ====
section
/-!
DEFINITION. The state of the block and of the host that drives it (10_state.md R20 to R42), as plain data, and the state
after reset (R39).
-/

namespace Sys2Proof.Machine

/-- A memory: (address, byte) pairs, addresses strictly rising. An unlisted address holds no value: the byte is
unwritten (10_state.md R37). -/
abbrev Memory := List Host.Cell

/-- The error codes of STATUS.ERR (60_exceptions.md R180). Codes 8 to 15 are never reported and have no name. -/
inductive ErrCode where
  | ok
  | badOpcode
  | invalidDimensions
  | badGain
  | capacity
  | rleBadMagic
  | rleBadLength
  | rleBadRecord
deriving DecidableEq, Repr

/-- The model faults that end a run (60_exceptions.md R186): "ends the command at the faulting read, with no
effect. The block sets no STATUS, and the run is over." The other two faults of R186, HostHazard and
HostMisuse, end nothing: they are recorded in `FaultSet`. -/
inductive Fault where
  /-- raised by QUANT, PACK, RLE_ENC, RLE_DEC and CONVERT when they read a byte of PIX, PK or RL that nothing has
  written since reset (10_state.md R37). Safe: the spec gives the run no meaning, and the model stops. -/
  | readUnwritten
  /-- raised by `nearest` on a channel that is NaN or infinite (40_palette.md R101); no input reaches it (41_quantizer.md
  R118). Safe: the model stops. -/
  | numericFault
deriving DecidableEq, Repr

/-- Why a step has no meaning. -/
inductive Refusal where
  /-- answered only by an arm of `exec` whose command has no meaning yet. No arm does: every command of the
  opcode table has its meaning. Safe: the model stops. -/
  | notModelled (mnemonic : String)
deriving DecidableEq, Repr

/-- How a command's execution ends when it makes no write (60_exceptions.md R183, R186). -/
inductive Halt where
  /-- `raise E`: the command completes with STATUS.ERR = code(E) (00_scope.md R10) -/
  | error (e : ErrCode)
  /-- a model fault: the run is over -/
  | fault (f : Fault)
deriving DecidableEq, Repr

/-- The registers with storage (10_state.md R22). CMD has none: it reads 0. -/
structure Regs where
  status : Word
  config : Word
  width : Word
  height : Word
  gainLo : Word
  gainHi : Word
  pkLen : Word
  rlLen : Word
  color : Word
  result : Word
deriving DecidableEq, Repr

/-- The register map's names (10_state.md R22). -/
inductive Reg where
  | cmd
  | status
  | config
  | width
  | height
  | gainLo
  | gainHi
  | pkLen
  | rlLen
  | color
  | result
deriving DecidableEq, Repr

/-- The four address spaces (20_memory.md R60). -/
inductive Space where
  | reg
  | pix
  | pk
  | rl
deriving DecidableEq, Repr

/-- Where a host access goes: an offset in a named space, or an address of the host bus, which the four
base addresses map to a space (00_scope.md R6, 20_memory.md R60, R67). -/
inductive HostAddr where
  | at (space : Space) (offset : Nat)
  | bus (address : Nat)
deriving DecidableEq, Repr

/-- One thing the host does (70_reset_and_hazards.md R209, 30_encoding.md R86, R87). -/
inductive HostOp where
  /-- a bus read of `width` bytes; `expect` is the value the script asserts, if it asserts one (R86) -/
  | read (address : HostAddr) (width : Nat) (expect : Option Word)
  /-- a bus write of the low `width` bytes of `data` -/
  | write (address : HostAddr) (width : Nat) (data : Word)
  /-- `WAIT`: read STATUS, and again until BUSY is 0 (R87) -/
  | wait
  /-- the reset event (70_reset_and_hazards.md R200) -/
  | reset
deriving DecidableEq, Repr

/-- What a host read returned. -/
structure HostRead where
  space : Space
  offset : Nat
  width : Nat
  value : Word
  expect : Option Word
deriving DecidableEq, Repr

/-- The faults that are recorded and end nothing (60_exceptions.md R186). A set of two: one flag each. -/
structure FaultSet where
  hostHazard : Bool
  hostMisuse : Bool
deriving DecidableEq, Repr

/-- The two agents (10_state.md R20). -/
inductive Agent where
  | host
  | block
deriving DecidableEq, Repr

/-- The host and the run's bookkeeping: no part of the block, so the block's reset leaves it alone
(70_reset_and_hazards.md R200). -/
structure HostSide where
  /-- what the host is still to do, in its program order (20_memory.md R69) -/
  script : List HostOp
  /-- whose turn it is at the coming steps, where both could move; when it runs out the block moves
  (70_reset_and_hazards.md R207; log entry 4) -/
  sched : List Agent
  /-- what the host's reads returned, oldest first -/
  reads : List HostRead
  /-- the fault set, which nothing clears (60_exceptions.md R186) -/
  faults : FaultSet
  /-- how many bytes the free value of host reads has given (93_implementation_defined.md I6; log entry 5) -/
  draws : Nat
deriving DecidableEq, Repr

end Sys2Proof.Machine

namespace Sys2Proof.Machine

/-- The machine: the part's parameters, the block's registers, PENDING_OPC and memories, and the host. -/
structure State where
  params : Params
  regs : Regs
  pendingOpc : Word
  pix : Memory
  pk : Memory
  rl : Memory
  host : HostSide
deriving DecidableEq, Repr

/-- The registers after reset (10_state.md R39). -/
def Regs.reset (p : Params) : Regs where
  status := 0x00000000#32
  config := 0x00000004#32
  width := BitVec.ofNat 32 p.panelSize
  height := BitVec.ofNat 32 p.panelSize
  gainLo := 0x00000000#32
  gainHi := 0x3FF00000#32
  pkLen := 0#32
  rlLen := 0#32
  color := 0#32
  result := 0#32

/-- A host with nothing to do and a run in which nothing has been recorded (DESIGN CHOICE, log entries 3 to 5). -/
def HostSide.idle : HostSide where
  script := []
  sched := []
  reads := []
  faults := ⟨false, false⟩
  draws := 0

/-- The reset event on the block: every register and internal state at its reset value, every memory byte
unwritten, parameters and host untouched (70_reset_and_hazards.md R200, 10_state.md R39). -/
def State.blockReset (s : State) : State where
  params := s.params
  regs := Regs.reset s.params
  pendingOpc := 0#32
  pix := []
  pk := []
  rl := []
  host := s.host

/-- The machine of the part with parameters `p` right after reset (10_state.md R39). -/
def State.resetOf (p : Params) : State where
  params := p
  regs := Regs.reset p
  pendingOpc := 0#32
  pix := []
  pk := []
  rl := []
  host := HostSide.idle

/-- The machine right after reset, for parameter set T (95_test_vectors.md; log entry 1). -/
def State.reset : State := State.resetOf Params.reference

end Sys2Proof.Machine
end

