-- ==== Sys2Proof/Machine/Flags.lean ====
section
/-!
DEFINITION. The only flags of the block, STATUS.BUSY, STATUS.DONE and STATUS.ERR (10_state.md R24 to R26, R41), and the
two places that write them: the CMD write that starts a command and the step that completes it (R42).
-/

namespace Sys2Proof.Machine

/-- The number of an error code (60_exceptions.md R180). -/
def ErrCode.code : ErrCode → BitVec 4
  | .ok => 0
  | .badOpcode => 1
  | .invalidDimensions => 2
  | .badGain => 3
  | .capacity => 4
  | .rleBadMagic => 5
  | .rleBadLength => 6
  | .rleBadRecord => 7

/-- The STATUS word: BUSY[0], DONE[1], [3:2] 0, ERR[7:4], [31:8] 0 (10_state.md R22). -/
def statusWord (busy done : Bool) (err : BitVec 4) : Word :=
  0#24 ++ err ++ 0#2 ++ BitVec.ofBool done ++ BitVec.ofBool busy

/-- STATUS.BUSY (10_state.md R24). -/
def State.busy (s : State) : Bool := s.regs.status.getLsbD 0

/-- STATUS.DONE (10_state.md R25). -/
def State.done (s : State) : Bool := s.regs.status.getLsbD 1

/-- STATUS.ERR (10_state.md R26). -/
def State.err (s : State) : BitVec 4 := s.regs.status.extractLsb' 4 4

/-- The effect of a host write of `v` to CMD while the block is idle (10_state.md R42). -/
def State.startCommand (s : State) (v : Word) : State :=
  { s with pendingOpc := v, regs := { s.regs with status := statusWord true false 0 } }

/-- The STATUS update of the completing block step: BUSY 0, DONE 1, ERR code(e) (10_state.md R42). -/
def State.finish (s : State) (e : ErrCode) : State :=
  { s with regs := { s.regs with status := statusWord false true e.code } }

end Sys2Proof.Machine
end

