-- ==== Sys2Proof/Machine/Ops.lean ====
section
/-!
DEFINITION. The named operations: the byte memories (00_scope.md R10, 10_state.md R37), the register file (R22), and
the completion of a command, with or without an error (R42, 60_exceptions.md R183, R186).
-/

namespace Sys2Proof.Machine

/-- What a command's execution answers: a result, or the way it halts with no effect. -/
abbrev Exec (α : Type) := Except Halt α

/-! ### Byte memories -/

/-- The byte at `a`; `none` where nothing has written it since reset (10_state.md R37). -/
def Memory.get : Memory → Nat → Option Byte
  | [], _ => none
  | (k, v) :: m, a => if k = a then some v else Memory.get m a

/-- Write one byte, keeping the addresses rising. -/
def Memory.set : Memory → Nat → Byte → Memory
  | [], a, v => [(a, v)]
  | (k, u) :: m, a, v =>
    if a < k then (a, v) :: (k, u) :: m
    else if a = k then (a, v) :: m
    else (k, u) :: Memory.set m a v

/-- The canonical form: addresses strictly rising. An unlisted byte is unwritten, so no entry equals it. -/
def Memory.wf (m : Memory) : Bool := decide ((m.map Prod.fst).Pairwise (· < ·))

/-- Every written byte lies inside a memory of `cap` bytes. -/
def Memory.within (m : Memory) (cap : Nat) : Bool := m.all fun c => decide (c.1 < cap)

/-- `MemRead(S, a, 1)` by a command: an unwritten byte is the model fault ReadUnwritten (00_scope.md R10). -/
def readByte (m : Memory) (a : Nat) : Exec Byte :=
  match m.get a with
  | some v => .ok v
  | none => .error (.fault .readUnwritten)

/-- Do `f` at each item in order; the first halt ends it. -/
def collect {α β : Type} (f : α → Exec β) : List α → Exec (List β)
  | [] => .ok []
  | a :: as =>
    match f a with
    | .error h => .error h
    | .ok b =>
      match collect f as with
      | .error h => .error h
      | .ok bs => .ok (b :: bs)

/-- The `n` bytes from address `a`, in order. -/
def readBytes (m : Memory) (a n : Nat) : Exec (List Byte) :=
  collect (fun i => readByte m (a + i)) (List.range n)

/-- Write the bytes at `a`, `a + 1`, and so on. -/
def writeBytes (m : Memory) (a : Nat) : List Byte → Memory
  | [] => m
  | b :: bs => writeBytes (m.set a b) (a + 1) bs

/-- The little-endian integer of the bytes (20_memory.md R61). -/
def leNat : List Byte → Nat
  | [] => 0
  | b :: bs => b.toNat + 256 * leNat bs

/-- The low `n` bytes of a word, least significant first (20_memory.md R61). -/
def leBytes (n : Nat) (v : Word) : List Byte :=
  (List.range n).map fun i => v.extractLsb' (8 * i) 8

/-- The 32-bit register value of a byte length; a length of 2^32 or more has no stated value (log entry 10). -/
def lengthWord (n : Nat) : Word :=
  if n < 4294967296 then BitVec.ofNat 32 n else Config.overlongLength n

/-! ### Address spaces -/

/-- The size of a space in bytes (20_memory.md R60). -/
def Space.size (p : Params) : Space → Nat
  | .reg => 256
  | .pix => p.pixCap
  | .pk => p.pkCap
  | .rl => p.rlCap

/-- The base address of a space on the host bus (00_scope.md R6). -/
def Space.base (p : Params) : Space → Nat
  | .reg => p.regBase
  | .pix => p.pixBase
  | .pk => p.pkBase
  | .rl => p.rlBase

/-- The memory behind a space; REG has none. -/
def State.memory (s : State) : Space → Memory
  | .reg => []
  | .pix => s.pix
  | .pk => s.pk
  | .rl => s.rl

/-- Put a memory in place; REG has none. -/
def State.setMemory (s : State) (space : Space) (m : Memory) : State :=
  match space with
  | .reg => s
  | .pix => { s with pix := m }
  | .pk => { s with pk := m }
  | .rl => { s with rl := m }

/-! ### Registers -/

/-- The register at a byte offset; `none` at a reserved offset (10_state.md R22). -/
def Reg.ofOffset (off : Nat) : Option Reg :=
  match off with
  | 0x00 => some .cmd
  | 0x04 => some .status
  | 0x08 => some .config
  | 0x0C => some .width
  | 0x10 => some .height
  | 0x14 => some .gainLo
  | 0x18 => some .gainHi
  | 0x1C => some .pkLen
  | 0x20 => some .rlLen
  | 0x24 => some .color
  | 0x28 => some .result
  | _ => none

/-- The byte offset of a register (10_state.md R22). -/
def Reg.offset : Reg → Nat
  | .cmd => 0x00
  | .status => 0x04
  | .config => 0x08
  | .width => 0x0C
  | .height => 0x10
  | .gainLo => 0x14
  | .gainHi => 0x18
  | .pkLen => 0x1C
  | .rlLen => 0x20
  | .color => 0x24
  | .result => 0x28

/-- The bits of a register that a read can show as 1 (10_state.md R22); the others "read as zero". CMD reads 0. -/
def Reg.fieldMask : Reg → Word
  | .cmd => 0x00000000#32
  | .status => 0x000000F3#32
  | .config => 0x00000007#32
  | .width => 0x0000FFFF#32
  | .height => 0x0000FFFF#32
  | .gainLo => 0xFFFFFFFF#32
  | .gainHi => 0xFFFFFFFF#32
  | .pkLen => 0xFFFFFFFF#32
  | .rlLen => 0xFFFFFFFF#32
  | .color => 0x00FFFFFF#32
  | .result => 0x0000070F#32

/-- The stored word of a register; CMD stores nothing. -/
def Regs.stored (g : Regs) : Reg → Word
  | .cmd => 0#32
  | .status => g.status
  | .config => g.config
  | .width => g.width
  | .height => g.height
  | .gainLo => g.gainLo
  | .gainHi => g.gainHi
  | .pkLen => g.pkLen
  | .rlLen => g.rlLen
  | .color => g.color
  | .result => g.result

/-- `reg(NAME)`: what a read of the register gives (10_state.md R22). -/
def Regs.read (g : Regs) (r : Reg) : Word := g.stored r &&& r.fieldMask

/-- A host write of a register other than CMD. STATUS and RESULT ignore it; "writes to [fields shown as 0] are
ignored" (10_state.md R22). CMD is `State.startCommand`. -/
def Regs.write (g : Regs) (r : Reg) (v : Word) : Regs :=
  match r with
  | .cmd => g
  | .status => g
  | .config => { g with config := v &&& Reg.fieldMask .config }
  | .width => { g with width := v &&& Reg.fieldMask .width }
  | .height => { g with height := v &&& Reg.fieldMask .height }
  | .gainLo => { g with gainLo := v }
  | .gainHi => { g with gainHi := v }
  | .pkLen => { g with pkLen := v }
  | .rlLen => { g with rlLen := v }
  | .color => { g with color := v &&& Reg.fieldMask .color }
  | .result => g

/-! ### Errors and completion -/

/-- `raise E` (00_scope.md R10): the command halts with no write. -/
def raise {α : Type} (e : ErrCode) : Exec α := .error (.error e)

/-- A command that raises `e`: the state before it, with STATUS alone changed (60_exceptions.md R183). -/
def completeWithError (s : State) (e : ErrCode) : State := s.finish e

/-- The completing block step (10_state.md R42), from the state before the command and what its `Execute`
answered: on OK the command's writes and STATUS; on an error STATUS alone (60_exceptions.md R183); on a model
fault the run is over (R186). -/
def complete (s : State) (r : Exec State) : Host.Outcome State Fault Refusal :=
  match r with
  | .ok s' => .next (s'.finish .ok)
  | .error (.error e) => .next (completeWithError s e)
  | .error (.fault f) => .fault f

end Sys2Proof.Machine
end

