-- ==== Sys2Proof/Machine/Operands.lean ====
section
/-!
DEFINITION. Where a command's operands come from (30_encoding.md R83): register fields, the gain, palette entries and
codes, pixels, and the boundary checks of 60_exceptions.md R180.
-/

namespace Sys2Proof.Machine

/-- The image width w = W[15:0] (10_state.md R28). -/
def State.imageWidth (s : State) : Nat := ((s.regs.read .width).extractLsb' 0 16).toNat

/-- The image height h = H[15:0] (10_state.md R29). -/
def State.imageHeight (s : State) : Nat := ((s.regs.read .height).extractLsb' 0 16).toNat

/-- CONFIG.DITHER (10_state.md R27). -/
def State.dither (s : State) : Bool := (s.regs.read .config).getLsbD 0

/-- CONFIG.MASK (10_state.md R27). -/
def State.maskEnabled (s : State) : Bool := (s.regs.read .config).getLsbD 1

/-- CONFIG.ROT180 (10_state.md R27). -/
def State.rot180 (s : State) : Bool := (s.regs.read .config).getLsbD 2

/-- `gbits = {reg(GAIN_HI), reg(GAIN_LO)}` (10_state.md R30). -/
def State.gainBits (s : State) : BitVec 64 := s.regs.read .gainHi ++ s.regs.read .gainLo

/-- The gain operand (30_encoding.md R84). -/
def State.gain (s : State) : F64 := F64.ofBits s.gainBits

/-- The operand of LOOKUP (10_state.md R34). -/
def State.colorOperand (s : State) : Rgb :=
  ⟨(s.regs.read .color).extractLsb' 0 8, (s.regs.read .color).extractLsb' 8 8, (s.regs.read .color).extractLsb' 16 8⟩

/-- `PALETTE[i].rgb` (00_scope.md R7). -/
def paletteAt (p : Palette) : Fin 6 → Rgb
  | 0 => p.e0
  | 1 => p.e1
  | 2 => p.e2
  | 3 => p.e3
  | 4 => p.e4
  | 5 => p.e5

/-- `CODE = [0, 1, 2, 3, 5, 6]` (00_scope.md R7): code 4 is absent, so a position is not its code. -/
def codeAt : Fin 6 → Nibble
  | 0 => 0
  | 1 => 1
  | 2 => 2
  | 3 => 3
  | 4 => 5
  | 5 => 6

/-- The colour with binary64 channels `f64(R)`, `f64(G)`, `f64(B)`. -/
def colourF64 (c : Rgb) : Rgb64 := ⟨F64.ofNat c.r.toNat, F64.ofNat c.g.toNat, F64.ofNat c.b.toNat⟩

/-- R, G and B of pixel `n`, from PIX bytes 4n, 4n+1 and 4n+2; the alpha byte is not read
(30_encoding.md R90, 20_memory.md R64). -/
def readPixel (m : Memory) (n : Nat) : Exec Rgb :=
  match readByte m (4 * n) with
  | .error h => .error h
  | .ok r =>
    match readByte m (4 * n + 1) with
    | .error h => .error h
    | .ok g =>
      match readByte m (4 * n + 2) with
      | .error h => .error h
      | .ok b => .ok ⟨r, g, b⟩

/-- Write R, G and B of pixel `n`; the alpha byte is not written. -/
def writePixel (m : Memory) (n : Nat) (c : Rgb) : Memory :=
  ((m.set (4 * n) c.r).set (4 * n + 1) c.g).set (4 * n + 2) c.b

/-- Write the pixels `n`, `n + 1`, and so on. -/
def writePixels (m : Memory) (n : Nat) : List Rgb → Memory
  | [] => m
  | c :: cs => writePixels (writePixel m n c) (n + 1) cs

/-- The pixel positions `(x, y)` in raster order: rows top to bottom, left to right (00_scope.md R12). -/
def rasterOrder (w h : Nat) : List (Nat × Nat) :=
  (List.range h).flatMap fun y => (List.range w).map fun x => (x, y)

/-- `w = 0 or h = 0 or w*h > MAX_PIXELS` (60_exceptions.md R180, code 2 for QUANT, MASK and PACK). -/
def State.badDimensions (s : State) : Bool :=
  decide (s.imageWidth = 0 ∨ s.imageHeight = 0 ∨ s.imageWidth * s.imageHeight > s.params.maxPixels)

/-- `w != PANEL_SIZE or h != PANEL_SIZE` (60_exceptions.md R180, code 2 for CONVERT). -/
def State.notPanelSized (s : State) : Bool :=
  decide (s.imageWidth ≠ s.params.panelSize ∨ s.imageHeight ≠ s.params.panelSize)

/-- `gain_ok(gain)`: not NaN, not infinite, not below 0.0 (41_quantizer.md R111). -/
def gainOk (g : F64) : Bool := g.isFinite && !F64.lt g (F64.ofNat 0)

end Sys2Proof.Machine
end

