-- ==== Sys2Proof/Machine/Mask.lean ====
section
/-!
DEFINITION. The circular mask (42_mask.md): the geometry (R130) and MASK (R131).
-/

namespace Sys2Proof.Machine

/-- `outside(x, y)`: `(2x - w + 1)^2 + (2y - h + 1)^2 > w^2` in exact integers (42_mask.md R130). -/
def outsideDisk (w h x y : Nat) : Bool :=
  let dx : Int := 2 * (x : Int) - w + 1
  let dy : Int := 2 * (y : Int) - h + 1
  decide (dx * dx + dy * dy > (w : Int) * w)

/-- Pure white RGB, whatever the palette's white is (42_mask.md R131). -/
def pureWhite : Rgb := ⟨255, 255, 255⟩

/-- The loop of MASK over the positions still to do (42_mask.md R131). -/
def maskScan (w h : Nat) : List (Nat × Nat) → Memory → Memory
  | [], m => m
  | (x, y) :: rest, m =>
    maskScan w h rest (if outsideDisk w h x y then writePixel m (y * w + x) pureWhite else m)

/-- The loop of MASK (42_mask.md R131, 45_convert.md R171). -/
def maskImage (w h : Nat) (s : State) : State :=
  { s with pix := maskScan w h (rasterOrder w h) s.pix }

/-- `Execute` of MASK (42_mask.md R131). CONFIG.MASK is not looked at. -/
def maskBody (s : State) : Exec State :=
  if s.badDimensions then raise .invalidDimensions
  else .ok (maskImage s.imageWidth s.imageHeight s)

/-- MASK (42_mask.md R131). -/
def execMask (s : State) : Host.Outcome State Fault Refusal := complete s (maskBody s)

end Sys2Proof.Machine
end

