-- ==== Sys2Proof/Machine/Palette.lean ====
section
/-!
DEFINITION. The palette index and its two commands (40_palette.md): `dist` (R100), `nearest` (R101), LOOKUP (R103), NOP (R104).
-/

namespace Sys2Proof.Machine

/-- `dist(c, p)`, the squared distance, in the order of operations the spec writes (40_palette.md R100). -/
def colourDist (c : Rgb64) (p : Rgb) : F64 :=
  let dr := F64.sub c.r (F64.ofNat p.r.toNat)
  let dg := F64.sub c.g (F64.ofNat p.g.toNat)
  let db := F64.sub c.b (F64.ofNat p.b.toNat)
  F64.add (F64.add (F64.mul dr dr) (F64.mul dg dg)) (F64.mul db db)

/-- The loop of `nearest` over the positions still to try: only a strictly smaller distance replaces the best, so an
equal distance keeps the earlier entry (40_palette.md R101). -/
def nearestLoop (p : Palette) (c : Rgb64) : List (Fin 6) → Fin 6 → F64 → Fin 6
  | [], best, _ => best
  | i :: rest, best, bd =>
    let d := colourDist c (paletteAt p i)
    if F64.lt d bd then nearestLoop p c rest i d else nearestLoop p c rest best bd

/-- `nearest(c)`: the lowest palette position of least distance; a channel that is NaN or infinite is the model fault
NumericFault (40_palette.md R101). -/
def nearest (p : Palette) (c : Rgb64) : Exec (Fin 6) :=
  if c.r.isFinite && c.g.isFinite && c.b.isFinite then
    .ok (nearestLoop p c [1, 2, 3, 4, 5] 0 (colourDist c (paletteAt p 0)))
  else .error (.fault .numericFault)

/-- The RESULT word of position `i`: INDEX[10:8] = i, CODE[3:0] = CODE[i], the rest 0 (40_palette.md R103). -/
def resultWord (i : Fin 6) : Word := 0#21 ++ BitVec.ofNat 3 i.val ++ 0#4 ++ codeAt i

/-- `Execute` of LOOKUP (40_palette.md R103). The tone gain is not applied. -/
def lookupBody (s : State) : Exec State :=
  match nearest s.params.palette (colourF64 s.colorOperand) with
  | .error h => .error h
  | .ok i => .ok { s with regs := { s.regs with result := resultWord i } }

/-- NOP (40_palette.md R104): `Execute` returns OK with no writes. -/
def execNop (s : State) : Host.Outcome State Fault Refusal := complete s (.ok s)

/-- LOOKUP (40_palette.md R103). -/
def execLookup (s : State) : Host.Outcome State Fault Refusal := complete s (lookupBody s)

end Sys2Proof.Machine
end

