-- ==== Sys2Proof/Machine/Quantizer.lean ====
section
/-!
DEFINITION. The tone adjuster and the quantizer (41_quantizer.md): `adjust` (R110), flat mode (R113), Floyd-Steinberg
mode (R114 to R117), QUANT (R112). EBUF (10_state.md R33) is a list local to one command.
-/

namespace Sys2Proof.Machine

/-- `clamp(v)` to [0.0, 255.0] (41_quantizer.md R110). -/
def clampChannel (v : F64) : F64 :=
  if F64.lt v (F64.ofNat 0) then F64.ofNat 0
  else if F64.gt v (F64.ofNat 255) then F64.ofNat 255
  else v

/-- `clamp` on each channel. -/
def clampRgb (c : Rgb64) : Rgb64 := ⟨clampChannel c.r, clampChannel c.g, clampChannel c.b⟩

/-- `adjust`: the gain multiplies green only, and every channel is clamped; nothing is rounded to an integer
(41_quantizer.md R110). -/
def adjust (gain : F64) (c : Rgb) : Rgb64 :=
  clampRgb ⟨F64.ofNat c.r.toNat, F64.mul (F64.ofNat c.g.toNat) gain, F64.ofNat c.b.toNat⟩

/-- `adjust(n, gain)` with pixel n read from PIX (41_quantizer.md R110). -/
def adjustedPixel (m : Memory) (gain : F64) (n : Nat) : Exec Rgb64 :=
  match readPixel m n with
  | .error h => .error h
  | .ok c => .ok (adjust gain c)

/-! ### Flat mode -/

/-- The palette colour that replaces pixel n (41_quantizer.md R113). -/
def flatPixel (p : Palette) (m : Memory) (gain : F64) (n : Nat) : Exec Rgb :=
  match adjustedPixel m gain n with
  | .error h => .error h
  | .ok c =>
    match nearest p c with
    | .error h => .error h
    | .ok i => .ok (paletteAt p i)

/-- FlatQuantize (41_quantizer.md R113). Each pixel reads its own input bytes only, so all are read before the first
is written. -/
def flatQuantize (p : Palette) (w h : Nat) (gain : F64) (m : Memory) : Exec Memory :=
  match collect (flatPixel p m gain) (List.range (w * h)) with
  | .error e => .error e
  | .ok cs => .ok (writePixels m 0 cs)

/-! ### Dithered mode -/

/-- EBUF: one entry per pixel, in raster order (10_state.md R33). -/
abbrev EBuf := List Rgb64

/-- One channel of `Spread`: `fadd(old, fdiv(fmul(err, f64(k)), 16.0))` (41_quantizer.md R116). -/
def spreadChannel (k : Nat) (old err : F64) : F64 :=
  F64.add old (F64.div (F64.mul err (F64.ofNat k)) (F64.ofNat 16))

/-- `Spread` to the entry at raster index `m` (41_quantizer.md R116). -/
def spread (buf : EBuf) (m : Nat) (err : Rgb64) (k : Nat) : EBuf :=
  buf.modify m fun c => ⟨spreadChannel k c.r err.r, spreadChannel k c.g err.g, spreadChannel k c.b err.b⟩

/-- `Diffuse(x, y, err)`: 7/16 right, 3/16 below-left, 5/16 below, 1/16 below-right; a neighbour outside the image is
skipped (41_quantizer.md R116). -/
def diffuse (w h x y : Nat) (err : Rgb64) (buf : EBuf) : EBuf :=
  let buf := if x + 1 < w then spread buf (y * w + (x + 1)) err 7 else buf
  let buf := if y + 1 < h ∧ 1 ≤ x then spread buf ((y + 1) * w + (x - 1)) err 3 else buf
  let buf := if y + 1 < h then spread buf ((y + 1) * w + x) err 5 else buf
  if y + 1 < h ∧ x + 1 < w then spread buf ((y + 1) * w + (x + 1)) err 1 else buf

/-- `old - new`, channel by channel (41_quantizer.md R115). -/
def errorOf (old new : Rgb64) : Rgb64 := ⟨F64.sub old.r new.r, F64.sub old.g new.g, F64.sub old.b new.b⟩

/-- One pixel of the scan (41_quantizer.md R115). `old` is the current entry, not clamped. EBUF has an entry for
every pixel of the image; past its end the model stops. -/
def ditherPixel (p : Palette) (w h : Nat) (x y : Nat) (buf : EBuf) : Exec EBuf :=
  match buf[y * w + x]? with
  | none => .error (.fault .numericFault)
  | some old =>
    match nearest p old with
    | .error e => .error e
    | .ok i =>
      let new := colourF64 (paletteAt p i)
      .ok (diffuse w h x y (errorOf old new) (buf.set (y * w + x) new))

/-- The scan over the positions still to do (41_quantizer.md R115). -/
def ditherScan (p : Palette) (w h : Nat) : List (Nat × Nat) → EBuf → Exec EBuf
  | [], buf => .ok buf
  | (x, y) :: rest, buf =>
    match ditherPixel p w h x y buf with
    | .error e => .error e
    | .ok buf' => ditherScan p w h rest buf'

/-- `to_u8(clamp(v))` (41_quantizer.md R117); a value it gives no byte to is NumericFault (log entry 8). -/
def channelByte (v : F64) : Exec Byte :=
  match F64.toU8 (clampChannel v) with
  | some b => .ok b
  | none => .error (.fault .numericFault)

/-- The bytes written back for one entry of EBUF (41_quantizer.md R117). -/
def writeBackPixel (c : Rgb64) : Exec Rgb :=
  match channelByte c.r with
  | .error e => .error e
  | .ok r =>
    match channelByte c.g with
    | .error e => .error e
    | .ok g =>
      match channelByte c.b with
      | .error e => .error e
      | .ok b => .ok ⟨r, g, b⟩

/-- DitherQuantize: seed from the input (R114), scan (R115, R116), write back (R117). -/
def ditherQuantize (p : Palette) (w h : Nat) (gain : F64) (m : Memory) : Exec Memory :=
  match collect (adjustedPixel m gain) (List.range (w * h)) with
  | .error e => .error e
  | .ok seeds =>
    match ditherScan p w h (rasterOrder w h) seeds with
    | .error e => .error e
    | .ok buf =>
      match collect writeBackPixel buf with
      | .error e => .error e
      | .ok cs => .ok (writePixels m 0 cs)

/-! ### The command -/

/-- The body of QUANT after its checks: flat or dithered by CONFIG.DITHER (41_quantizer.md R112, 45_convert.md R171). -/
def quantizeBody (w h : Nat) (gain : F64) (s : State) : Exec State :=
  match (if s.dither then ditherQuantize s.params.palette w h gain s.pix
         else flatQuantize s.params.palette w h gain s.pix) with
  | .error e => .error e
  | .ok m => .ok { s with pix := m }

/-- `Execute` of QUANT (41_quantizer.md R112). -/
def quantBody (s : State) : Exec State :=
  if s.badDimensions then raise .invalidDimensions
  else if !gainOk s.gain then raise .badGain
  else quantizeBody s.imageWidth s.imageHeight s.gain s

/-- QUANT (41_quantizer.md R112). -/
def execQuant (s : State) : Host.Outcome State Fault Refusal := complete s (quantBody s)

end Sys2Proof.Machine
end

