-- ==== Sys2Proof/Machine/Packer.lean ====
section
/-!
DEFINITION. The pixel packer (43_packer.md): rotation (R141), reversed scan (R142), pixel codes (R144), two nibbles a
byte (R145, 30_encoding.md R92), PACK (R140).
-/

namespace Sys2Proof.Machine

/-- `Src(ox, oy, rot)`: the source position an output position samples (43_packer.md R141). -/
def sourceOf (w h : Nat) (rot : Bool) (ox oy : Nat) : Nat × Nat :=
  if rot then (w - 1 - ox, h - 1 - oy) else (ox, oy)

/-- The output positions `(ox, oy)` in the reversed scan order: rows bottom to top, columns right to left
(43_packer.md R142). -/
def reversedScan (w h : Nat) : List (Nat × Nat) :=
  (List.range h).reverse.flatMap fun oy => (List.range w).reverse.map fun ox => (ox, oy)

/-- `PixCode(n)`: no tone gain, no alpha (43_packer.md R144). -/
def pixelCode (p : Palette) (m : Memory) (n : Nat) : Exec Nibble :=
  match readPixel m n with
  | .error h => .error h
  | .ok c =>
    match nearest p (colourF64 c) with
    | .error h => .error h
    | .ok i => .ok (codeAt i)

/-- The code the packer emits at one output position. -/
def scanCode (p : Palette) (m : Memory) (w h : Nat) (rot : Bool) (o : Nat × Nat) : Exec Nibble :=
  let src := sourceOf w h rot o.1 o.2
  pixelCode p m (src.2 * w + src.1)

/-- Nibbles two a byte, high nibble first; a last lone nibble is the high one over a zero (30_encoding.md R92,
43_packer.md R145). -/
def packNibbles : List Nibble → List Byte
  | [] => []
  | [a] => [a ++ 0#4]
  | a :: b :: rest => (a ++ b) :: packNibbles rest

/-- The body of PACK after its checks (43_packer.md R140). -/
def packImage (w h : Nat) (s : State) : Exec State :=
  match collect (scanCode s.params.palette s.pix w h s.rot180) (reversedScan w h) with
  | .error e => .error e
  | .ok codes =>
    .ok { s with
      pk := writeBytes s.pk 0 (packNibbles codes)
      regs := { s.regs with pkLen := BitVec.ofNat 32 ((w * h + 1) / 2) } }

/-- `Execute` of PACK (43_packer.md R140). -/
def packBody (s : State) : Exec State :=
  if s.badDimensions then raise .invalidDimensions
  else packImage s.imageWidth s.imageHeight s

/-- PACK (43_packer.md R140). -/
def execPack (s : State) : Host.Outcome State Fault Refusal := complete s (packBody s)

end Sys2Proof.Machine
end

