-- ==== Sys2Proof/Machine/Rle.lean ====
section
/-!
DEFINITION. The run-length nibble codec (44_rle.md): expansion (R150), encoder (R151), RLE_ENC (R152), RLE_DEC (R154),
Reconstruct (R155). The stream layout is 30_encoding.md R93 to R95.
-/

namespace Sys2Proof.Machine

/-- A run-length record: `run` copies of one nibble (30_encoding.md R94). -/
structure RunRecord where
  run : Nat
  val : Nibble
deriving DecidableEq, Repr

/-- The magic `53 50 36 52` (30_encoding.md R93). -/
def rleMagic : List Byte := [0x53, 0x50, 0x36, 0x52]

/-- The nibbles of a byte string, high nibble of each byte first (44_rle.md R150). -/
def nibblesOf (bs : List Byte) : List Nibble :=
  bs.flatMap fun b => [b.extractLsb' 4 4, b.extractLsb' 0 4]

/-- The greedy run loop: `r` copies of `v` are open; the run closes at another value or at 255 (44_rle.md R151). -/
def runsFrom (v : Nibble) (r : Nat) : List Nibble → List RunRecord
  | [] => [⟨r, v⟩]
  | x :: xs => if x = v ∧ r < 255 then runsFrom v (r + 1) xs else ⟨r, v⟩ :: runsFrom x 1 xs

/-- The records of a nibble sequence (44_rle.md R151). -/
def runsOf : List Nibble → List RunRecord
  | [] => []
  | x :: xs => runsFrom x 1 xs

/-- A record's two bytes: run, then value with bits 7:4 zero (30_encoding.md R93). -/
def RunRecord.bytes (r : RunRecord) : List Byte := [BitVec.ofNat 8 r.run, 0#4 ++ r.val]

/-- `Encode(P)` (44_rle.md R151). -/
def rleEncode (bs : List Byte) : List Byte :=
  rleMagic ++ leBytes 4 (BitVec.ofNat 32 bs.length) ++ (runsOf (nibblesOf bs)).flatMap RunRecord.bytes

/-- The body of RLE_ENC after its check: encode PK[0 .. PK_LEN-1] into RL (44_rle.md R152, 45_convert.md R171). -/
def encodePacked (s : State) : Exec State :=
  match readBytes s.pk 0 (s.regs.read .pkLen).toNat with
  | .error h => .error h
  | .ok bs =>
    .ok { s with
      rl := writeBytes s.rl 0 (rleEncode bs)
      regs := { s.regs with rlLen := lengthWord (rleEncode bs).length } }

/-- `Execute` of RLE_ENC (44_rle.md R152). -/
def rleEncBody (s : State) : Exec State :=
  if (s.regs.read .pkLen).toNat > s.params.pkCap then raise .capacity
  else encodePacked s

/-- Record j of the stream in RL: both bytes are read, then the record is checked (44_rle.md R154). -/
def readRecord (rl : Memory) (j : Nat) : Exec RunRecord :=
  match readByte rl (8 + 2 * j) with
  | .error h => .error h
  | .ok run =>
    match readByte rl (9 + 2 * j) with
    | .error h => .error h
    | .ok val => if recordWf run val then .ok ⟨run.toNat, val.extractLsb' 0 4⟩ else raise .rleBadRecord

/-- The checks of RLE_DEC in their order, giving the count L and the records (44_rle.md R154). -/
def decodeStream (p : Params) (rl : Memory) (n : Nat) : Exec (Nat × List RunRecord) :=
  if n > p.rlCap then raise .capacity
  else if n < 8 then raise .rleBadLength
  else
    match readBytes rl 0 4 with
    | .error h => .error h
    | .ok magic =>
      if magic ≠ rleMagic then raise .rleBadMagic
      else
        match readBytes rl 4 4 with
        | .error h => .error h
        | .ok countBytes =>
          if leNat countBytes > p.pkCap then raise .capacity
          else if (n - 8) % 2 = 1 then raise .rleBadLength
          else
            match collect (readRecord rl) (List.range ((n - 8) / 2)) with
            | .error h => .error h
            | .ok records =>
              if (records.map RunRecord.run).sum ≠ 2 * leNat countBytes then raise .rleBadLength
              else .ok (leNat countBytes, records)

/-- The nibbles the records stand for, in record order (44_rle.md R155). -/
def expandRuns (records : List RunRecord) : List Nibble :=
  records.flatMap fun r => List.replicate r.run r.val

/-- `Execute` of RLE_DEC: the checks (44_rle.md R154), then Reconstruct (R155). -/
def rleDecBody (s : State) : Exec State :=
  match decodeStream s.params s.rl (s.regs.read .rlLen).toNat with
  | .error h => .error h
  | .ok (count, records) =>
    .ok { s with
      pk := writeBytes s.pk 0 (packNibbles (expandRuns records))
      regs := { s.regs with pkLen := BitVec.ofNat 32 count } }

/-- RLE_ENC (44_rle.md R152). -/
def execRleEnc (s : State) : Host.Outcome State Fault Refusal := complete s (rleEncBody s)

/-- RLE_DEC (44_rle.md R154). -/
def execRleDec (s : State) : Host.Outcome State Fault Refusal := complete s (rleDecBody s)

end Sys2Proof.Machine
end

