-- ==== Sys2Proof/Machine/Convert.lean ====
section
/-!
DEFINITION. The whole pipeline (45_convert.md): the stage order (R171) and CONVERT (R170).
-/

namespace Sys2Proof.Machine

/-- `Pipeline(w, h, gain)`: quantize, mask if CONFIG.MASK, pack, encode, each as its own command's body
(45_convert.md R171). -/
def pipeline (w h : Nat) (gain : F64) (s : State) : Exec State :=
  match quantizeBody w h gain s with
  | .error e => .error e
  | .ok quantized =>
    match packImage w h (if quantized.maskEnabled then maskImage w h quantized else quantized) with
    | .error e => .error e
    | .ok packed => encodePacked packed

/-- `Execute` of CONVERT (45_convert.md R170). -/
def convertBody (s : State) : Exec State :=
  if s.notPanelSized then raise .invalidDimensions
  else if !gainOk s.gain then raise .badGain
  else pipeline s.imageWidth s.imageHeight s.gain s

/-- CONVERT (45_convert.md R170). -/
def execConvert (s : State) : Host.Outcome State Fault Refusal := complete s (convertBody s)

end Sys2Proof.Machine
end

