-- ==== Sys2Proof/Machine/Dispatch.lean ====
section
/-!
DEFINITION. The completing block step of each command (10_state.md R42, 30_encoding.md R81): one arm per constructor.
-/

namespace Sys2Proof.Machine

open Sys2Proof

/-- The step that completes command `i` (10_state.md R42). `step` runs it only while BUSY = 1. -/
def exec (i : Instr) (s : State) : Host.Outcome State Fault Refusal :=
  match i with
  | .nop => Sys2Proof.Machine.execNop s
  | .lookup => Sys2Proof.Machine.execLookup s
  | .quant => Sys2Proof.Machine.execQuant s
  | .mask => Sys2Proof.Machine.execMask s
  | .pack => Sys2Proof.Machine.execPack s
  | .rleEnc => Sys2Proof.Machine.execRleEnc s
  | .rleDec => Sys2Proof.Machine.execRleDec s
  | .convert => Sys2Proof.Machine.execConvert s

end Sys2Proof.Machine
end

