-- ==== Sys2Proof/Machine/HostAccess.lean ====
section
/-!
DEFINITION. Host accesses (20_memory.md R60 to R67, R74; 70_reset_and_hazards.md R203, R209): which are legal, what each
does, and what a read returns.
-/

namespace Sys2Proof.Machine

/-- Whether an access of `width` bytes at `offset` of a space is one the space has: REG by an aligned 32-bit access,
the memories by a naturally aligned access of 1, 2 or 4 bytes inside the space (20_memory.md R62, R63). -/
def accessLegal (p : Params) (space : Space) (offset width : Nat) : Bool :=
  match space with
  | .reg => decide (width = 4 ∧ offset % 4 = 0 ∧ offset < 256)
  | other => decide ((width = 1 ∨ width = 2 ∨ width = 4) ∧ offset % width = 0 ∧ offset + width ≤ other.size p)

/-- The read of STATUS: the one access the host may make while BUSY = 1 (70_reset_and_hazards.md R203). -/
def isStatusRead (space : Space) (offset width : Nat) : Bool :=
  decide (space = .reg ∧ offset = Reg.offset .status ∧ width = 4)

/-- Whether bus address `a` lies in the window of a space. -/
def Space.holds (p : Params) (space : Space) (a : Nat) : Bool :=
  decide (space.base p ≤ a ∧ a < space.base p + space.size p)

/-- Where a host address leads; `none` outside the four windows: it "does not reach the block" (20_memory.md R67). An access
is placed by the address of its first byte alone. DESIGN CHOICE where that byte lies below a window and a later one inside
it: such an access does not reach the block (log entry 16). -/
def resolve (p : Params) : HostAddr → Option (Space × Nat)
  | .at space offset => some (space, offset)
  | .bus a =>
    match [Space.reg, Space.pix, Space.pk, Space.rl].find? fun space => space.holds p a with
    | some space => some (space, a - space.base p)
    | none => none

/-- Record HostHazard in the fault set (60_exceptions.md R186). -/
def State.recordHazard (s : State) : State :=
  { s with host := { s.host with faults := { s.host.faults with hostHazard := true } } }

/-- Record HostMisuse in the fault set (60_exceptions.md R186). -/
def State.recordMisuse (s : State) : State :=
  { s with host := { s.host with faults := { s.host.faults with hostMisuse := true } } }

/-- Record what is wrong with an access that is refused: a hazard where BUSY = 1, a misuse where the access is one
the space does not have. The access has no effect on the block (60_exceptions.md R186). -/
def State.recordRefused (s : State) (legal : Bool) : State :=
  let s := if s.busy then s.recordHazard else s
  if legal then s else s.recordMisuse

/-- What a register access at a byte offset reads: a reserved offset reads 0 (10_state.md R22). -/
def Regs.readAt (g : Regs) (offset : Nat) : Word :=
  match Reg.ofOffset offset with
  | some r => g.read r
  | none => 0#32

/-- The byte a host read gives for address `a`: the written byte, or draw number `d` (93_implementation_defined.md I6). -/
def hostByte (m : Memory) (a d : Nat) : Byte :=
  match m.get a with
  | some v => v
  | none => Config.freeByte d

/-- The bytes of a host read of `width` bytes at `a`; byte number i may use draw number `d + i`. -/
def hostBytes (m : Memory) (a width d : Nat) : List Byte :=
  (List.range width).map fun i => hostByte m (a + i) (d + i)

/-- Note what a host read returned. -/
def State.noteRead (s : State) (r : HostRead) : State :=
  { s with host := { s.host with reads := s.host.reads ++ [r] } }

/-- A legal host read (20_memory.md R62, R63, R74). It changes nothing of the block (R65); an unwritten byte stays
unwritten. -/
def State.performRead (s : State) (space : Space) (offset width : Nat) (expect : Option Word) : State :=
  match space with
  | .reg => s.noteRead ⟨.reg, offset, width, s.regs.readAt offset, expect⟩
  | other =>
    let value := BitVec.ofNat 32 (leNat (hostBytes (s.memory other) offset width s.host.draws))
    let s := s.noteRead ⟨other, offset, width, value, expect⟩
    { s with host := { s.host with draws := s.host.draws + width } }

/-- A legal host write (20_memory.md R62, R63, R74). A write of CMD starts a command (10_state.md R42); a reserved
offset ignores it (R22). -/
def State.performWrite (s : State) (space : Space) (offset width : Nat) (data : Word) : State :=
  match space with
  | .reg =>
    match Reg.ofOffset offset with
    | some .cmd => s.startCommand data
    | some r => { s with regs := s.regs.write r data }
    | none => s
  | other => s.setMemory other (writeBytes (s.memory other) offset (leBytes width data))

/-- A host read: performed where it is legal and either BUSY = 0 or it reads STATUS, otherwise recorded and without
effect (20_memory.md R62, R63; 70_reset_and_hazards.md R203). -/
def State.hostRead (s : State) (address : HostAddr) (width : Nat) (expect : Option Word) : State :=
  match resolve s.params address with
  | none => s
  | some (space, offset) =>
    let legal := accessLegal s.params space offset width
    if legal && (!s.busy || isStatusRead space offset width) then s.performRead space offset width expect
    else s.recordRefused legal

/-- A host write: performed where it is legal and BUSY = 0, otherwise recorded and without effect. -/
def State.hostWrite (s : State) (address : HostAddr) (width : Nat) (data : Word) : State :=
  match resolve s.params address with
  | none => s
  | some (space, offset) =>
    let legal := accessLegal s.params space offset width
    if legal && !s.busy then s.performWrite space offset width data
    else s.recordRefused legal

end Sys2Proof.Machine
end

