-- ==== Sys2Proof/Machine/Sequencer.lean ====
section
/-!
DEFINITION. Who moves next, and the two agents' moves (10_state.md R20, R42; 70_reset_and_hazards.md R200, R207).
-/

namespace Sys2Proof.Machine

/-- The block's step: "enabled iff BUSY = 1" (10_state.md R42). An illegal PENDING_OPC raises BAD_OPCODE before any
operand is read (30_encoding.md R82, 60_exceptions.md R182). -/
def blockStep (s : State) : Host.Outcome State Fault Refusal :=
  match decode s.pendingOpc with
  | .ok i => exec i s
  | .error _ => .next (completeWithError s .badOpcode)

/-- One access of the host's script, the script already shortened by it. `WAIT` reads STATUS and stays in the script
while BUSY = 1 (30_encoding.md R87). Reset is allowed at any time (70_reset_and_hazards.md R200). -/
def hostOp (s : State) : HostOp → State
  | .read address width expect => s.hostRead address width expect
  | .write address width data => s.hostWrite address width data
  | .wait =>
    let s' := s.performRead .reg (Reg.offset .status) 4 none
    if s.busy then { s' with host := { s'.host with script := .wait :: s'.host.script } } else s'
  | .reset => s.blockReset

/-- The host's step: its next access. A host with nothing left to do leaves the machine as it is. -/
def hostStep (s : State) : State :=
  match s.host.script with
  | [] => s
  | op :: rest => hostOp { s with host := { s.host with script := rest } } op

/-- Whether the block moves next: it can only while BUSY = 1, and then it does unless the host has an access to make
and the choice list gives it the turn (70_reset_and_hazards.md R207; log entry 4). -/
def State.blockMoves (s : State) : Bool :=
  s.busy && (s.host.script.isEmpty || s.host.sched.head? != some .host)

/-- The state with one choice used up. -/
def State.takeTurn (s : State) : State :=
  { s with host := { s.host with sched := s.host.sched.tail } }

/-- One step of the machine: the block's, or the host's, or, where neither has anything to do, none: the block is
idle and everything persists (60_exceptions.md R192). -/
def machineStep (s : State) : Host.Outcome State Fault Refusal :=
  if s.blockMoves then blockStep s.takeTurn
  else if s.host.script.isEmpty then .next s
  else .next (hostStep s.takeTurn)

/-- The state in which word `w` has just been written to CMD and the block has the next turn (10_state.md R42). -/
def State.pendWord (s : State) (w : Word) : State :=
  let s := s.startCommand w
  { s with host := { s.host with sched := .block :: s.host.sched } }

end Sys2Proof.Machine
end

