-- ==== Sys2Proof/Machine/Step.lean ====
section
/-!
DEFINITION. One step of the machine, and where an instruction word is placed so that the next step runs it.
-/

namespace Sys2Proof.Machine

/-- One step (10_state.md R20, R42). -/
def step (s : State) : Host.Outcome State Fault Refusal := machineStep s

/-- The state whose next step runs the command word `w` of `nbits` bits: the block fetches nothing (10_state.md R21), and
PENDING_OPC with BUSY = 1 stands where a fetched instruction would (log entry 3). -/
def State.withFetchWord (s : State) (nbits w : Nat) : State := s.pendWord (BitVec.ofNat 32 (w % 2 ^ nbits))

end Sys2Proof.Machine
end

