-- ==== Sys2Proof/Machine/Script.lean ====
section
/-!
DEFINITION. The host-script notation (30_encoding.md R86, R87) and what the host does with the results (45_convert.md R173).
-/

namespace Sys2Proof.Machine

/-- One pixel of a `PIXELS` line. -/
structure PixelBytes where
  r : Byte
  g : Byte
  b : Byte
  a : Byte
deriving DecidableEq, Repr

/-- A line of a host script (30_encoding.md R86, R87). A decimal literal of `GAIN` is `±digits / 10^scale`. -/
inductive ScriptLine where
  /-- `W REG, imm32` -/
  | regWrite (reg : Reg) (imm : Word)
  /-- `R REG` -/
  | regRead (reg : Reg)
  /-- `R REG == imm32` -/
  | regExpect (reg : Reg) (imm : Word)
  /-- `WB S, a, b0 ... bk` -/
  | putBytes (space : Space) (a : Nat) (bytes : List Byte)
  /-- `RB S, a, k` -/
  | getBytes (space : Space) (a k : Nat)
  /-- `CMD m` -/
  | cmd (m : Instr)
  /-- `WAIT` -/
  | wait
  /-- `RUN m` -/
  | run (m : Instr)
  /-- `DIM w, h` -/
  | dim (w h : Word)
  /-- `GAIN f` -/
  | gain (neg : Bool) (digits scale : Nat)
  /-- `CFG d, m, r` -/
  | cfg (d m r : Bool)
  /-- `PIXELS n, (r,g,b,a) ...` -/
  | pixels (n : Nat) (ps : List PixelBytes)
  /-- `CHECK e` -/
  | checkErr (e : BitVec 4)
deriving DecidableEq, Repr

/-- A 32-bit write of a register (30_encoding.md R86). -/
def writeReg (r : Reg) (v : Word) : HostOp := .write (.at .reg r.offset) 4 v

/-- A 32-bit read of a register (30_encoding.md R86). -/
def readReg (r : Reg) (expect : Option Word) : HostOp := .read (.at .reg r.offset) 4 expect

/-- Byte writes at `a`, `a + 1`, and so on (30_encoding.md R86). -/
def byteWrites (space : Space) (a : Nat) : List Byte → List HostOp
  | [] => []
  | b :: bs => .write (.at space a) 1 (b.zeroExtend 32) :: byteWrites space (a + 1) bs

/-- The binary64 pattern of a decimal literal, rounded to nearest even (30_encoding.md R87). -/
def gainLiteral (neg : Bool) (digits scale : Nat) : Option (BitVec 64) :=
  F64.toBits (F64.round neg (F64.unit * digits) (10 ^ scale))

/-- The host's accesses for one line (30_encoding.md R86, R87). Offsets name the space; `HostAddr.bus` reaches the same
place through the base address (log entry 6). -/
def ScriptLine.expand : ScriptLine → List HostOp
  | .regWrite reg imm => [writeReg reg imm]
  | .regRead reg => [readReg reg none]
  | .regExpect reg imm => [readReg reg (some imm)]
  | .putBytes space a bytes => byteWrites space a bytes
  | .getBytes space a k => (List.range k).map fun i => .read (.at space (a + i)) 1 none
  | .cmd m => [writeReg .cmd (encode m)]
  | .wait => [.wait]
  | .run m => [writeReg .cmd (encode m), .wait]
  | .dim w h => [writeReg .width w, writeReg .height h]
  | .gain neg digits scale =>
    match gainLiteral neg digits scale with
    | some b => [writeReg .gainLo (b.extractLsb' 0 32), writeReg .gainHi (b.extractLsb' 32 32)]
    | none => []
  | .cfg d m r => [writeReg .config (0#29 ++ BitVec.ofBool r ++ BitVec.ofBool m ++ BitVec.ofBool d)]
  | .pixels n ps => byteWrites .pix (4 * n) (ps.flatMap fun p => [p.r, p.g, p.b, p.a])
  | .checkErr e => [readReg .status (some (statusWord false true e))]

/-- The machine whose host is about to run a script. -/
def State.withScript (s : State) (lines : List ScriptLine) : State :=
  { s with host := { s.host with script := lines.flatMap ScriptLine.expand } }

/-- The host's choice without an entropy candidate: the RLE stream when RL_LEN < PK_LEN, otherwise the raw bitstream
(45_convert.md R173, informative). -/
def hostSelectsRle (s : State) : Bool := decide ((s.regs.read .rlLen).toNat < (s.regs.read .pkLen).toNat)

end Sys2Proof.Machine
end

