-- ==== Sys2Proof/Safety.lean ====
section
/-!
DEFINITION. What counts as a finished run (70_reset_and_hazards.md R210), and the invariant of the machine's states.
-/

namespace Sys2Proof.Machine

/-- No model fault is recorded (60_exceptions.md R186). -/
def State.noFault (s : State) : Bool := !s.host.faults.hostHazard && !s.host.faults.hostMisuse

/-- A host program's run is over (70_reset_and_hazards.md R210). -/
def State.runOver (s : State) : Bool := s.host.script.isEmpty && !s.busy && s.noFault

/-- Every value a script line asserted is the value its read returned (30_encoding.md R86). -/
def State.assertionsHold (s : State) : Bool :=
  s.host.reads.all fun r => r.expect.isNone || r.expect == some r.value

/-- The bits of every register that read as zero are zero (10_state.md R22). -/
def Regs.reservedZero (g : Regs) : Bool :=
  g.status &&& Reg.fieldMask .status == g.status &&
  g.config &&& Reg.fieldMask .config == g.config &&
  g.width &&& Reg.fieldMask .width == g.width &&
  g.height &&& Reg.fieldMask .height == g.height &&
  g.color &&& Reg.fieldMask .color == g.color &&
  g.result &&& Reg.fieldMask .result == g.result

/-- STATUS shows one of the states of the command lifecycle: idle since reset, running (then DONE and ERR are 0), or
completed with a code of 60_exceptions.md R180 (10_state.md R24 to R26, R42). -/
def Regs.statusLegal (g : Regs) : Bool :=
  decide (g.status = 0#32 ∨ g.status = 1#32 ∨
    (g.status &&& 0xFFFFFF8F#32 = 2#32))

/-- RESULT is 0, or a palette position with its own code (10_state.md R35). -/
def Regs.resultLegal (g : Regs) : Bool :=
  [0x000#32, 0x101#32, 0x202#32, 0x303#32, 0x405#32, 0x506#32].contains g.result

/-- The machine's invariant: legal parameters, memories in canonical form and inside their spaces, reserved bits zero,
a legal STATUS and RESULT. -/
def State.Inv (s : State) : Prop :=
  s.params.wf = true ∧
  s.pix.wf = true ∧ s.pix.within s.params.pixCap = true ∧
  s.pk.wf = true ∧ s.pk.within s.params.pkCap = true ∧
  s.rl.wf = true ∧ s.rl.within s.params.rlCap = true ∧
  s.regs.reservedZero = true ∧ s.regs.statusLegal = true ∧ s.regs.resultLegal = true

end Sys2Proof.Machine
end

