-- ==== Sys2Proof/Certificates/Slice0/Obligations.lean ====
section
/-!
DEFINITION. The statements about the machine, from the numbered rules of spec/. `Sys2Proof.Spec` holds what they are
said with: the spec's own conditions and formulas, written apart from the model's definitions.
-/

namespace Sys2Proof.Spec

open Sys2Proof.Machine

/-- `s` with STATUS holding `v` and everything else as it is. -/
def withStatus (s : State) (v : Word) : State := { s with regs := { s.regs with status := v } }

/-- `(a - b)^2` of two channels, in integers. -/
def squaredDiff (a b : Byte) : Nat := ((a.toNat : Int) - b.toNat).natAbs * ((a.toNat : Int) - b.toNat).natAbs

/-- The squared distance of two integer colours (40_palette.md R100). -/
def squaredDist (c p : Rgb) : Nat := squaredDiff c.r p.r + squaredDiff c.g p.g + squaredDiff c.b p.b

/-- Position `i` is at least distance from `c`, and the lowest such position (40_palette.md R101). -/
def IsNearest (p : Palette) (c : Rgb) (i : Fin 6) : Prop :=
  ∀ j : Fin 6, squaredDist c (paletteAt p i) ≤ squaredDist c (paletteAt p j) ∧
    (j < i → squaredDist c (paletteAt p i) < squaredDist c (paletteAt p j))

/-- R, G and B of pixel `n` are written and are those of `c` (30_encoding.md R90). -/
def PixelIs (m : Memory) (n : Nat) (c : Rgb) : Prop :=
  m.get (4 * n) = some c.r ∧ m.get (4 * n + 1) = some c.g ∧ m.get (4 * n + 2) = some c.b

/-- The channel of a colour at byte offset 0, 1 or 2 of its pixel (30_encoding.md R90). -/
def channel (c : Rgb) (k : Nat) : Byte := if k = 0 then c.r else if k = 1 then c.g else c.b

/-- QUANT, MASK and PACK accept these dimensions (60_exceptions.md R180). -/
def LegalDims (s : State) : Prop :=
  0 < s.imageWidth ∧ 0 < s.imageHeight ∧ s.imageWidth * s.imageHeight ≤ s.params.maxPixels

/-- A gain pattern that is finite and not negative, either zero included (41_quantizer.md R111, 30_encoding.md R84). -/
def LegalGain (b : BitVec 64) : Prop :=
  b.extractLsb' 52 11 ≠ 0x7FF#11 ∧ (b.getLsbD 63 = false ∨ b.extractLsb' 0 63 = 0#63)

/-- The number of pixels. -/
def pixelCount (s : State) : Nat := s.imageWidth * s.imageHeight

/-- The two memories agree but for alpha bytes. -/
def SameButAlpha (m n : Memory) : Prop := ∀ a, a % 4 ≠ 3 → m.get a = n.get a

/-- Two outcomes of the same kind that agree but for alpha bytes of PIX. -/
def AgreeButAlpha : Host.Outcome State Fault Refusal → Host.Outcome State Fault Refusal → Prop
  | .next t, .next u => u = { t with pix := u.pix } ∧ SameButAlpha t.pix u.pix
  | .fault f, .fault g => f = g
  | _, _ => False

/-- Go on with `f` after a next state. -/
def andThen (o : Host.Outcome State Fault Refusal) (f : State → Host.Outcome State Fault Refusal) :
    Host.Outcome State Fault Refusal :=
  match o with
  | .next t => f t
  | .fault x => .fault x
  | .refused x => .refused x

/-- `k` steps of the machine, stopping at the first fault or refusal. -/
def runSteps : Nat → State → Host.Outcome State Fault Refusal
  | 0, s => .next s
  | k + 1, s => andThen (step s) (runSteps k)

/-- The error codes a command's own checks can report (60_exceptions.md R181; code 1 comes from the word alone). -/
def codesOf : Instr → List (BitVec 4)
  | .nop => [0]
  | .lookup => [0]
  | .quant => [0, 2, 3]
  | .mask => [0, 2]
  | .pack => [0, 2]
  | .rleEnc => [0, 4]
  | .rleDec => [0, 4, 5, 6, 7]
  | .convert => [0, 2, 3]

/-- The test of the mask, times 4, in integers (42_mask.md R130). -/
def Outside (w h x y : Nat) : Prop :=
  (2 * (x : Int) - w + 1) * (2 * (x : Int) - w + 1) + (2 * (y : Int) - h + 1) * (2 * (y : Int) - h + 1) > (w : Int) * w

/-- One contribution of weight `k`/16 on all three channels (41_quantizer.md R116). -/
def contribute (k : Nat) (c err : Rgb64) : Rgb64 :=
  ⟨F64.add c.r (F64.div (F64.mul err.r (F64.ofNat k)) (F64.ofNat 16)),
   F64.add c.g (F64.div (F64.mul err.g (F64.ofNat k)) (F64.ofNat 16)),
   F64.add c.b (F64.div (F64.mul err.b (F64.ofNat k)) (F64.ofNat 16))⟩

/-- What the pixel at (x, y) holds when the scan reaches it, from its seed and the errors `e` of its four source
pixels, in the order of 41_quantizer.md R119, each only where that source pixel exists. -/
def accumulated (w : Nat) (seed : Rgb64) (e : Nat → Nat → Rgb64) (x y : Nat) : Rgb64 :=
  let c := if 1 ≤ x ∧ 1 ≤ y then contribute 1 seed (e (x - 1) (y - 1)) else seed
  let c := if 1 ≤ y then contribute 5 c (e x (y - 1)) else c
  let c := if x + 1 < w ∧ 1 ≤ y then contribute 3 c (e (x + 1) (y - 1)) else c
  if 1 ≤ x then contribute 7 c (e (x - 1) y) else c

/-- Nibble `k` of the packed stream of an image of `count` pixels whose codes are `code` (43_packer.md R146). -/
def packedNibble (count : Nat) (rot : Bool) (code : Nat → Nibble) (k : Nat) : Nibble :=
  if k < count then (if rot then code k else code (count - 1 - k)) else 0

/-- The header count of an RLE stream, little-endian at bytes 4 to 7 (30_encoding.md R93). -/
def headerCount (bs : List Byte) : Nat :=
  (bs.getD 4 0).toNat + 256 * (bs.getD 5 0).toNat + 65536 * (bs.getD 6 0).toNat + 16777216 * (bs.getD 7 0).toNat

/-- The (run, value) byte pairs of a stream's body (30_encoding.md R93). -/
def recordPairs : List Byte → List (Byte × Byte)
  | run :: val :: rest => (run, val) :: recordPairs rest
  | _ => []

/-- The sum of the runs. -/
def runSum (rs : List (Byte × Byte)) : Nat := (rs.map fun r => r.1.toNat).sum

/-- The nibbles the records stand for. -/
def pairNibbles (rs : List (Byte × Byte)) : List Nibble :=
  rs.flatMap fun r => List.replicate r.1.toNat (r.2.extractLsb' 0 4)

/-- The STATUS word RLE_DEC leaves for a wholly written stream of at least 8 and at most RL_CAP bytes
(44_rle.md R154, 60_exceptions.md R182). -/
def streamStatus (pkCap : Nat) (bs : List Byte) : Word :=
  if bs.take 4 ≠ [0x53#8, 0x50#8, 0x36#8, 0x52#8] then 0x52#32
  else if headerCount bs > pkCap then 0x42#32
  else if bs.length % 2 = 1 then 0x62#32
  else if (recordPairs (bs.drop 8)).any (fun r => r.1 == 0#8 || decide (r.2.toNat > 0x0F)) then 0x72#32
  else if runSum (recordPairs (bs.drop 8)) ≠ 2 * headerCount bs then 0x62#32
  else 0x02#32

/-- RL begins with the magic (30_encoding.md R93). -/
def HasMagic (rl : Memory) : Prop :=
  rl.get 0 = some 0x53#8 ∧ rl.get 1 = some 0x50#8 ∧ rl.get 2 = some 0x36#8 ∧ rl.get 3 = some 0x52#8

/-- The header count in RL bytes 4 to 7 is written and is `count` (30_encoding.md R93). -/
def HasCount (rl : Memory) (count : Nat) : Prop :=
  ∃ b4 b5 b6 b7 : Byte, rl.get 4 = some b4 ∧ rl.get 5 = some b5 ∧ rl.get 6 = some b6 ∧ rl.get 7 = some b7 ∧
    count = b4.toNat + 256 * b5.toNat + 65536 * b6.toNat + 16777216 * b7.toNat

/-- Both bytes of record `j` in RL are written, and are `q.1` (the run) and `q.2` (the value) (30_encoding.md R93). -/
def RecordIs (rl : Memory) (j : Nat) (q : Byte × Byte) : Prop :=
  rl.get (8 + 2 * j) = some q.1 ∧ rl.get (9 + 2 * j) = some q.2

/-- A record RLE_DEC accepts (44_rle.md R154). -/
def GoodRecord (q : Byte × Byte) : Prop := q.1 ≠ 0#8 ∧ q.2.toNat ≤ 0x0F

/-- Every record of RL before number `j` is written, accepted, and given by `q`. -/
def RecordsBefore (rl : Memory) (j : Nat) (q : Nat → Byte × Byte) : Prop :=
  ∀ i, i < j → RecordIs rl i (q i) ∧ GoodRecord (q i)

/-- The adjusted colour for a legal gain: the gain on green alone, which is capped at 255; red and blue are the integers
themselves (41_quantizer.md R110). -/
def adjusted (gain : F64) (c : Rgb) : Rgb64 :=
  ⟨F64.ofNat c.r.toNat,
   if F64.lt (F64.ofNat 255) (F64.mul (F64.ofNat c.g.toNat) gain) then F64.ofNat 255
   else F64.mul (F64.ofNat c.g.toNat) gain,
   F64.ofNat c.b.toNat⟩

/-- `dist` written out (40_palette.md R100). -/
def distance (c : Rgb64) (p : Rgb) : F64 :=
  F64.add
    (F64.add (F64.mul (F64.sub c.r (F64.ofNat p.r.toNat)) (F64.sub c.r (F64.ofNat p.r.toNat)))
      (F64.mul (F64.sub c.g (F64.ofNat p.g.toNat)) (F64.sub c.g (F64.ofNat p.g.toNat))))
    (F64.mul (F64.sub c.b (F64.ofNat p.b.toNat)) (F64.sub c.b (F64.ofNat p.b.toNat)))

/-- A finite binary64 value's signed number of units of 2^-1074. -/
def units (neg : Bool) (mag : Nat) : Int := if neg then -(mag : Int) else (mag : Int)

/-- A magnitude of at most 53 significant bits, in units. -/
def Short (m : Nat) : Prop := 2 ^ (Nat.log2 m - 52) ∣ m

/-- The last of the 53 significant bits of a magnitude is 0. -/
def EvenLast (m : Nat) : Prop := 2 ^ (Nat.log2 m - 52 + 1) ∣ m

/-- The distance of a magnitude from `num / den`, times `den`. -/
def offBy (m num den : Nat) : Nat := ((m : Int) * den - num).natAbs

/-- A rounded magnitude with its sign; 2^1024 and above is infinite. -/
def signedResult (neg : Bool) (mag : Nat) : F64 := if mag < pow2 2098 then .fin neg mag else .inf neg

/-- The accesses a space has (20_memory.md R62, R63). -/
def LegalAccess (p : Params) (space : Space) (off width : Nat) : Prop :=
  if space = .reg then width = 4 ∧ off % 4 = 0 ∧ off < 256
  else (width = 1 ∨ width = 2 ∨ width = 4) ∧ off % width = 0 ∧ off + width ≤ space.size p

/-- `s` with the fault set marked. -/
def withFaults (s : State) (hazard misuse : Bool) : State := { s with host := { s.host with faults := ⟨hazard, misuse⟩ } }

/-- `s` with `script` left for the host, and one entry of the choice list used up. -/
def afterAccess (s : State) (script : List HostOp) : State :=
  { s with host := { s.host with script := script, sched := s.host.sched.tail } }

/-- `s` with one more host read noted. -/
def withRead (s : State) (r : HostRead) : State := { s with host := { s.host with reads := s.host.reads ++ [r] } }

end Sys2Proof.Spec

open Sys2Proof Sys2Proof.Machine Sys2Proof.Spec

/-! ### Reset, and what every step keeps -/

/-- 10_state.md R39: the reset value of every piece of state. (EBUF and the loop positions, which "do not exist", have
no field in State.) -/
def Obligations.ResetStateValues : Prop :=
  ∀ p : Params, p.wf = true →
    (State.resetOf p).regs.read .cmd = 0#32 ∧
    (State.resetOf p).regs.read .status = 0#32 ∧
    (State.resetOf p).busy = false ∧ (State.resetOf p).done = false ∧ (State.resetOf p).err = 0#4 ∧
    (State.resetOf p).regs.read .config = 0x00000004#32 ∧
    (State.resetOf p).dither = false ∧ (State.resetOf p).maskEnabled = false ∧ (State.resetOf p).rot180 = true ∧
    ((State.resetOf p).regs.read .width).toNat = p.panelSize ∧
    ((State.resetOf p).regs.read .height).toNat = p.panelSize ∧
    (State.resetOf p).regs.read .gainHi = 0x3FF00000#32 ∧ (State.resetOf p).regs.read .gainLo = 0x00000000#32 ∧
    (State.resetOf p).gain = F64.ofNat 1 ∧
    (State.resetOf p).regs.read .pkLen = 0#32 ∧ (State.resetOf p).regs.read .rlLen = 0#32 ∧
    (State.resetOf p).regs.read .color = 0#32 ∧ (State.resetOf p).regs.read .result = 0#32 ∧
    (State.resetOf p).pendingOpc = 0#32 ∧
    ∀ a, (State.resetOf p).pix.get a = none ∧ (State.resetOf p).pk.get a = none ∧ (State.resetOf p).rl.get a = none

/-- 70_reset_and_hazards.md R200, R201: the reset event, from any state in which the host has the turn, BUSY = 1
included, gives the reset state and leaves the fault set (script and turns are the model's: log entries 3 and 4). -/
def Obligations.ResetEventRestoresTheBlock : Prop :=
  ∀ (s : State) (rest : List HostOp), s.host.script = .reset :: rest → s.blockMoves = false →
    ∃ t, step s = .next t ∧ t.regs = (State.resetOf s.params).regs ∧ t.pendingOpc = 0#32 ∧
      (∀ a, t.pix.get a = none ∧ t.pk.get a = none ∧ t.rl.get a = none) ∧
      t.busy = false ∧ t.done = false ∧ t.params = s.params ∧ t.host.faults = s.host.faults ∧ t.host.script = rest

/-- The reset state of every part meets the invariant. -/
def Obligations.ResetMeetsTheMachineInvariant : Prop :=
  (∀ p : Params, p.wf = true → (State.resetOf p).Inv) ∧ State.reset.Inv

/-- Every step keeps the machine's invariant: canonical memories inside their spaces (10_state.md R37, 20_memory.md
R68), reserved register bits zero (R22), STATUS and RESULT among the values their rules give (R24 to R26, R35). -/
def Obligations.StepKeepsTheMachineInvariant : Prop :=
  ∀ s t : State, s.Inv → step s = .next t → t.Inv

/-- 60_exceptions.md R186, 70_reset_and_hazards.md R200, 00_scope.md R6: no step clears a recorded fault or changes a
parameter. -/
def Obligations.StepKeepsFaultsAndParameters : Prop :=
  ∀ s t : State, step s = .next t → t.params = s.params ∧
    (s.host.faults.hostHazard = true → t.host.faults.hostHazard = true) ∧
    (s.host.faults.hostMisuse = true → t.host.faults.hostMisuse = true)

/-! ### Command words -/

/-- 30_encoding.md R81, R82: a word decodes to a command exactly when it is that command's word. -/
def Obligations.DecodeAcceptsExactlyTheEncodings : Prop :=
  ∀ (w : Word) (i : Instr), decode w = .ok i ↔ w = encode i

/-- 30_encoding.md R82: the two illegal cases, each by name, and no other word is illegal. -/
def Obligations.DecodeRejectsByName : Prop :=
  ∀ w : Word, (256 ≤ w.toNat → decode w = .error .nonzeroHighBits) ∧
    (8 ≤ w.toNat → w.toNat < 256 → decode w = .error .reservedOpcode) ∧
    (w.toNat < 8 → ∃ i, decode w = .ok i)

/-- 30_encoding.md R81: words written out from the opcode map. -/
def Obligations.DecodeSampleWords : Prop :=
  decode 0x00000000#32 = .ok .nop ∧ decode 0x00000001#32 = .ok .lookup ∧ decode 0x00000002#32 = .ok .quant ∧
  decode 0x00000003#32 = .ok .mask ∧ decode 0x00000004#32 = .ok .pack ∧ decode 0x00000005#32 = .ok .rleEnc ∧
  decode 0x00000006#32 = .ok .rleDec ∧ decode 0x00000007#32 = .ok .convert

/-! ### The lifecycle -/

/-- 10_state.md R42, R23 to R26: a host write of CMD while BUSY = 0 starts a command. (That the access is the
head of the script is the model's: log entry 3.) -/
def Obligations.CmdWriteStartsTheCommand : Prop :=
  ∀ (s : State) (v : Word) (rest : List HostOp), s.busy = false →
    s.host.script = .write (.at .reg 0x00) 4 v :: rest →
    ∃ t, step s = .next t ∧ t.pendingOpc = v ∧ t.busy = true ∧ t.done = false ∧ t.err = 0#4 ∧
      t.regs = { s.regs with status := 0x00000001#32 } ∧
      t.params = s.params ∧ t.pix = s.pix ∧ t.pk = s.pk ∧ t.rl = s.rl ∧ t.host.faults = s.host.faults ∧
      t.host.reads = s.host.reads ∧ t.host.script = rest

/-- 10_state.md R42: when the block has the turn (whose turn it is: log entry 4) the step is the completing step of the
command PENDING_OPC decodes to, or BAD_OPCODE where it decodes to none; all that is added is that one entry of the choice
list is used up. -/
def Obligations.StepRunsTheDecodedCommand : Prop :=
  ∀ s : State, s.blockMoves = true →
    (∀ i : Instr, decode s.pendingOpc = .ok i →
      step s = exec i { s with host := { s.host with sched := s.host.sched.tail } }) ∧
    (∀ e : DecodeError, decode s.pendingOpc = .error e →
      step s = .next (withStatus { s with host := { s.host with sched := s.host.sched.tail } } 0x00000012#32))

/-- 20_memory.md R69, 60_exceptions.md R192, 30_encoding.md R86, R87, 70_reset_and_hazards.md R200: when the block does not
have the turn the step is the host's next access: a read, a write, `WAIT` (a read of STATUS that stays in the script while
BUSY = 1), or reset; with none left nothing changes (the script and the turns are the model's: log entries 3, 4, 12). -/
def Obligations.StepMakesTheHostAccess : Prop :=
  ∀ s : State, s.blockMoves = false →
    (s.host.script = [] → step s = .next s) ∧
    (∀ a width x rest, s.host.script = .read a width x :: rest →
      step s = .next ((afterAccess s rest).hostRead a width x)) ∧
    (∀ a width v rest, s.host.script = .write a width v :: rest →
      step s = .next ((afterAccess s rest).hostWrite a width v)) ∧
    (∀ rest, s.host.script = .wait :: rest →
      step s = .next (withRead (afterAccess s (if s.busy then .wait :: rest else rest))
        ⟨.reg, 0x04, 4, s.regs.read .status, none⟩)) ∧
    (∀ rest, s.host.script = .reset :: rest →
      step s = .next { State.resetOf s.params with host := (afterAccess s rest).host })

/-- 30_encoding.md R82: every word is one of the eight commands' or illegal (OPC at or above 0x08, or a nonzero bit above
it: together, a word of 8 or more), and an illegal one raises BAD_OPCODE and writes nothing but STATUS. -/
def Obligations.IllegalWordRaisesBadOpcode : Prop :=
  (∀ w : Word, (∃ i, decode w = .ok i) ↔ ¬ ((0x08 ≤ w.toNat % 256) ∨ w.toNat / 256 ≠ 0)) ∧
  ∀ s : State, (0x08 ≤ s.pendingOpc.toNat % 256 ∨ s.pendingOpc.toNat / 256 ≠ 0) →
    blockStep s = .next (withStatus s 0x00000012#32)

/-- 10_state.md R42, 60_exceptions.md R181: a command that completes leaves BUSY 0, DONE 1, and a code it can report. -/
def Obligations.CompletionReportsAListedCode : Prop :=
  ∀ (i : Instr) (s t : State), exec i s = .next t → t.busy = false ∧ t.done = true ∧ t.err ∈ codesOf i

/-- 60_exceptions.md R183: an error leaves everything but STATUS as it was. -/
def Obligations.FailedCommandChangesOnlyStatus : Prop :=
  ∀ (i : Instr) (s t : State), exec i s = .next t → t.err ≠ 0#4 →
    t = withStatus s t.regs.status ∧ t.busy = false ∧ t.done = true

/-- 20_memory.md R64, 10_state.md R40, R27 to R35: what each command leaves unchanged. -/
def Obligations.CommandFrame : Prop :=
  ∀ (i : Instr) (s t : State), exec i s = .next t →
    t.params = s.params ∧ t.host = s.host ∧ t.pendingOpc = s.pendingOpc ∧
    t.regs.config = s.regs.config ∧ t.regs.width = s.regs.width ∧ t.regs.height = s.regs.height ∧
    t.regs.gainLo = s.regs.gainLo ∧ t.regs.gainHi = s.regs.gainHi ∧ t.regs.color = s.regs.color ∧
    (i ≠ .lookup → t.regs.result = s.regs.result) ∧
    (i ≠ .pack → i ≠ .rleDec → i ≠ .convert → t.regs.pkLen = s.regs.pkLen ∧ t.pk = s.pk) ∧
    (i ≠ .rleEnc → i ≠ .convert → t.regs.rlLen = s.regs.rlLen ∧ t.rl = s.rl) ∧
    (i ≠ .quant → i ≠ .mask → i ≠ .convert → t.pix = s.pix)

/-- 41_quantizer.md R120, 42_mask.md R131: no command writes an alpha byte. -/
def Obligations.AlphaNeverWritten : Prop :=
  ∀ (i : Instr) (s t : State) (n : Nat), exec i s = .next t → t.pix.get (4 * n + 3) = s.pix.get (4 * n + 3)

/-- 20_memory.md R64: "The block never reads an alpha byte": two states that differ only there, unwritten alpha bytes
included, have outcomes that differ only there. -/
def Obligations.AlphaNeverRead : Prop :=
  ∀ (i : Instr) (s : State) (m : Memory), SameButAlpha s.pix m →
    AgreeButAlpha (exec i s) (exec i { s with pix := m })

/-! ### NOP and LOOKUP -/

/-- 40_palette.md R104. -/
def Obligations.NopCompletesWithNoEffect : Prop :=
  decode 0x00000000#32 = .ok .nop ∧ ∀ s : State, exec .nop s = .next (withStatus s 0x00000002#32)

/-- 40_palette.md R103, R100, R101: LOOKUP always completes, with the lowest position of least exact squared distance. -/
def Obligations.LookupFindsTheNearestColour : Prop :=
  decode 0x00000001#32 = .ok .lookup ∧ ∀ s : State, ∃ i : Fin 6,
    IsNearest s.params.palette
      ⟨s.regs.color.extractLsb' 0 8, s.regs.color.extractLsb' 8 8, s.regs.color.extractLsb' 16 8⟩ i ∧
    exec .lookup s = .next
      { s with regs := { s.regs with
          result := BitVec.ofNat 32 (256 * i.val + (codeAt i).toNat), status := 0x00000002#32 } }

/-- 40_palette.md R102: a palette colour is nearest to its own position. -/
def Obligations.LookupOfAPaletteColour : Prop :=
  ∀ (s : State) (i : Fin 6), s.params.palette.wf = true → s.colorOperand = paletteAt s.params.palette i →
    exec .lookup s = .next
      { s with regs := { s.regs with
          result := BitVec.ofNat 32 (256 * i.val + (codeAt i).toNat), status := 0x00000002#32 } }

/-! ### binary64 -/

/-- 30_encoding.md R84, 10_state.md R30: every pattern that is not a NaN is the pattern of its value, and the NaNs are
the patterns with exponent 0x7FF and a nonzero fraction. -/
def Obligations.GainPatternRoundTrip : Prop :=
  ∀ b : BitVec 64,
    (F64.ofBits b = .nan ↔ b.extractLsb' 52 11 = 0x7FF#11 ∧ b.extractLsb' 0 52 ≠ 0#52) ∧
    (F64.ofBits b ≠ .nan → F64.toBits (F64.ofBits b) = some b)

/-- 30_encoding.md R84: the table of example gains. -/
def Obligations.GainExamplePatterns : Prop :=
  F64.ofBits (0x3FF00000#32 ++ 0x00000000#32) = F64.ofNat 1 ∧
  F64.ofBits (0x3FE00000#32 ++ 0x00000000#32) = F64.div (F64.ofNat 1) (F64.ofNat 2) ∧
  F64.ofBits (0x40000000#32 ++ 0x00000000#32) = F64.ofNat 2 ∧
  F64.ofBits (0x00000000#32 ++ 0x00000000#32) = F64.ofNat 0 ∧
  F64.ofBits (0x3FF40000#32 ++ 0x00000000#32) = F64.div (F64.ofNat 5) (F64.ofNat 4)

/-- 00_scope.md R11: on finite operands each operation is the exact result, rounded once. The rounded magnitude of
`num / den` has at most 53 significant bits, none such is nearer, and where another is as near its last bit is 0
(roundTiesToEven). Comparisons are those of the values, false for NaN. -/
def Obligations.RoundingIsToNearest : Prop :=
  (∀ num den : Nat, 0 < den → Short (F64.roundMag num den) ∧
    ∀ m : Nat, Short m →
      offBy (F64.roundMag num den) num den ≤ offBy m num den ∧
      (m ≠ F64.roundMag num den → offBy (F64.roundMag num den) num den = offBy m num den →
        EvenLast (F64.roundMag num den))) ∧
  (∀ (a b : Bool) (m n : Nat),
    F64.add (.fin a m) (.fin b n) =
      (if units a m + units b n = 0 then .fin (a && b) 0
       else signedResult (decide (units a m + units b n < 0)) (F64.roundMag (units a m + units b n).natAbs 1)) ∧
    F64.sub (.fin a m) (.fin b n) =
      (if units a m - units b n = 0 then .fin (a && !b) 0
       else signedResult (decide (units a m - units b n < 0)) (F64.roundMag (units a m - units b n).natAbs 1)) ∧
    F64.mul (.fin a m) (.fin b n) = signedResult (a != b) (F64.roundMag (m * n) (pow2 1074)) ∧
    (n ≠ 0 → F64.div (.fin a m) (.fin b n) = signedResult (a != b) (F64.roundMag (pow2 1074 * m) n)) ∧
    (F64.lt (.fin a m) (.fin b n) = true ↔ units a m < units b n)) ∧
  ∀ x : F64, F64.lt .nan x = false ∧ F64.lt x .nan = false

/-- 00_scope.md R11, 40_palette.md R100: the operations are exact on small integers. -/
def Obligations.ArithmeticExactOnSmallIntegers : Prop :=
  ∀ a b : Nat, a ≤ 2 ^ 26 → b ≤ 2 ^ 26 →
    F64.add (F64.ofNat a) (F64.ofNat b) = F64.ofNat (a + b) ∧
    F64.mul (F64.ofNat a) (F64.ofNat b) = F64.ofNat (a * b) ∧
    (b ≤ a → F64.sub (F64.ofNat a) (F64.ofNat b) = F64.ofNat (a - b)) ∧
    (a < b → F64.sub (F64.ofNat a) (F64.ofNat b) = F64.neg (F64.ofNat (b - a))) ∧
    (F64.lt (F64.ofNat a) (F64.ofNat b) = true ↔ a < b)

/-- 41_quantizer.md R111: `gain_ok` holds of exactly the finite patterns that are positive or a zero of either sign. -/
def Obligations.GainLegalityByPattern : Prop :=
  ∀ b : BitVec 64, gainOk (F64.ofBits b) = true ↔ LegalGain b

/-- 40_palette.md R100, R101: `nearest` of a finite colour is the lowest position of least `dist`, compared with `flt`; a
channel that is NaN or infinite is NumericFault. -/
def Obligations.NearestIsTheLowestLeastDistance : Prop :=
  ∀ (p : Palette) (c : Rgb64),
    (c.r.isFinite = true ∧ c.g.isFinite = true ∧ c.b.isFinite = true →
      ∃ i, nearest p c = .ok i ∧ ∀ j,
        F64.lt (distance c (paletteAt p j)) (distance c (paletteAt p i)) = false ∧
        (j < i → F64.lt (distance c (paletteAt p i)) (distance c (paletteAt p j)) = true)) ∧
    (¬ (c.r.isFinite = true ∧ c.g.isFinite = true ∧ c.b.isFinite = true) →
      nearest p c = .error (.fault .numericFault))

/-! ### The checks -/

/-- 41_quantizer.md R112, 42_mask.md R131, 43_packer.md R140, 60_exceptions.md R182: INVALID_DIMENSIONS comes first,
whatever the gain and the memories hold, and nothing but STATUS changes. -/
def Obligations.BadDimensionsRejected : Prop :=
  ∀ (i : Instr) (s : State), i = .quant ∨ i = .mask ∨ i = .pack →
    s.imageWidth = 0 ∨ s.imageHeight = 0 ∨ s.params.maxPixels < s.imageWidth * s.imageHeight →
    exec i s = .next (withStatus s 0x00000022#32)

/-- 45_convert.md R170, 60_exceptions.md R182: CONVERT checks both dimensions against the panel before anything else. -/
def Obligations.ConvertRejectsOtherSizes : Prop :=
  ∀ s : State, s.imageWidth ≠ s.params.panelSize ∨ s.imageHeight ≠ s.params.panelSize →
    exec .convert s = .next (withStatus s 0x00000022#32)

/-- 41_quantizer.md R111, R112, 45_convert.md R170: an illegal gain is BAD_GAIN, once the dimensions are right. -/
def Obligations.BadGainRejected : Prop :=
  ∀ s : State, ¬ LegalGain s.gainBits →
    (LegalDims s → exec .quant s = .next (withStatus s 0x00000032#32)) ∧
    (s.imageWidth = s.params.panelSize → s.imageHeight = s.params.panelSize →
      exec .convert s = .next (withStatus s 0x00000032#32))

/-- 60_exceptions.md R186, 10_state.md R37: a command that reads an unwritten byte it needs is ReadUnwritten:
PACK, QUANT and CONVERT at a pixel byte, RLE_ENC at a bitstream byte, RLE_DEC (44_rle.md R154) at a byte of the magic, of the
count, or of the first record that is not wholly written, where every check before it passes. -/
def Obligations.UnwrittenInputFaults : Prop :=
  (∀ (s : State) (n k : Nat), LegalDims s → n < pixelCount s → k < 3 → s.pix.get (4 * n + k) = none →
    exec .pack s = .fault .readUnwritten ∧ (LegalGain s.gainBits → exec .quant s = .fault .readUnwritten)) ∧
  (∀ (s : State) (n k : Nat), s.params.wf = true → s.imageWidth = s.params.panelSize →
    s.imageHeight = s.params.panelSize → LegalGain s.gainBits → n < pixelCount s → k < 3 →
    s.pix.get (4 * n + k) = none → exec .convert s = .fault .readUnwritten) ∧
  (∀ (s : State) (i : Nat), s.regs.pkLen.toNat ≤ s.params.pkCap → i < s.regs.pkLen.toNat → s.pk.get i = none →
    exec .rleEnc s = .fault .readUnwritten) ∧
  (∀ s : State, 8 ≤ s.regs.rlLen.toNat → s.regs.rlLen.toNat ≤ s.params.rlCap →
    (∀ a, a < 4 → s.rl.get a = none → exec .rleDec s = .fault .readUnwritten) ∧
    (HasMagic s.rl →
      (∀ a, 4 ≤ a → a < 8 → s.rl.get a = none → exec .rleDec s = .fault .readUnwritten) ∧
      (∀ (count a : Nat) (q : Nat → Byte × Byte), HasCount s.rl count → count ≤ s.params.pkCap →
        s.regs.rlLen.toNat % 2 = 0 → 8 ≤ a → a < s.regs.rlLen.toNat → RecordsBefore s.rl ((a - 8) / 2) q →
        s.rl.get a = none → exec .rleDec s = .fault .readUnwritten)))

/-! ### QUANT -/

/-- 41_quantizer.md R112, R113, R110: flat QUANT completes, and puts at every pixel of the image the palette colour
`nearest` gives for its adjusted colour: green times the gain, capped at 255, red and blue as they are; every other byte, alpha included, is as before. -/
def Obligations.FlatQuantResult : Prop :=
  ∀ (s : State) (px : Nat → Rgb), LegalDims s → LegalGain s.gainBits → s.dither = false →
    (∀ n, n < pixelCount s → PixelIs s.pix n (px n)) →
    ∃ (pos : Nat → Fin 6) (m : Memory),
      (∀ n, n < pixelCount s → nearest s.params.palette (adjusted s.gain (px n)) = .ok (pos n)) ∧
      exec .quant s = .next (withStatus { s with pix := m } 0x00000002#32) ∧
      ∀ a, m.get a = if a / 4 < pixelCount s ∧ a % 4 < 3 then
          some (channel (paletteAt s.params.palette (pos (a / 4))) (a % 4)) else s.pix.get a

/-- 41_quantizer.md R113 at gain 1.0: every pixel becomes the palette colour at least exact squared distance, the
lowest position on a tie. -/
def Obligations.FlatQuantAtUnitGain : Prop :=
  ∀ (s : State) (px : Nat → Rgb), LegalDims s → s.gainBits = 0x3FF0000000000000#64 → s.dither = false →
    (∀ n, n < pixelCount s → PixelIs s.pix n (px n)) →
    ∃ (pos : Nat → Fin 6) (m : Memory),
      (∀ n, n < pixelCount s → IsNearest s.params.palette (px n) (pos n)) ∧
      exec .quant s = .next (withStatus { s with pix := m } 0x00000002#32) ∧
      ∀ a, m.get a = if a / 4 < pixelCount s ∧ a % 4 < 3 then
          some (channel (paletteAt s.params.palette (pos (a / 4))) (a % 4)) else s.pix.get a

/-- 41_quantizer.md R122: flat quantization at gain 1.0 is idempotent, for any palette. -/
def Obligations.FlatQuantIdempotent : Prop :=
  ∀ s t : State, s.pix.wf = true → s.gainBits = 0x3FF0000000000000#64 → s.dither = false →
    exec .quant s = .next t → exec .quant t = .next t

/-- 41_quantizer.md R118, R117: dithered QUANT completes on every legal input, NumericFault is never raised, and every
pixel of the image ends as a palette colour; every other byte is as before. -/
def Obligations.DitherQuantCompletes : Prop :=
  ∀ (s : State) (px : Nat → Rgb), LegalDims s → LegalGain s.gainBits → s.dither = true →
    (∀ n, n < pixelCount s → PixelIs s.pix n (px n)) →
    ∃ (pos : Nat → Fin 6) (m : Memory),
      exec .quant s = .next (withStatus { s with pix := m } 0x00000002#32) ∧
      ∀ a, m.get a = if a / 4 < pixelCount s ∧ a % 4 < 3 then
          some (channel (paletteAt s.params.palette (pos (a / 4))) (a % 4)) else s.pix.get a

/-- 41_quantizer.md R114 to R119: in dithered mode each pixel is quantized from its seed and its four sources' errors,
accumulated in the order of R119. -/
def Obligations.DitherFollowsTheScan : Prop :=
  ∀ (s t : State) (px : Nat → Rgb), LegalDims s → LegalGain s.gainBits → s.dither = true →
    (∀ n, n < pixelCount s → PixelIs s.pix n (px n)) → exec .quant s = .next t →
    ∃ (old : Nat → Nat → Rgb64) (pos : Nat → Nat → Fin 6),
      ∀ x y, x < s.imageWidth → y < s.imageHeight →
        old x y = accumulated s.imageWidth (adjusted s.gain (px (y * s.imageWidth + x)))
          (fun x' y' => errorOf (old x' y') (colourF64 (paletteAt s.params.palette (pos x' y')))) x y ∧
        nearest s.params.palette (old x y) = .ok (pos x y) ∧
        PixelIs t.pix (y * s.imageWidth + x) (paletteAt s.params.palette (pos x y))

/-- 41_quantizer.md R121: on a 1x1 image nothing is diffused, and dithered mode gives the flat result. -/
def Obligations.DitherOfOnePixelIsFlat : Prop :=
  ∀ s t : State, s.imageWidth = 1 → s.imageHeight = 1 → s.dither = true → exec .quant s = .next t →
    exec .quant { s with regs := { s.regs with config := s.regs.config &&& 0xFFFFFFFE#32 } } =
      .next { t with regs := { t.regs with config := s.regs.config &&& 0xFFFFFFFE#32 } }

/-! ### MASK -/

/-- 42_mask.md R131, R130: MASK rejects bad dimensions; on legal ones it completes, and makes R, G and B of exactly the
pixels outside the disk 255. Pixel contents are not read, and CONFIG.MASK is not looked at. -/
def Obligations.MaskWhitensOutsideTheDisk : Prop :=
  decode 0x00000003#32 = .ok .mask ∧
  (∀ s : State, ¬ LegalDims s → exec .mask s = .next (withStatus s 0x00000022#32)) ∧
  ∀ s : State, LegalDims s →
    ∃ m : Memory, exec .mask s = .next (withStatus { s with pix := m } 0x00000002#32) ∧
      ∀ a, (a / 4 < pixelCount s ∧ a % 4 < 3 ∧
              Outside s.imageWidth s.imageHeight (a / 4 % s.imageWidth) (a / 4 / s.imageWidth) → m.get a = some 255#8) ∧
           (¬ (a / 4 < pixelCount s ∧ a % 4 < 3 ∧
              Outside s.imageWidth s.imageHeight (a / 4 % s.imageWidth) (a / 4 / s.imageWidth)) → m.get a = s.pix.get a)

/-- 42_mask.md R132: the mask is idempotent. -/
def Obligations.MaskIdempotent : Prop :=
  ∀ s t : State, s.pix.wf = true → exec .mask s = .next t → exec .mask t = .next t

/-- 42_mask.md R132: the mask is symmetric in both axes, and no square image is masked entirely. -/
def Obligations.MaskGeometry : Prop :=
  (∀ w h x y : Nat, x < w → y < h →
    outsideDisk w h (w - 1 - x) y = outsideDisk w h x y ∧ outsideDisk w h x (h - 1 - y) = outsideDisk w h x y) ∧
  (∀ w : Nat, 0 < w → ∃ x y, x < w ∧ y < w ∧ outsideDisk w w x y = false) ∧
  (∀ w x y : Nat, w ≤ 3 → x < w → y < w → outsideDisk w w x y = false)

/-! ### PACK -/

/-- 43_packer.md R140, R143, R145, R146, R147: PACK completes; byte j of PK holds nibbles 2j and 2j+1 of the closed
form, the padding nibble 0; PK_LEN is ceil(wh/2); everything else is as before. -/
def Obligations.PackClosedForm : Prop :=
  ∀ (s : State) (px : Nat → Rgb) (pos : Nat → Fin 6), LegalDims s →
    (∀ n, n < pixelCount s → PixelIs s.pix n (px n)) →
    (∀ n, n < pixelCount s → IsNearest s.params.palette (px n) (pos n)) →
    ∃ m : Memory,
      exec .pack s = .next { s with
        pk := m
        regs := { s.regs with pkLen := BitVec.ofNat 32 ((pixelCount s + 1) / 2), status := 0x00000002#32 } } ∧
      ∀ j, m.get j = if j < (pixelCount s + 1) / 2 then
          some (packedNibble (pixelCount s) s.rot180 (fun n => codeAt (pos n)) (2 * j) ++
                packedNibble (pixelCount s) s.rot180 (fun n => codeAt (pos n)) (2 * j + 1))
        else s.pk.get j

/-! ### RLE -/

/-- 44_rle.md R152: RLE_ENC completes on a wholly written bitstream within capacity; RL holds its encoding from address
0 and RL_LEN its length, where 32 bits hold that (log entry 10); bytes past it, PK and every other register are as before. -/
def Obligations.RleEncResult : Prop :=
  ∀ (s : State) (bs : List Byte), bs.length = s.regs.pkLen.toNat → bs.length ≤ s.params.pkCap →
    (∀ i, i < bs.length → s.pk.get i = bs[i]?) →
    ∃ (m : Memory) (len : Word),
      exec .rleEnc s = .next { s with rl := m, regs := { s.regs with rlLen := len, status := 0x00000002#32 } } ∧
      ((rleEncode bs).length < 4294967296 → len = BitVec.ofNat 32 (rleEncode bs).length) ∧
      ∀ a, m.get a = if a < (rleEncode bs).length then (rleEncode bs)[a]? else s.rl.get a

/-- 44_rle.md R151, 30_encoding.md R93 to R95: the encoding is the magic, the byte count, and records of runs 1 to 255
that stand for the nibbles of the input; two adjacent records have the same value only when the first has run 255. -/
def Obligations.RleEncodingIsGreedy : Prop :=
  ∀ bs : List Byte, ∃ rs : List RunRecord,
    rleEncode bs = [0x53#8, 0x50#8, 0x36#8, 0x52#8] ++
      [BitVec.ofNat 8 bs.length, BitVec.ofNat 8 (bs.length / 256), BitVec.ofNat 8 (bs.length / 65536),
        BitVec.ofNat 8 (bs.length / 16777216)] ++
      rs.flatMap (fun r => [BitVec.ofNat 8 r.run, 0#4 ++ r.val]) ∧
    (∀ r ∈ rs, 1 ≤ r.run ∧ r.run ≤ 255) ∧
    (rs.flatMap fun r => List.replicate r.run r.val) =
      bs.flatMap (fun b => [b.extractLsb' 4 4, b.extractLsb' 0 4]) ∧
    ∀ (i : Nat) (a b : RunRecord), rs[i]? = some a → rs[i + 1]? = some b → a.val = b.val → a.run = 255

/-- 44_rle.md R153: the size of the encoding. -/
def Obligations.RleEncodingLengthBounds : Prop :=
  ∀ bs : List Byte,
    (bs = [] → (rleEncode bs).length = 8) ∧
    (bs ≠ [] → 8 + 2 * ((2 * bs.length + 254) / 255) ≤ (rleEncode bs).length ∧
      (rleEncode bs).length ≤ 8 + 4 * bs.length)

/-- 44_rle.md R152, R154: the length checks, made before any byte is read. -/
def Obligations.RleLengthChecks : Prop :=
  ∀ s : State,
    (s.params.pkCap < s.regs.pkLen.toNat → exec .rleEnc s = .next (withStatus s 0x00000042#32)) ∧
    (s.params.rlCap < s.regs.rlLen.toNat → exec .rleDec s = .next (withStatus s 0x00000042#32)) ∧
    (s.regs.rlLen.toNat < 8 → exec .rleDec s = .next (withStatus s 0x00000062#32))

/-- 44_rle.md R154, 60_exceptions.md R182: RLE_DEC reports the first failing check and changes nothing else, whatever the
bytes hold, written or not, that no check up to that one reads. -/
def Obligations.RleDecReportsTheFirstError : Prop :=
  ∀ s : State, 8 ≤ s.regs.rlLen.toNat → s.regs.rlLen.toNat ≤ s.params.rlCap →
    (∀ m0 m1 m2 m3 : Byte, s.rl.get 0 = some m0 → s.rl.get 1 = some m1 → s.rl.get 2 = some m2 → s.rl.get 3 = some m3 →
      [m0, m1, m2, m3] ≠ [0x53#8, 0x50#8, 0x36#8, 0x52#8] → exec .rleDec s = .next (withStatus s 0x00000052#32)) ∧
    (∀ count : Nat, HasMagic s.rl → HasCount s.rl count →
      (s.params.pkCap < count → exec .rleDec s = .next (withStatus s 0x00000042#32)) ∧
      (count ≤ s.params.pkCap →
        (s.regs.rlLen.toNat % 2 = 1 → exec .rleDec s = .next (withStatus s 0x00000062#32)) ∧
        (s.regs.rlLen.toNat % 2 = 0 → ∀ q : Nat → Byte × Byte,
          (∀ j, 8 + 2 * j < s.regs.rlLen.toNat → RecordsBefore s.rl j q → RecordIs s.rl j (q j) → ¬ GoodRecord (q j) →
            exec .rleDec s = .next (withStatus s 0x00000072#32)) ∧
          (RecordsBefore s.rl ((s.regs.rlLen.toNat - 8) / 2) q →
            runSum ((List.range ((s.regs.rlLen.toNat - 8) / 2)).map q) ≠ 2 * count →
            exec .rleDec s = .next (withStatus s 0x00000062#32)))))

/-- 44_rle.md R154, R155, R157: on a wholly written well-formed stream, canonical or not, RLE_DEC completes; PK holds
the expansion from address 0, PK_LEN the count, and everything else is as before. -/
def Obligations.RleDecResult : Prop :=
  ∀ (s : State) (bs : List Byte), bs.length = s.regs.rlLen.toNat → 8 ≤ bs.length → bs.length ≤ s.params.rlCap →
    (∀ i, i < bs.length → s.rl.get i = bs[i]?) → streamStatus s.params.pkCap bs = 0x02#32 →
    ∃ m : Memory,
      exec .rleDec s = .next { s with
        pk := m
        regs := { s.regs with pkLen := BitVec.ofNat 32 (headerCount bs), status := 0x00000002#32 } } ∧
      ∀ a, m.get a = if a < headerCount bs then
          some ((pairNibbles (recordPairs (bs.drop 8))).getD (2 * a) 0 ++
                (pairNibbles (recordPairs (bs.drop 8))).getD (2 * a + 1) 0)
        else s.pk.get a

/-- 44_rle.md R156: RLE_ENC followed by RLE_DEC restores PK and PK_LEN, for every byte string whose encoding's length
fits RL_LEN (the spec states no RL_LEN beyond that: log entry 10). -/
def Obligations.RleRoundTrip : Prop :=
  ∀ (s : State) (bs : List Byte), bs.length = s.regs.pkLen.toNat → bs.length ≤ s.params.pkCap →
    (∀ i, i < bs.length → s.pk.get i = bs[i]?) → (rleEncode bs).length < 4294967296 →
    ∃ t u, exec .rleEnc s = .next t ∧ exec .rleDec t = .next u ∧ u.regs.status = 0x00000002#32 ∧
      u.regs.pkLen = s.regs.pkLen ∧ ∀ a, u.pk.get a = s.pk.get a

/-! ### CONVERT -/

/-- 45_convert.md R171, R172: past its own checks CONVERT is QUANT, then MASK if CONFIG.MASK, then PACK, then RLE_ENC. -/
def Obligations.ConvertEqualsItsStages : Prop :=
  ∀ s : State, s.params.wf = true → s.imageWidth = s.params.panelSize → s.imageHeight = s.params.panelSize →
    LegalGain s.gainBits →
    exec .convert s =
      andThen (exec .quant s) fun t =>
      andThen (if s.maskEnabled then exec .mask t else .next t) fun u =>
      andThen (exec .pack u) fun v => exec .rleEnc v

/-- 45_convert.md R170, R172: CONVERT completes on every legal input, in both modes; what PIX, PK, RL, PK_LEN and
RL_LEN (where 32 bits hold the length: log entry 10) then hold, and that everything else is as before. -/
def Obligations.ConvertCompletes : Prop :=
  ∀ (s : State) (px : Nat → Rgb), s.params.wf = true → s.imageWidth = s.params.panelSize →
    s.imageHeight = s.params.panelSize → LegalGain s.gainBits →
    (∀ n, n < pixelCount s → PixelIs s.pix n (px n)) →
    ∃ (t : State) (bs : List Byte) (len : Word), exec .convert s = .next t ∧
      t.regs = { s.regs with
        pkLen := BitVec.ofNat 32 ((pixelCount s + 1) / 2), rlLen := len, status := 0x00000002#32 } ∧
      t.params = s.params ∧ t.host = s.host ∧ t.pendingOpc = s.pendingOpc ∧
      (∀ n, n < pixelCount s → (∃ i, PixelIs t.pix n (paletteAt s.params.palette i)) ∨
        (s.maskEnabled = true ∧ Outside s.imageWidth s.imageHeight (n % s.imageWidth) (n / s.imageWidth) ∧
          PixelIs t.pix n ⟨255, 255, 255⟩)) ∧
      (∀ a, ¬ (a / 4 < pixelCount s ∧ a % 4 < 3) → t.pix.get a = s.pix.get a) ∧
      bs.length = (pixelCount s + 1) / 2 ∧
      (∀ a, t.pk.get a = if a < bs.length then bs[a]? else s.pk.get a) ∧
      (∀ a, t.rl.get a = if a < (rleEncode bs).length then (rleEncode bs)[a]? else s.rl.get a) ∧
      ((rleEncode bs).length < 4294967296 → len = BitVec.ofNat 32 (rleEncode bs).length)

/-! ### The host's accesses -/

/-- 10_state.md R22, R27 to R35: what a register reads after a host write while BUSY = 0, and that no other register,
memory or part of the machine changes; and which register a host read at each offset returns. -/
def Obligations.RegisterWritesReadBack : Prop :=
  ∀ (s : State) (v : Word), s.busy = false →
    (∀ x : Option Word,
      s.hostRead (.at .reg 0x04) 4 x = withRead s ⟨.reg, 0x04, 4, s.regs.status &&& 0x000000F3#32, x⟩ ∧
      s.hostRead (.at .reg 0x08) 4 x = withRead s ⟨.reg, 0x08, 4, s.regs.config &&& 0x00000007#32, x⟩ ∧
      s.hostRead (.at .reg 0x0C) 4 x = withRead s ⟨.reg, 0x0C, 4, s.regs.width &&& 0x0000FFFF#32, x⟩ ∧
      s.hostRead (.at .reg 0x10) 4 x = withRead s ⟨.reg, 0x10, 4, s.regs.height &&& 0x0000FFFF#32, x⟩ ∧
      s.hostRead (.at .reg 0x14) 4 x = withRead s ⟨.reg, 0x14, 4, s.regs.gainLo, x⟩ ∧
      s.hostRead (.at .reg 0x18) 4 x = withRead s ⟨.reg, 0x18, 4, s.regs.gainHi, x⟩ ∧
      s.hostRead (.at .reg 0x1C) 4 x = withRead s ⟨.reg, 0x1C, 4, s.regs.pkLen, x⟩ ∧
      s.hostRead (.at .reg 0x20) 4 x = withRead s ⟨.reg, 0x20, 4, s.regs.rlLen, x⟩ ∧
      s.hostRead (.at .reg 0x24) 4 x = withRead s ⟨.reg, 0x24, 4, s.regs.color &&& 0x00FFFFFF#32, x⟩ ∧
      s.hostRead (.at .reg 0x28) 4 x = withRead s ⟨.reg, 0x28, 4, s.regs.result &&& 0x0000070F#32, x⟩) ∧
    (s.hostWrite (.at .reg 0x04) 4 v = s) ∧
    ((s.hostWrite (.at .reg 0x08) 4 v).regs.read .config = v &&& 0x00000007#32) ∧
    ((s.hostWrite (.at .reg 0x0C) 4 v).regs.read .width = v &&& 0x0000FFFF#32) ∧
    ((s.hostWrite (.at .reg 0x10) 4 v).regs.read .height = v &&& 0x0000FFFF#32) ∧
    ((s.hostWrite (.at .reg 0x14) 4 v).regs.read .gainLo = v) ∧
    ((s.hostWrite (.at .reg 0x18) 4 v).regs.read .gainHi = v) ∧
    ((s.hostWrite (.at .reg 0x1C) 4 v).regs.read .pkLen = v) ∧
    ((s.hostWrite (.at .reg 0x20) 4 v).regs.read .rlLen = v) ∧
    ((s.hostWrite (.at .reg 0x24) 4 v).regs.read .color = v &&& 0x00FFFFFF#32) ∧
    (s.hostWrite (.at .reg 0x28) 4 v = s) ∧
    ∀ r r' : Reg, r ≠ .cmd → r' ≠ r →
      (s.hostWrite (.at .reg r.offset) 4 v).regs.read r' = s.regs.read r' ∧
      s.hostWrite (.at .reg r.offset) 4 v = { s with regs := (s.hostWrite (.at .reg r.offset) 4 v).regs }

/-- 10_state.md R22: the reserved offsets read 0 and ignore writes, and CMD reads 0. -/
def Obligations.ReservedOffsetsReadZero : Prop :=
  ∀ (s : State) (off : Nat) (v : Word) (x : Option Word), s.busy = false →
    (0x2C ≤ off → off < 0x100 → off % 4 = 0 →
      s.hostWrite (.at .reg off) 4 v = s ∧
      s.hostRead (.at .reg off) 4 x = withRead s ⟨.reg, off, 4, 0#32, x⟩) ∧
    s.hostRead (.at .reg 0x00) 4 x = withRead s ⟨.reg, 0x00, 4, 0#32, x⟩

/-- 20_memory.md R63, R74: a legal host write of a memory replaces exactly the bytes it covers, little-endian. -/
def Obligations.HostMemoryWrite : Prop :=
  ∀ (s : State) (space : Space) (off width : Nat) (v : Word), s.busy = false → space ≠ .reg →
    LegalAccess s.params space off width →
    (∀ a, ((s.hostWrite (.at space off) width v).memory space).get a =
      if off ≤ a ∧ a < off + width then some (v.extractLsb' (8 * (a - off)) 8) else (s.memory space).get a) ∧
    (∀ other, other ≠ space → (s.hostWrite (.at space off) width v).memory other = s.memory other) ∧
    (s.hostWrite (.at space off) width v).regs = s.regs ∧ (s.hostWrite (.at space off) width v).host = s.host ∧
    (s.hostWrite (.at space off) width v).pendingOpc = s.pendingOpc ∧
    (s.hostWrite (.at space off) width v).params = s.params

/-- 20_memory.md R63, R74, R61: a legal host read of a memory, at any width, returns each written byte it covers at its
little-endian place, and nothing above its width; it changes nothing of the block, and no byte of a memory. -/
def Obligations.HostMemoryRead : Prop :=
  ∀ (s : State) (space : Space) (off width : Nat) (x : Option Word), s.busy = false → space ≠ .reg →
    LegalAccess s.params space off width →
    ∃ (v : Word) (d : Nat),
      s.hostRead (.at space off) width x =
        { s with host := { s.host with reads := s.host.reads ++ [⟨space, off, width, v, x⟩], draws := d } } ∧
      (∀ i b, i < width → (s.memory space).get (off + i) = some b → v.extractLsb' (8 * i) 8 = b) ∧
      v.toNat < 256 ^ width

/-- 20_memory.md R74: a 32-bit read of PIX at 4n gives the pixel's four bytes, a 16-bit one its R and G (alpha and B may
then be unwritten); both change nothing of the block. -/
def Obligations.HostReadsAPixel : Prop :=
  ∀ (s : State) (n : Nat) (r g : Byte) (x : Option Word), s.busy = false → n < s.params.maxPixels →
    s.pix.get (4 * n) = some r → s.pix.get (4 * n + 1) = some g →
    (∀ b alpha, s.pix.get (4 * n + 2) = some b → s.pix.get (4 * n + 3) = some alpha →
      ∃ d, s.hostRead (.at .pix (4 * n)) 4 x =
        { s with host := { s.host with
            reads := s.host.reads ++ [⟨.pix, 4 * n, 4, alpha ++ b ++ g ++ r, x⟩], draws := d } }) ∧
    ∃ d, s.hostRead (.at .pix (4 * n)) 2 x =
      { s with host := { s.host with
          reads := s.host.reads ++ [⟨.pix, 4 * n, 2, 0#16 ++ g ++ r, x⟩], draws := d } }

/-- 20_memory.md R63, 93_implementation_defined.md I6: a host read that covers unwritten bytes, in any memory and at any
legal width, is no fault; each such byte reads as a free value, whatever that is, and stays unwritten (the draw counter is
the model's: log entry 5). -/
def Obligations.HostReadOfUnwrittenIsADraw : Prop :=
  ∀ (s : State) (space : Space) (off width : Nat) (x : Option Word), s.busy = false → space ≠ .reg →
    LegalAccess s.params space off width →
    ∃ v : Word,
      s.hostRead (.at space off) width x =
        { s with host := { s.host with
            reads := s.host.reads ++ [⟨space, off, width, v, x⟩]
            draws := s.host.draws + width } } ∧
      ∀ i, i < width → (s.memory space).get (off + i) = none →
        v.extractLsb' (8 * i) 8 = Config.freeByte (s.host.draws + i)

/-- 70_reset_and_hazards.md R203, 60_exceptions.md R186: while BUSY = 1 a STATUS read is performed, and any other access
that reaches the block is recorded as HostHazard (and as HostMisuse where it is also one the space does not have:
that both are then recorded is the model's reading, log entry 11) and has no effect. -/
def Obligations.AccessWhileBusyIsAHazard : Prop :=
  ∀ (s : State) (a : HostAddr) (width : Nat) (v : Word) (x : Option Word) (space : Space) (off : Nat),
    s.busy = true → resolve s.params a = some (space, off) →
    (space = .reg ∧ off = 0x04 ∧ width = 4 →
      s.hostRead a width x = withRead s ⟨.reg, 0x04, 4, s.regs.read .status, x⟩) ∧
    (¬ (space = .reg ∧ off = 0x04 ∧ width = 4) → LegalAccess s.params space off width →
      s.hostRead a width x = withFaults s true s.host.faults.hostMisuse) ∧
    (LegalAccess s.params space off width →
      s.hostWrite a width v = withFaults s true s.host.faults.hostMisuse) ∧
    (¬ LegalAccess s.params space off width →
      s.hostRead a width x = withFaults s true true ∧ s.hostWrite a width v = withFaults s true true)

/-- 20_memory.md R62, R63, 60_exceptions.md R186: an access of a wrong width, misaligned or beyond the space is recorded
as HostMisuse and has no effect. -/
def Obligations.MisuseHasNoEffect : Prop :=
  ∀ (s : State) (a : HostAddr) (width : Nat) (v : Word) (x : Option Word) (space : Space) (off : Nat),
    s.busy = false → resolve s.params a = some (space, off) → ¬ LegalAccess s.params space off width →
    s.hostRead a width x = withFaults s s.host.faults.hostHazard true ∧
    s.hostWrite a width v = withFaults s s.host.faults.hostHazard true

/-- 20_memory.md R60, R67, 30_encoding.md R86: base plus offset reaches the offset of that space, and an address outside
the four windows does not reach the block (that it then changes nothing is the model's reading, log entry 6, and that the first
byte alone decides this is its choice, log entry 16). -/
def Obligations.BusAddressesReachTheirSpaces : Prop :=
  ∀ p : Params, p.wf = true →
    (∀ (space : Space) (off : Nat), off < space.size p → resolve p (.bus (space.base p + off)) = some (space, off)) ∧
    (∀ a : Nat, (∀ space : Space, ¬ (space.base p ≤ a ∧ a < space.base p + space.size p)) →
      resolve p (.bus a) = none ∧ ∀ (s : State) (width : Nat) (v : Word) (x : Option Word), s.params = p →
        s.hostRead (.bus a) width x = s ∧ s.hostWrite (.bus a) width v = s)

/-- 70_reset_and_hazards.md R207: BUSY does not stay 1: within as many steps as the choice list has entries, and one
more, BUSY is 0, or the command has ended the run with a model fault (the choice list is the model's: log entry 4). -/
def Obligations.PollingEnds : Prop :=
  ∀ s : State, s.busy = true →
    ∃ k, k ≤ s.host.sched.length + 1 ∧
      ((∃ t, runSteps k s = .next t ∧ t.busy = false) ∨ (∃ f, runSteps k s = .fault f))
end

