-- ==== Sys2Proof/Laws/Memory.lean ====
section
/-!
SUPPORT. What the memory operations do: read after write, and that every one of them keeps the canonical form and the
bound of the space.
-/

namespace Sys2Proof.Machine

@[simp] theorem Memory.get_nil (a : Nat) : Memory.get [] a = none := rfl

theorem Memory.get_cons (c : Host.Cell) (m : Memory) (a : Nat) :
    Memory.get (c :: m) a = if c.1 = a then some c.2 else Memory.get m a := rfl

/-- Read after write, at the same place and at any other. -/
theorem Memory.get_set (m : Memory) (a : Nat) (v : Byte) (b : Nat) :
    (m.set a v).get b = if b = a then some v else m.get b := by
  induction m with
  | nil => simp [Memory.set, Memory.get_cons, eq_comm]
  | cons c m ih =>
    obtain ⟨k, u⟩ := c
    unfold Memory.set
    by_cases h1 : a < k
    · rw [if_pos h1, Memory.get_cons]
      simp only [eq_comm]
    · rw [if_neg h1]
      by_cases h2 : a = k
      · subst h2
        rw [if_pos rfl, Memory.get_cons, Memory.get_cons]
        by_cases h3 : b = a
        · simp [h3]
        · simp [h3, Ne.symm h3]
      · rw [if_neg h2, Memory.get_cons, Memory.get_cons, ih]
        by_cases h3 : k = b
        · subst h3; simp [Ne.symm h2]
        · simp [h3]

@[simp] theorem Memory.get_set_same (m : Memory) (a : Nat) (v : Byte) : (m.set a v).get a = some v := by
  simp [Memory.get_set]

theorem Memory.get_set_ne (m : Memory) (a : Nat) (v : Byte) (b : Nat) (h : b ≠ a) :
    (m.set a v).get b = m.get b := by simp [Memory.get_set, h]

/-- The addresses after a write: those before, and the one written. -/
theorem Memory.mem_keys_set (m : Memory) (a : Nat) (v : Byte) (k : Nat) :
    k ∈ (m.set a v).map Prod.fst ↔ k = a ∨ k ∈ m.map Prod.fst := by
  induction m with
  | nil => simp [Memory.set]
  | cons c m ih =>
    obtain ⟨j, u⟩ := c
    unfold Memory.set
    split_ifs with h1 h2
    · simp
    · subst h2; simp
    · simp only [List.map_cons, List.mem_cons, ih]; tauto

theorem Memory.wf_iff (m : Memory) : m.wf = true ↔ (m.map Prod.fst).Pairwise (· < ·) := by
  simp [Memory.wf]

@[simp] theorem Memory.wf_nil : Memory.wf [] = true := by decide

/-- A write keeps the canonical form. -/
theorem Memory.wf_set (m : Memory) (a : Nat) (v : Byte) (h : m.wf = true) : (m.set a v).wf = true := by
  rw [Memory.wf_iff] at h ⊢
  induction m with
  | nil => simp [Memory.set]
  | cons c m ih =>
    obtain ⟨k, u⟩ := c
    simp only [List.map_cons, List.pairwise_cons] at h
    unfold Memory.set
    split_ifs with h1 h2
    · simp only [List.map_cons, List.pairwise_cons]
      refine ⟨fun b hb => ?_, h⟩
      rcases List.mem_cons.mp hb with rfl | hb
      · exact h1
      · exact h1.trans (h.1 b hb)
    · subst h2
      simpa only [List.map_cons, List.pairwise_cons] using h
    · simp only [List.map_cons, List.pairwise_cons]
      refine ⟨fun b hb => ?_, ih h.2⟩
      rcases (Memory.mem_keys_set m a v b).mp hb with rfl | hb
      · omega
      · exact h.1 b hb

theorem Memory.within_iff (m : Memory) (cap : Nat) : m.within cap = true ↔ ∀ k ∈ m.map Prod.fst, k < cap := by
  simp [Memory.within]

@[simp] theorem Memory.within_nil (cap : Nat) : Memory.within [] cap = true := rfl

/-- A write inside a space keeps its bound. -/
theorem Memory.within_set (m : Memory) (a : Nat) (v : Byte) (cap : Nat) (h : m.within cap = true) (ha : a < cap) :
    (m.set a v).within cap = true := by
  rw [Memory.within_iff] at h ⊢
  intro k hk
  rcases (Memory.mem_keys_set m a v k).mp hk with rfl | hk
  · exact ha
  · exact h k hk

/-- Writing the byte that is already there changes nothing, in a memory of canonical form. -/
theorem Memory.set_get_same (m : Memory) (a : Nat) (v : Byte) (hm : m.wf = true) (h : m.get a = some v) :
    m.set a v = m := by
  rw [Memory.wf_iff] at hm
  induction m with
  | nil => simp at h
  | cons c m ih =>
    obtain ⟨k, u⟩ := c
    simp only [List.map_cons, List.pairwise_cons] at hm
    rw [Memory.get_cons] at h
    unfold Memory.set
    by_cases hk : k = a
    · subst hk
      simp at h
      simp [h]
    · simp only [hk, if_false] at h
      have ha : a ∈ m.map Prod.fst := by
        clear ih hm
        induction m with
        | nil => simp at h
        | cons d m ih2 =>
          rw [Memory.get_cons] at h
          by_cases hd : d.1 = a
          · simp [hd]
          · simp only [hd, if_false] at h
            exact List.mem_cons_of_mem _ (ih2 h)
      have := hm.1 a ha
      rw [if_neg (by omega), if_neg (by omega), ih hm.2 h]

/-- Two memories of canonical form that read alike everywhere are equal. -/
theorem Memory.ext_get (m n : Memory) (hm : m.wf = true) (hn : n.wf = true) (h : ∀ a, m.get a = n.get a) : m = n := by
  rw [Memory.wf_iff] at hm hn
  have absent : ∀ (l : Memory) (a : Nat), (∀ k ∈ l.map Prod.fst, a < k) → l.get a = none := by
    intro l a hl
    induction l with
    | nil => rfl
    | cons c l ih =>
      rw [Memory.get_cons, if_neg]
      · exact ih fun k hk => hl k (List.mem_cons_of_mem _ hk)
      · have := hl c.1 (by simp)
        omega
  induction m generalizing n with
  | nil =>
    cases n with
    | nil => rfl
    | cons d n => have := h d.1; simp [Memory.get_cons] at this
  | cons c m ih =>
    obtain ⟨k, u⟩ := c
    simp only [List.map_cons, List.pairwise_cons] at hm
    cases n with
    | nil => have := h k; simp [Memory.get_cons] at this
    | cons d n =>
      obtain ⟨j, v⟩ := d
      simp only [List.map_cons, List.pairwise_cons] at hn
      have hkj : k = j := by
        rcases Nat.lt_trichotomy k j with hlt | heq | hgt
        · have := h k
          rw [Memory.get_cons, if_pos rfl, absent] at this
          · exact absurd this (by simp)
          · intro x hx
            rcases List.mem_cons.mp hx with rfl | hx
            · exact hlt
            · exact hlt.trans (hn.1 x hx)
        · exact heq
        · have := h j
          rw [absent, Memory.get_cons, if_pos rfl] at this
          · exact absurd this (by simp)
          · intro x hx
            rcases List.mem_cons.mp hx with rfl | hx
            · exact hgt
            · exact hgt.trans (hm.1 x hx)
      subst hkj
      have huv : u = v := by simpa [Memory.get_cons] using h k
      subst huv
      congr 1
      refine ih n hm.2 hn.2 fun a => ?_
      by_cases ha : k = a
      · subst ha
        rw [absent m k (fun x hx => hm.1 x hx), absent n k (fun x hx => hn.1 x hx)]
      · simpa [Memory.get_cons, ha] using h a

/-! ### Writing several bytes -/

/-- What a run of bytes written at `a` leaves at every address. -/
theorem get_writeBytes (m : Memory) (a : Nat) (bs : List Byte) (b : Nat) :
    (writeBytes m a bs).get b = if a ≤ b ∧ b < a + bs.length then bs[b - a]? else m.get b := by
  induction bs generalizing m a with
  | nil => simp [writeBytes]
  | cons x bs ih =>
    rw [writeBytes, ih, Memory.get_set]
    by_cases hb : b = a
    · subst hb; simp
    · by_cases h1 : a + 1 ≤ b ∧ b < a + 1 + bs.length
      · have h2 : a ≤ b ∧ b < a + (x :: bs).length := by simp; omega
        rw [if_pos h1, if_pos h2]
        have : b - a = (b - (a + 1)) + 1 := by omega
        rw [this]; rfl
      · have h2 : ¬ (a ≤ b ∧ b < a + (x :: bs).length) := by simp; omega
        rw [if_neg h1, if_neg h2, if_neg hb]

theorem wf_writeBytes (m : Memory) (a : Nat) (bs : List Byte) (h : m.wf = true) : (writeBytes m a bs).wf = true := by
  induction bs generalizing m a with
  | nil => exact h
  | cons x bs ih => exact ih _ _ (Memory.wf_set _ _ _ h)

theorem within_writeBytes (m : Memory) (a : Nat) (bs : List Byte) (cap : Nat) (h : m.within cap = true)
    (hb : a + bs.length ≤ cap) : (writeBytes m a bs).within cap = true := by
  induction bs generalizing m a with
  | nil => exact h
  | cons x bs ih =>
    simp only [List.length_cons] at hb
    exact ih _ _ (Memory.within_set _ _ _ _ h (by omega)) (by omega)

/-! ### Writing pixels -/

/-- The channel of a colour at a byte offset of its pixel (30_encoding.md R90). -/
def channelAt (c : Rgb) : Nat → Option Byte
  | 0 => some c.r
  | 1 => some c.g
  | 2 => some c.b
  | _ => none

/-- What one pixel written leaves at every address: its three bytes, and never the alpha byte. -/
theorem get_writePixel (m : Memory) (n : Nat) (c : Rgb) (a : Nat) :
    (writePixel m n c).get a = if a / 4 = n ∧ a % 4 < 3 then channelAt c (a % 4) else m.get a := by
  simp only [writePixel, Memory.get_set]
  have h4 : a % 4 < 4 := Nat.mod_lt _ (by omega)
  have hd := Nat.div_add_mod a 4
  by_cases hn : a / 4 = n
  · have : a % 4 = 0 ∨ a % 4 = 1 ∨ a % 4 = 2 ∨ a % 4 = 3 := by omega
    rcases this with h | h | h | h
    · rw [if_neg (by omega), if_neg (by omega), if_pos (by omega), if_pos (by omega), h]; rfl
    · rw [if_neg (by omega), if_pos (by omega), if_pos (by omega), h]; rfl
    · rw [if_pos (by omega), if_pos (by omega), h]; rfl
    · rw [if_neg (by omega), if_neg (by omega), if_neg (by omega), if_neg (by omega)]
  · rw [if_neg (by omega), if_neg (by omega), if_neg (by omega), if_neg (by omega)]

/-- No pixel write touches an alpha byte (41_quantizer.md R120). -/
theorem get_writePixel_alpha (m : Memory) (n k : Nat) (c : Rgb) : (writePixel m n c).get (4 * k + 3) = m.get (4 * k + 3) := by
  rw [get_writePixel, if_neg (by omega)]

theorem wf_writePixel (m : Memory) (n : Nat) (c : Rgb) (h : m.wf = true) : (writePixel m n c).wf = true :=
  Memory.wf_set _ _ _ (Memory.wf_set _ _ _ (Memory.wf_set _ _ _ h))

theorem within_writePixel (m : Memory) (n : Nat) (c : Rgb) (cap : Nat) (h : m.within cap = true) (hn : 4 * n + 2 < cap) :
    (writePixel m n c).within cap = true :=
  Memory.within_set _ _ _ _ (Memory.within_set _ _ _ _ (Memory.within_set _ _ _ _ h (by omega)) (by omega)) hn

/-- What a run of pixels written from pixel `n` leaves at every address. -/
theorem get_writePixels (m : Memory) (n : Nat) (cs : List Rgb) (a : Nat) :
    (writePixels m n cs).get a =
      if n ≤ a / 4 ∧ a / 4 < n + cs.length ∧ a % 4 < 3 then (cs[a / 4 - n]?).bind fun c => channelAt c (a % 4)
      else m.get a := by
  induction cs generalizing m n with
  | nil => rw [writePixels, if_neg (by simp; omega)]
  | cons c cs ih =>
    rw [writePixels, ih, get_writePixel]
    by_cases hn : a / 4 = n
    · subst hn
      rw [if_neg (by omega)]
      by_cases h3 : a % 4 < 3
      · rw [if_pos ⟨rfl, h3⟩, if_pos (by simp; omega)]; simp
      · rw [if_neg (by omega), if_neg (by omega)]
    · by_cases h1 : n + 1 ≤ a / 4 ∧ a / 4 < n + 1 + cs.length ∧ a % 4 < 3
      · rw [if_pos h1, if_pos (by simp only [List.length_cons]; omega)]
        have : a / 4 - n = (a / 4 - (n + 1)) + 1 := by omega
        rw [this]; rfl
      · rw [if_neg h1, if_neg (by omega), if_neg (by simp only [List.length_cons]; omega)]

/-- No run of pixel writes touches an alpha byte (41_quantizer.md R120). -/
theorem get_writePixels_alpha (m : Memory) (n k : Nat) (cs : List Rgb) :
    (writePixels m n cs).get (4 * k + 3) = m.get (4 * k + 3) := by
  rw [get_writePixels, if_neg (by omega)]

theorem wf_writePixels (m : Memory) (n : Nat) (cs : List Rgb) (h : m.wf = true) : (writePixels m n cs).wf = true := by
  induction cs generalizing m n with
  | nil => exact h
  | cons c cs ih => exact ih _ _ (wf_writePixel _ _ _ h)

theorem within_writePixels (m : Memory) (n : Nat) (cs : List Rgb) (cap : Nat) (h : m.within cap = true)
    (hn : 4 * (n + cs.length) ≤ cap) : (writePixels m n cs).within cap = true := by
  induction cs generalizing m n with
  | nil => exact h
  | cons c cs ih =>
    simp only [List.length_cons] at hn
    exact ih _ _ (within_writePixel _ _ _ _ h (by omega)) (by omega)

/-! ### Bytes of a word -/

@[simp] theorem leBytes_length (n : Nat) (v : Word) : (leBytes n v).length = n := by simp [leBytes]

theorem leBytes_getElem? (n : Nat) (v : Word) (i : Nat) (h : i < n) :
    (leBytes n v)[i]? = some (v.extractLsb' (8 * i) 8) := by
  simp [leBytes, h]

end Sys2Proof.Machine
end

