-- ==== Sys2Proof/Laws/State.lean ====
section
/-!
SUPPORT. What each update of the state does to each field, so that no proof unfolds a record update, and what the
accessors of STATUS give after the two updates that write it.
-/

namespace Sys2Proof.Machine

@[simp] theorem State.startCommand_params (s : State) (v : Word) : (s.startCommand v).params = s.params := rfl
@[simp] theorem State.startCommand_regs (s : State) (v : Word) : (s.startCommand v).regs = { s.regs with status := statusWord true false 0 } := rfl
@[simp] theorem State.startCommand_pendingOpc (s : State) (v : Word) : (s.startCommand v).pendingOpc = v := rfl
@[simp] theorem State.startCommand_pix (s : State) (v : Word) : (s.startCommand v).pix = s.pix := rfl
@[simp] theorem State.startCommand_pk (s : State) (v : Word) : (s.startCommand v).pk = s.pk := rfl
@[simp] theorem State.startCommand_rl (s : State) (v : Word) : (s.startCommand v).rl = s.rl := rfl
@[simp] theorem State.startCommand_host (s : State) (v : Word) : (s.startCommand v).host = s.host := rfl

@[simp] theorem State.finish_params (s : State) (e : ErrCode) : (s.finish e).params = s.params := rfl
@[simp] theorem State.finish_regs (s : State) (e : ErrCode) : (s.finish e).regs = { s.regs with status := statusWord false true e.code } := rfl
@[simp] theorem State.finish_pendingOpc (s : State) (e : ErrCode) : (s.finish e).pendingOpc = s.pendingOpc := rfl
@[simp] theorem State.finish_pix (s : State) (e : ErrCode) : (s.finish e).pix = s.pix := rfl
@[simp] theorem State.finish_pk (s : State) (e : ErrCode) : (s.finish e).pk = s.pk := rfl
@[simp] theorem State.finish_rl (s : State) (e : ErrCode) : (s.finish e).rl = s.rl := rfl
@[simp] theorem State.finish_host (s : State) (e : ErrCode) : (s.finish e).host = s.host := rfl

@[simp] theorem State.blockReset_params (s : State) : (s.blockReset).params = s.params := rfl
@[simp] theorem State.blockReset_regs (s : State) : (s.blockReset).regs = Regs.reset s.params := rfl
@[simp] theorem State.blockReset_pendingOpc (s : State) : (s.blockReset).pendingOpc = 0#32 := rfl
@[simp] theorem State.blockReset_pix (s : State) : (s.blockReset).pix = [] := rfl
@[simp] theorem State.blockReset_pk (s : State) : (s.blockReset).pk = [] := rfl
@[simp] theorem State.blockReset_rl (s : State) : (s.blockReset).rl = [] := rfl
@[simp] theorem State.blockReset_host (s : State) : (s.blockReset).host = s.host := rfl

@[simp] theorem State.takeTurn_params (s : State) : (s.takeTurn).params = s.params := rfl
@[simp] theorem State.takeTurn_regs (s : State) : (s.takeTurn).regs = s.regs := rfl
@[simp] theorem State.takeTurn_pendingOpc (s : State) : (s.takeTurn).pendingOpc = s.pendingOpc := rfl
@[simp] theorem State.takeTurn_pix (s : State) : (s.takeTurn).pix = s.pix := rfl
@[simp] theorem State.takeTurn_pk (s : State) : (s.takeTurn).pk = s.pk := rfl
@[simp] theorem State.takeTurn_rl (s : State) : (s.takeTurn).rl = s.rl := rfl
@[simp] theorem State.takeTurn_host (s : State) : (s.takeTurn).host = { s.host with sched := s.host.sched.tail } := rfl

@[simp] theorem State.noteRead_params (s : State) (r : HostRead) : (s.noteRead r).params = s.params := rfl
@[simp] theorem State.noteRead_regs (s : State) (r : HostRead) : (s.noteRead r).regs = s.regs := rfl
@[simp] theorem State.noteRead_pendingOpc (s : State) (r : HostRead) : (s.noteRead r).pendingOpc = s.pendingOpc := rfl
@[simp] theorem State.noteRead_pix (s : State) (r : HostRead) : (s.noteRead r).pix = s.pix := rfl
@[simp] theorem State.noteRead_pk (s : State) (r : HostRead) : (s.noteRead r).pk = s.pk := rfl
@[simp] theorem State.noteRead_rl (s : State) (r : HostRead) : (s.noteRead r).rl = s.rl := rfl
@[simp] theorem State.noteRead_host (s : State) (r : HostRead) : (s.noteRead r).host = { s.host with reads := s.host.reads ++ [r] } := rfl

@[simp] theorem State.recordHazard_params (s : State) : (s.recordHazard).params = s.params := rfl
@[simp] theorem State.recordHazard_regs (s : State) : (s.recordHazard).regs = s.regs := rfl
@[simp] theorem State.recordHazard_pendingOpc (s : State) : (s.recordHazard).pendingOpc = s.pendingOpc := rfl
@[simp] theorem State.recordHazard_pix (s : State) : (s.recordHazard).pix = s.pix := rfl
@[simp] theorem State.recordHazard_pk (s : State) : (s.recordHazard).pk = s.pk := rfl
@[simp] theorem State.recordHazard_rl (s : State) : (s.recordHazard).rl = s.rl := rfl
@[simp] theorem State.recordHazard_host (s : State) : (s.recordHazard).host = { s.host with faults := { s.host.faults with hostHazard := true } } := rfl

@[simp] theorem State.recordMisuse_params (s : State) : (s.recordMisuse).params = s.params := rfl
@[simp] theorem State.recordMisuse_regs (s : State) : (s.recordMisuse).regs = s.regs := rfl
@[simp] theorem State.recordMisuse_pendingOpc (s : State) : (s.recordMisuse).pendingOpc = s.pendingOpc := rfl
@[simp] theorem State.recordMisuse_pix (s : State) : (s.recordMisuse).pix = s.pix := rfl
@[simp] theorem State.recordMisuse_pk (s : State) : (s.recordMisuse).pk = s.pk := rfl
@[simp] theorem State.recordMisuse_rl (s : State) : (s.recordMisuse).rl = s.rl := rfl
@[simp] theorem State.recordMisuse_host (s : State) : (s.recordMisuse).host = { s.host with faults := { s.host.faults with hostMisuse := true } } := rfl

/-! ### The registers' updates -/

@[simp] theorem State.setMemory_regs (s : State) (space : Space) (m : Memory) : (s.setMemory space m).regs = s.regs := by
  cases space <;> rfl
@[simp] theorem State.setMemory_params (s : State) (space : Space) (m : Memory) :
    (s.setMemory space m).params = s.params := by cases space <;> rfl
@[simp] theorem State.setMemory_pendingOpc (s : State) (space : Space) (m : Memory) :
    (s.setMemory space m).pendingOpc = s.pendingOpc := by cases space <;> rfl
@[simp] theorem State.setMemory_host (s : State) (space : Space) (m : Memory) : (s.setMemory space m).host = s.host := by
  cases space <;> rfl
@[simp] theorem State.setMemory_same (s : State) (space : Space) (m : Memory) (h : space ≠ .reg) :
    (s.setMemory space m).memory space = m := by cases space <;> first | contradiction | rfl
@[simp] theorem State.setMemory_other (s : State) (space other : Space) (m : Memory) (h : other ≠ space) :
    (s.setMemory space m).memory other = s.memory other := by
  cases space <;> cases other <;> first | contradiction | rfl

/-! ### The flags -/

@[simp] theorem statusWord_busy (b d : Bool) (e : BitVec 4) : (statusWord b d e).getLsbD 0 = b := by
  revert b d e; decide
@[simp] theorem statusWord_done (b d : Bool) (e : BitVec 4) : (statusWord b d e).getLsbD 1 = d := by
  revert b d e; decide
@[simp] theorem statusWord_err (b d : Bool) (e : BitVec 4) : (statusWord b d e).extractLsb' 4 4 = e := by
  revert b d e; decide

@[simp] theorem State.startCommand_busy (s : State) (v : Word) : (s.startCommand v).busy = true := statusWord_busy ..
@[simp] theorem State.startCommand_done (s : State) (v : Word) : (s.startCommand v).done = false := statusWord_done ..
@[simp] theorem State.startCommand_err (s : State) (v : Word) : (s.startCommand v).err = 0 := statusWord_err ..
@[simp] theorem State.finish_busy (s : State) (e : ErrCode) : (s.finish e).busy = false := statusWord_busy ..
@[simp] theorem State.finish_done (s : State) (e : ErrCode) : (s.finish e).done = true := statusWord_done ..
@[simp] theorem State.finish_err (s : State) (e : ErrCode) : (s.finish e).err = e.code := statusWord_err ..
@[simp] theorem State.takeTurn_busy (s : State) : s.takeTurn.busy = s.busy := rfl
@[simp] theorem State.blockReset_busy (s : State) : s.blockReset.busy = false := by
  simp [State.busy, Regs.reset]
@[simp] theorem State.noteRead_busy (s : State) (r : HostRead) : (s.noteRead r).busy = s.busy := rfl
@[simp] theorem State.recordHazard_busy (s : State) : s.recordHazard.busy = s.busy := rfl
@[simp] theorem State.recordMisuse_busy (s : State) : s.recordMisuse.busy = s.busy := rfl
@[simp] theorem State.setMemory_busy (s : State) (space : Space) (m : Memory) : (s.setMemory space m).busy = s.busy := by
  simp [State.busy]

/-- Different codes of 60_exceptions.md R180 have different numbers. -/
theorem ErrCode.code_injective (a b : ErrCode) (h : a.code = b.code) : a = b := by
  revert h; cases a <;> cases b <;> decide

/-- Only OK has the number 0. -/
@[simp] theorem ErrCode.code_eq_zero (e : ErrCode) : e.code = 0 ↔ e = .ok := by cases e <;> decide

end Sys2Proof.Machine
end

