-- ==== Sys2Proof/Laws/Exec.lean ====
section
/-!
SUPPORT. What the shared operations of a command answer: `collect`, the byte and pixel reads, `complete`, and the arms
of `exec`. A prover cites these instead of unfolding them.
-/

namespace Sys2Proof.Machine

/-! ### Reads -/

@[simp] theorem readByte_ok (m : Memory) (a : Nat) (v : Byte) : readByte m a = .ok v ↔ m.get a = some v := by
  unfold readByte; cases m.get a <;> simp

theorem readByte_of_get (m : Memory) (a : Nat) (v : Byte) (h : m.get a = some v) : readByte m a = .ok v :=
  (readByte_ok m a v).mpr h

/-- A read that halts is a ReadUnwritten fault (00_scope.md R10). -/
theorem readByte_error (m : Memory) (a : Nat) (e : Halt) :
    readByte m a = .error e ↔ m.get a = none ∧ e = .fault .readUnwritten := by
  unfold readByte; cases m.get a <;> simp [eq_comm]

theorem readPixel_ok (m : Memory) (n : Nat) (c : Rgb) :
    readPixel m n = .ok c ↔ m.get (4 * n) = some c.r ∧ m.get (4 * n + 1) = some c.g ∧ m.get (4 * n + 2) = some c.b := by
  obtain ⟨r, g, b⟩ := c
  unfold readPixel readByte
  cases m.get (4 * n) <;> cases m.get (4 * n + 1) <;> cases m.get (4 * n + 2) <;> simp

/-- A pixel read that halts is a ReadUnwritten fault at one of its three bytes. -/
theorem readPixel_error (m : Memory) (n : Nat) (e : Halt) :
    readPixel m n = .error e ↔
      (m.get (4 * n) = none ∨ m.get (4 * n + 1) = none ∨ m.get (4 * n + 2) = none) ∧ e = .fault .readUnwritten := by
  unfold readPixel readByte
  cases m.get (4 * n) <;> cases m.get (4 * n + 1) <;> cases m.get (4 * n + 2) <;> simp [eq_comm]

/-! ### collect -/

theorem collect_cons {α β : Type} (f : α → Exec β) (a : α) (as : List α) :
    collect f (a :: as) =
      match f a with
      | .error h => .error h
      | .ok b =>
        match collect f as with
        | .error h => .error h
        | .ok bs => .ok (b :: bs) := rfl

/-- `collect` answers the list of answers exactly when `f` answers at every item. -/
theorem collect_ok {α β : Type} (f : α → Exec β) (as : List α) (bs : List β) :
    collect f as = .ok bs ↔ as.map f = bs.map .ok := by
  induction as generalizing bs with
  | nil => cases bs <;> simp [collect]
  | cons a as ih =>
    rw [collect_cons]
    cases bs with
    | nil => cases f a <;> simp; cases collect f as <;> simp
    | cons b bs =>
      cases hfa : f a with
      | error h => simp [hfa]
      | ok b' =>
        have := ih bs
        cases hc : collect f as with
        | error h => simp_all
        | ok bs' =>
          simp only [Except.ok.injEq, List.cons.injEq, List.map_cons, hfa]
          rw [hc] at this
          simp only [Except.ok.injEq] at this
          rw [this]

theorem collect_length {α β : Type} (f : α → Exec β) (as : List α) (bs : List β) (h : collect f as = .ok bs) :
    bs.length = as.length := by
  have := congrArg List.length ((collect_ok f as bs).mp h)
  simpa using this.symm

theorem collect_getElem? {α β : Type} (f : α → Exec β) (as : List α) (bs : List β) (h : collect f as = .ok bs) (i : Nat)
    (a : α) (ha : as[i]? = some a) : ∃ b, bs[i]? = some b ∧ f a = .ok b := by
  have hm := congrArg (fun l => l[i]?) ((collect_ok f as bs).mp h)
  simp only [List.getElem?_map, ha, Option.map_some] at hm
  cases hb : bs[i]? with
  | none => simp [hb] at hm
  | some b => rw [hb] at hm; simp at hm; exact ⟨b, rfl, hm⟩

/-- `collect` answers where `f` answers `g` at every item. -/
theorem collect_of_forall {α β : Type} (f : α → Exec β) (g : α → β) (as : List α) (h : ∀ a ∈ as, f a = .ok (g a)) :
    collect f as = .ok (as.map g) := by
  rw [collect_ok, List.map_map]
  exact List.map_congr_left h

/-- `collect` halts only as `f` halts at some item. -/
theorem collect_error {α β : Type} (f : α → Exec β) (as : List α) (e : Halt) (h : collect f as = .error e) :
    ∃ a ∈ as, f a = .error e := by
  induction as with
  | nil => simp [collect] at h
  | cons a as ih =>
    rw [collect_cons] at h
    cases hfa : f a with
    | error e' => rw [hfa] at h; simp at h; exact ⟨a, by simp, by rw [hfa, h]⟩
    | ok b =>
      rw [hfa] at h
      cases hc : collect f as with
      | error e' =>
        rw [hc] at h; simp at h
        obtain ⟨x, hx, hfx⟩ := ih (by rw [hc, h])
        exact ⟨x, List.mem_cons_of_mem _ hx, hfx⟩
      | ok bs => rw [hc] at h; simp at h

/-- Where some item halts, `collect` halts. -/
theorem collect_halts {α β : Type} (f : α → Exec β) (as : List α) (a : α) (e : Halt) (ha : a ∈ as) (h : f a = .error e) :
    ∃ e', collect f as = .error e' := by
  cases hc : collect f as with
  | error e' => exact ⟨e', rfl⟩
  | ok bs =>
    obtain ⟨i, hi, hget⟩ := List.getElem_of_mem ha
    obtain ⟨b, -, hb⟩ := collect_getElem? f as bs hc i a (by rw [List.getElem?_eq_getElem hi, hget])
    rw [h] at hb; cases hb

/-- The first item at which `f` halts decides how `collect` halts. -/
theorem collect_first_error {α β : Type} (f : α → Exec β) (before after : List α) (a : α) (e : Halt)
    (hb : ∀ x ∈ before, ∃ b, f x = .ok b) (ha : f a = .error e) : collect f (before ++ a :: after) = .error e := by
  induction before with
  | nil => rw [List.nil_append, collect_cons, ha]
  | cons x xs ih =>
    obtain ⟨b, hx⟩ := hb x (by simp)
    rw [List.cons_append, collect_cons, hx, ih fun y hy => hb y (List.mem_cons_of_mem _ hy)]

/-- The same over the numbers below `n`. -/
theorem collect_range_error {β : Type} (f : Nat → Exec β) (n j : Nat) (e : Halt) (hj : j < n)
    (hb : ∀ i, i < j → ∃ b, f i = .ok b) (he : f j = .error e) : collect f (List.range n) = .error e := by
  obtain ⟨k, rfl⟩ : ∃ k, n = j + (k + 1) := ⟨n - j - 1, by omega⟩
  rw [List.range_add, List.range_succ_eq_map]
  exact collect_first_error f _ _ _ e (fun x hx => hb x (List.mem_range.mp hx)) he

/-- Reading an unwritten byte among others is ReadUnwritten, whichever of them is the first. -/
theorem readBytes_unwritten (m : Memory) (a n i : Nat) (hi : i < n) (h : m.get (a + i) = none) :
    readBytes m a n = .error (.fault .readUnwritten) := by
  obtain ⟨e, he⟩ := collect_halts (fun i => readByte m (a + i)) (List.range n) i _ (List.mem_range.mpr hi)
    ((readByte_error m (a + i) _).mpr ⟨h, rfl⟩)
  obtain ⟨k, -, hk⟩ := collect_error _ _ _ he
  rw [readBytes, he, ((readByte_error m (a + k) e).mp hk).2]

/-- The bytes read are those of the memory. -/
theorem readBytes_ok (m : Memory) (a n : Nat) (bs : List Byte) :
    readBytes m a n = .ok bs ↔ bs.length = n ∧ ∀ i, i < n → m.get (a + i) = bs[i]? := by
  constructor
  · intro h
    have hl := collect_length _ _ _ h
    simp only [List.length_range] at hl
    refine ⟨hl, fun i hi => ?_⟩
    obtain ⟨b, hb, hr⟩ := collect_getElem? _ _ _ h i i (by simp [hi])
    rw [hb]; exact (readByte_ok _ _ _).mp hr
  · rintro ⟨hl, h⟩
    rw [readBytes, collect_ok]
    apply List.ext_getElem?
    intro i
    by_cases hi : i < n
    · have hb : i < bs.length := by omega
      simp only [List.getElem?_map, List.getElem?_range hi, Option.map_some, List.getElem?_eq_getElem hb]
      congr 1
      exact (readByte_ok _ _ _).mpr (by rw [h i hi, List.getElem?_eq_getElem hb])
    · simp [hl, hi]

/-! ### complete -/

/-- `complete` answers a next state in two ways: the command's result, or an error that changes STATUS alone
(10_state.md R42, 60_exceptions.md R183). -/
theorem complete_next (s t : State) (r : Exec State) (h : complete s r = .next t) :
    (∃ s', r = .ok s' ∧ t = s'.finish .ok) ∨ (∃ e, r = .error (.error e) ∧ t = s.finish e) := by
  rcases r with (e | f) | s'
  · exact .inr ⟨e, rfl, by simpa [complete, completeWithError] using h.symm⟩
  · simp [complete] at h
  · exact .inl ⟨s', rfl, by simpa [complete] using h.symm⟩

theorem complete_fault (s : State) (r : Exec State) (f : Fault) (h : complete s r = .fault f) :
    r = .error (.fault f) := by
  rcases r with (e | f') | s' <;> simp_all [complete]

@[simp] theorem complete_ne_refused (s : State) (r : Exec State) (x : Refusal) : complete s r ≠ .refused x := by
  rcases r with (e | f) | s' <;> simp [complete]

@[simp] theorem complete_ok (s s' : State) : complete s (.ok s') = .next (s'.finish .ok) := rfl
@[simp] theorem complete_raise (s : State) (e : ErrCode) : complete s (raise e) = .next (s.finish e) := rfl
@[simp] theorem complete_error (s : State) (e : ErrCode) : complete s (.error (.error e)) = .next (s.finish e) := rfl
@[simp] theorem complete_fault_eq (s : State) (f : Fault) : complete s (.error (.fault f)) = .fault f := rfl

/-! ### The arms of exec -/

@[simp] theorem exec_nop (s : State) : exec .nop s = complete s (.ok s) := rfl
@[simp] theorem exec_lookup (s : State) : exec .lookup s = complete s (lookupBody s) := rfl
@[simp] theorem exec_quant (s : State) : exec .quant s = complete s (quantBody s) := rfl
@[simp] theorem exec_mask (s : State) : exec .mask s = complete s (maskBody s) := rfl
@[simp] theorem exec_pack (s : State) : exec .pack s = complete s (packBody s) := rfl
@[simp] theorem exec_rleEnc (s : State) : exec .rleEnc s = complete s (rleEncBody s) := rfl
@[simp] theorem exec_rleDec (s : State) : exec .rleDec s = complete s (rleDecBody s) := rfl
@[simp] theorem exec_convert (s : State) : exec .convert s = complete s (convertBody s) := rfl

/-- No command is refused. -/
theorem exec_ne_refused (i : Instr) (s : State) (x : Refusal) : exec i s ≠ .refused x := by
  cases i <;> simp

end Sys2Proof.Machine
end

