-- ==== Sys2Proof/Laws/Float.lean ====
section
/-!
SUPPORT. What rounding to binary64 does: a representable value is kept, a bound that is representable is kept, and the
result is representable. With these the operations of Machine/Float.lean are exact on small integers.
-/

namespace Sys2Proof

/-- Not a simp lemma: the large powers here stay folded, or `simp` would write them out. -/
theorem pow2_eq (k : Nat) : pow2 k = 2 ^ k := by unfold pow2; rfl

theorem pow2_pos (k : Nat) : 0 < pow2 k := by rw [pow2_eq]; positivity

theorem pow2_add (j k : Nat) : pow2 (j + k) = pow2 j * pow2 k := by simp only [pow2_eq, pow_add]

theorem pow2_le (j k : Nat) (h : j ≤ k) : pow2 j ≤ pow2 k := by
  rw [pow2_eq, pow2_eq]; exact Nat.pow_le_pow_right (by omega) h

theorem pow2_dvd (j k : Nat) (h : j ≤ k) : pow2 j ∣ pow2 k := by
  rw [pow2_eq, pow2_eq]; exact pow_dvd_pow 2 h

/-! ### The top bit -/

theorem log2_div_pow2 (n k : Nat) (h : pow2 k ≤ n) : k + Nat.log2 (n / pow2 k) = Nat.log2 n := by
  rw [pow2_eq] at h ⊢
  rw [Nat.log2_eq_log_two, Nat.log2_eq_log_two, Nat.log_div_base_pow]
  have : k ≤ Nat.log 2 n := Nat.le_log_of_pow_le (by omega) h
  omega

theorem topBitIn_step (k : Nat) (ks : List Nat) (h : ∀ m, m < pow2 k → topBitIn ks m = Nat.log2 m) (n : Nat)
    (hn : n < pow2 (2 * k)) : topBitIn (k :: ks) n = Nat.log2 n := by
  unfold topBitIn
  by_cases hk : n < pow2 k
  · rw [if_pos hk]; exact h n hk
  · rw [if_neg hk, h, log2_div_pow2 n k (Nat.le_of_not_lt hk)]
    rw [Nat.div_lt_iff_lt_mul (pow2_pos k), ← pow2_add]
    convert hn using 2
    omega

/-- The quick top bit is the base-2 logarithm. -/
theorem topBit_eq (n : Nat) : topBit n = Nat.log2 n := by
  unfold topBit
  split_ifs with h
  · have h0 : ∀ m, m < pow2 1 → topBitIn [] m = Nat.log2 m := by
      intro m hm
      rw [pow2_eq] at hm
      have : m = 0 ∨ m = 1 := by omega
      rcases this with rfl | rfl <;> decide
    have h1 := topBitIn_step 1 _ h0
    have h2 := topBitIn_step 2 _ h1
    have h4 := topBitIn_step 4 _ h2
    have h8 := topBitIn_step 8 _ h4
    have h16 := topBitIn_step 16 _ h8
    have h32 := topBitIn_step 32 _ h16
    have h64 := topBitIn_step 64 _ h32
    have h128 := topBitIn_step 128 _ h64
    have h256 := topBitIn_step 256 _ h128
    have h512 := topBitIn_step 512 _ h256
    have h1024 := topBitIn_step 1024 _ h512
    exact topBitIn_step 2048 _ h1024 n h
  · rfl

theorem log2_mul_pow (n k : Nat) (h : n ≠ 0) : Nat.log2 (n * 2 ^ k) = Nat.log2 n + k := by
  rw [Nat.log2_eq_log_two, Nat.log2_eq_log_two]
  induction k with
  | zero => simp
  | succ k ih => rw [pow_succ, ← Nat.mul_assoc, Nat.log_mul_base (by omega) (by positivity), ih]; omega

/-! ### Representable magnitudes -/

/-- A magnitude (in units) with at most 53 significant bits. -/
def F64.short (m : Nat) : Prop := 2 ^ (Nat.log2 m - 52) ∣ m

theorem F64.short_of_lt (m : Nat) (h : m < 2 ^ 53) : F64.short m := by
  have : Nat.log2 m - 52 = 0 := by
    rcases Nat.eq_zero_or_pos m with rfl | hp
    · decide
    · have := (Nat.log2_lt (by omega)).mpr h; omega
  simp [F64.short, this]

/-- `n * 2^k` has at most 53 significant bits where `n` has. -/
theorem F64.short_mul_pow2 (n k : Nat) (h : n ≤ 2 ^ 53) : F64.short (n * pow2 k) := by
  rw [pow2_eq]
  rcases Nat.eq_zero_or_pos n with rfl | hp
  · simp [F64.short]
  · by_cases he : n = 2 ^ 53
    · subst he
      rw [F64.short, ← pow_add, Nat.log2_two_pow]
      exact pow_dvd_pow 2 (by omega)
    · have hl : Nat.log2 (n * 2 ^ k) = Nat.log2 n + k := by
        exact log2_mul_pow n k (by omega)
      have h52 : Nat.log2 n ≤ 52 := by
        have := (Nat.log2_lt (n := n) (k := 53) (by omega)).mpr (by omega); omega
      rw [F64.short, hl]
      exact Dvd.dvd.mul_left (pow_dvd_pow 2 (by omega)) n

theorem F64.representable_iff (s : Bool) (m : Nat) :
    (F64.fin s m).representable = true ↔ m < pow2 2098 ∧ F64.short m := by
  simp only [F64.representable, topBit_eq, F64.short, Nat.dvd_iff_mod_eq_zero, decide_eq_true_eq, pow2_eq (_ - _)]

/-! ### Rounding -/

/-- A value with at most 53 significant bits is kept. -/
theorem F64.roundMag_exact (m den : Nat) (hd : 0 < den) (h : F64.short m) : F64.roundMag (m * den) den = m := by
  obtain ⟨c, hc⟩ := h
  have hq : m * den / den = m := Nat.mul_div_cancel _ hd
  simp only [F64.roundMag, hq, topBit_eq, pow2_eq (_ - _)]
  have hs : 0 < den * 2 ^ (Nat.log2 m - 52) := by positivity
  have hm : m * den = c * (den * 2 ^ (Nat.log2 m - 52)) := by
    conv_lhs => rw [hc]
    ring
  have hk : m * den / (den * 2 ^ (Nat.log2 m - 52)) = c := by
    rw [hm]; exact Nat.mul_div_cancel _ hs
  have hr : m * den % (den * 2 ^ (Nat.log2 m - 52)) = 0 := by
    rw [hm]; exact Nat.mul_mod_left _ _
  rw [hk, hr, if_neg (by omega), if_neg (by omega)]
  conv_rhs => rw [hc]
  ring

theorem F64.round_exact (s : Bool) (m den : Nat) (hd : 0 < den) (h : F64.short m) (hm : m < pow2 2098) :
    F64.round s (m * den) den = .fin s m := by
  simp only [F64.round, F64.roundMag_exact m den hd h]
  rw [if_pos hm]

/-- A representable bound on the exact value is a bound on the rounded one. -/
theorem F64.roundMag_le (num den b : Nat) (hd : 0 < den) (hb : F64.short b) (h : num ≤ b * den) :
    F64.roundMag num den ≤ b := by
  simp only [F64.roundMag, topBit_eq, pow2_eq (_ - _)]
  set s := Nat.log2 (num / den) - 52 with hs
  have hstep : 0 < den * 2 ^ s := by positivity
  have hqb : num / den ≤ b := Nat.div_le_of_le_mul (by rw [Nat.mul_comm]; exact h)
  have hdvd : 2 ^ s ∣ b := by
    refine dvd_trans (pow_dvd_pow 2 ?_) hb
    have : Nat.log2 (num / den) ≤ Nat.log2 b := by
      rw [Nat.log2_eq_log_two, Nat.log2_eq_log_two]; exact Nat.log_mono_right hqb
    omega
  obtain ⟨c, hc⟩ := hdvd
  have hnum : num ≤ c * (den * 2 ^ s) := by
    calc num ≤ b * den := h
      _ = c * (den * 2 ^ s) := by rw [hc]; ring
  have hk : num / (den * 2 ^ s) ≤ c := Nat.div_le_of_le_mul (by rw [Nat.mul_comm]; exact hnum)
  have hdm := Nat.div_add_mod num (den * 2 ^ s)
  have hml := Nat.mod_lt num hstep
  rw [hc]
  rcases Nat.lt_or_ge (num / (den * 2 ^ s)) c with hlt | hge
  · rw [Nat.mul_comm (2 ^ s) c]
    apply Nat.mul_le_mul_right
    split_ifs <;> omega
  · have hkc : num / (den * 2 ^ s) = c := by omega
    have hr : num % (den * 2 ^ s) = 0 := by
      rw [hkc, Nat.mul_comm] at hdm; omega
    rw [hkc, hr, if_neg (by omega), if_neg (by omega)]
    simp [Nat.mul_comm]

/-- A rounded magnitude has at most 53 significant bits. -/
theorem F64.short_roundMag (num den : Nat) : F64.short (F64.roundMag num den) := by
  simp only [F64.roundMag, topBit_eq, pow2_eq (_ - _)]
  set s := Nat.log2 (num / den) - 52 with hs
  rw [← pow2_eq s]
  apply F64.short_mul_pow2
  rw [pow2_eq s]
  have hk : num / (den * 2 ^ s) < 2 ^ 53 := by
    rw [← Nat.div_div_eq_div_mul, Nat.div_lt_iff_lt_mul (by positivity), ← pow_add]
    calc num / den < 2 ^ (Nat.log2 (num / den) + 1) := Nat.lt_log2_self
      _ ≤ 2 ^ (53 + s) := Nat.pow_le_pow_right (by omega) (by omega)
  split_ifs <;> omega

theorem F64.representable_round (s : Bool) (num den : Nat) :
    (F64.round s num den).representable = true := by
  simp only [F64.round]
  split_ifs with h
  · exact (F64.representable_iff _ _).mpr ⟨h, F64.short_roundMag num den⟩
  · rfl

/-! ### Integers -/

theorem F64.unit_pos : 0 < F64.unit := pow2_pos _

/-- An integer below 2^53 is below every overflow. -/
theorem F64.int_lt_max (n : Nat) (h : n < 2 ^ 53) : F64.unit * n < pow2 2098 := by
  rw [← pow2_eq 53] at h
  calc F64.unit * n < F64.unit * pow2 53 := Nat.mul_lt_mul_of_pos_left h F64.unit_pos
    _ = pow2 (1074 + 53) := by rw [pow2_add, F64.unit]
    _ ≤ pow2 2098 := pow2_le _ _ (by omega)

/-- An integer below 2^53 has at most 53 significant bits. -/
theorem F64.short_int (n : Nat) (h : n ≤ 2 ^ 53) : F64.short (F64.unit * n) := by
  rw [Nat.mul_comm]; exact F64.short_mul_pow2 n 1074 h

/-- `f64(n)` is exact below 2^53 (00_scope.md R11). -/
theorem F64.ofNat_eq (n : Nat) (h : n < 2 ^ 53) : F64.ofNat n = .fin false (F64.unit * n) := by
  have := F64.round_exact false (F64.unit * n) 1 (by omega) (F64.short_int n (by omega)) (F64.int_lt_max n h)
  rw [Nat.mul_one] at this
  exact this

@[simp] theorem F64.ofNat_isFinite_byte (b : Byte) : (F64.ofNat b.toNat).isFinite = true := by
  rw [F64.ofNat_eq _ (by have := b.isLt; omega)]; rfl

end Sys2Proof
end

