-- ==== Sys2Proof/Laws/Commands.lean ====
section
/-!
SUPPORT. One lemma per body of a command that says all it can answer: which fields of the state its writes touch, at
which addresses, and how many bytes. Frames and the step invariant are read off these.
-/

namespace Sys2Proof.Machine

/-! ### nearest -/

theorem nearest_of_finite (p : Palette) (c : Rgb64)
    (h : c.r.isFinite = true ∧ c.g.isFinite = true ∧ c.b.isFinite = true) :
    nearest p c = .ok (nearestLoop p c [1, 2, 3, 4, 5] 0 (colourDist c (paletteAt p 0))) := by
  unfold nearest
  rw [if_pos (by rw [h.1, h.2.1, h.2.2]; rfl)]

theorem nearest_of_not_finite (p : Palette) (c : Rgb64)
    (h : ¬ (c.r.isFinite = true ∧ c.g.isFinite = true ∧ c.b.isFinite = true)) :
    nearest p c = .error (.fault .numericFault) := by
  unfold nearest
  rw [if_neg (by simpa only [Bool.and_eq_true, and_assoc] using h)]

/-- `nearest` answers exactly on finite channels (40_palette.md R101). -/
theorem nearest_ok_iff (p : Palette) (c : Rgb64) :
    (∃ i, nearest p c = .ok i) ↔ c.r.isFinite = true ∧ c.g.isFinite = true ∧ c.b.isFinite = true := by
  constructor
  · rintro ⟨i, hi⟩
    by_contra h
    rw [nearest_of_not_finite p c h] at hi
    cases hi
  · exact fun h => ⟨_, nearest_of_finite p c h⟩

/-- `nearest` halts only with NumericFault (40_palette.md R101). -/
theorem nearest_error (p : Palette) (c : Rgb64) (e : Halt) (h : nearest p c = .error e) : e = .fault .numericFault := by
  by_cases hf : c.r.isFinite = true ∧ c.g.isFinite = true ∧ c.b.isFinite = true
  · rw [nearest_of_finite p c hf] at h; cases h
  · rw [nearest_of_not_finite p c hf] at h; cases h; rfl

/-- A colour of three bytes always has a nearest entry: GDEH's "No error conditions" (40_palette.md R101). -/
theorem nearest_bytes (p : Palette) (c : Rgb) : ∃ i, nearest p (colourF64 c) = .ok i :=
  (nearest_ok_iff p _).mpr (by
    rw [colourF64]
    exact ⟨F64.ofNat_isFinite_byte c.r, F64.ofNat_isFinite_byte c.g, F64.ofNat_isFinite_byte c.b⟩)

/-- LOOKUP always completes, and writes RESULT alone. -/
theorem lookupBody_ok (s : State) : ∃ i, nearest s.params.palette (colourF64 s.colorOperand) = .ok i ∧
    lookupBody s = .ok { s with regs := { s.regs with result := resultWord i } } := by
  obtain ⟨i, hi⟩ := nearest_bytes s.params.palette s.colorOperand
  exact ⟨i, hi, by simp [lookupBody, hi]⟩

/-! ### QUANT -/

/-- Flat mode answers one colour per pixel of the image. -/
theorem flatQuantize_ok (p : Palette) (w h : Nat) (g : F64) (m m' : Memory) (hq : flatQuantize p w h g m = .ok m') :
    ∃ cs, collect (flatPixel p m g) (List.range (w * h)) = .ok cs ∧ cs.length = w * h ∧ m' = writePixels m 0 cs := by
  unfold flatQuantize at hq
  cases hc : collect (flatPixel p m g) (List.range (w * h)) with
  | error e => rw [hc] at hq; simp at hq
  | ok cs =>
    rw [hc] at hq; simp at hq
    exact ⟨cs, rfl, by simpa using collect_length _ _ _ hc, hq.symm⟩

@[simp] theorem spread_length (buf : EBuf) (m : Nat) (err : Rgb64) (k : Nat) : (spread buf m err k).length = buf.length := by
  simp [spread]

@[simp] theorem diffuse_length (w h x y : Nat) (err : Rgb64) (buf : EBuf) : (diffuse w h x y err buf).length = buf.length := by
  unfold diffuse
  split_ifs <;> simp

/-- One pixel of the scan keeps the size of EBUF. -/
theorem ditherPixel_length (p : Palette) (w h x y : Nat) (buf buf' : EBuf) (hd : ditherPixel p w h x y buf = .ok buf') :
    buf'.length = buf.length := by
  unfold ditherPixel at hd
  cases hb : buf[y * w + x]? with
  | none => rw [hb] at hd; simp at hd
  | some old =>
    rw [hb] at hd
    cases hn : nearest p old with
    | error e => simp [hn] at hd
    | ok i => simp [hn] at hd; rw [← hd]; simp

theorem ditherScan_length (p : Palette) (w h : Nat) (ps : List (Nat × Nat)) (buf buf' : EBuf)
    (hd : ditherScan p w h ps buf = .ok buf') : buf'.length = buf.length := by
  induction ps generalizing buf with
  | nil => simp [ditherScan] at hd; rw [hd]
  | cons q ps ih =>
    obtain ⟨x, y⟩ := q
    unfold ditherScan at hd
    cases h1 : ditherPixel p w h x y buf with
    | error e => simp [h1] at hd
    | ok b1 => simp only [h1] at hd; rw [ih b1 hd, ditherPixel_length _ _ _ _ _ _ _ h1]

/-- Dithered mode answers one colour per pixel of the image. -/
theorem ditherQuantize_ok (p : Palette) (w h : Nat) (g : F64) (m m' : Memory) (hq : ditherQuantize p w h g m = .ok m') :
    ∃ seeds buf cs, collect (adjustedPixel m g) (List.range (w * h)) = .ok seeds ∧
      ditherScan p w h (rasterOrder w h) seeds = .ok buf ∧ collect writeBackPixel buf = .ok cs ∧
      cs.length = w * h ∧ m' = writePixels m 0 cs := by
  unfold ditherQuantize at hq
  cases h1 : collect (adjustedPixel m g) (List.range (w * h)) with
  | error e => rw [h1] at hq; simp at hq
  | ok seeds =>
    cases h2 : ditherScan p w h (rasterOrder w h) seeds with
    | error e => simp [h1, h2] at hq
    | ok buf =>
      cases h3 : collect writeBackPixel buf with
      | error e => simp [h1, h2, h3] at hq
      | ok cs =>
        simp [h1, h2, h3] at hq
        refine ⟨seeds, buf, cs, rfl, h2, h3, ?_, hq.symm⟩
        rw [collect_length _ _ _ h3, ditherScan_length _ _ _ _ _ _ h2, collect_length _ _ _ h1, List.length_range]

/-- The body of QUANT rewrites whole pixels of the image in PIX and nothing else. -/
theorem quantizeBody_ok (w h : Nat) (g : F64) (s s' : State) (hq : quantizeBody w h g s = .ok s') :
    ∃ cs : List Rgb, cs.length = w * h ∧ s' = { s with pix := writePixels s.pix 0 cs } := by
  unfold quantizeBody at hq
  by_cases hd : s.dither = true
  · rw [if_pos hd] at hq
    cases hm : ditherQuantize s.params.palette w h g s.pix with
    | error e => rw [hm] at hq; simp at hq
    | ok m =>
      rw [hm] at hq; simp at hq
      obtain ⟨_, _, cs, -, -, -, hl, rfl⟩ := ditherQuantize_ok _ _ _ _ _ _ hm
      exact ⟨cs, hl, hq.symm⟩
  · rw [if_neg hd] at hq
    cases hm : flatQuantize s.params.palette w h g s.pix with
    | error e => rw [hm] at hq; simp at hq
    | ok m =>
      rw [hm] at hq; simp at hq
      obtain ⟨cs, -, hl, rfl⟩ := flatQuantize_ok _ _ _ _ _ _ hm
      exact ⟨cs, hl, hq.symm⟩

/-! ### MASK -/

theorem mem_rasterOrder (w h : Nat) (q : Nat × Nat) : q ∈ rasterOrder w h ↔ q.1 < w ∧ q.2 < h := by
  obtain ⟨x, y⟩ := q
  simp [rasterOrder, and_comm]

theorem rasterOrder_length (w h : Nat) : (rasterOrder w h).length = w * h := by
  simp [rasterOrder, Nat.mul_comm]

/-- A position inside the image has a raster index inside it. -/
theorem raster_lt (w h x y : Nat) (hx : x < w) (hy : y < h) : y * w + x < w * h := by
  calc y * w + x < y * w + w := by omega
    _ = (y + 1) * w := by ring
    _ ≤ h * w := Nat.mul_le_mul_right w hy
    _ = w * h := Nat.mul_comm h w

theorem maskScan_wf (w h : Nat) (ps : List (Nat × Nat)) (m : Memory) (hm : m.wf = true) : (maskScan w h ps m).wf = true := by
  induction ps generalizing m with
  | nil => exact hm
  | cons q ps ih =>
    obtain ⟨x, y⟩ := q
    unfold maskScan
    apply ih
    split_ifs
    · exact wf_writePixel _ _ _ hm
    · exact hm

theorem maskScan_within (w h cap : Nat) (ps : List (Nat × Nat)) (m : Memory) (hm : m.within cap = true)
    (hc : 4 * (w * h) ≤ cap) (hp : ∀ q ∈ ps, q.1 < w ∧ q.2 < h) : (maskScan w h ps m).within cap = true := by
  induction ps generalizing m with
  | nil => exact hm
  | cons q ps ih =>
    obtain ⟨x, y⟩ := q
    have hq := hp (x, y) (by simp)
    have := raster_lt w h x y hq.1 hq.2
    unfold maskScan
    apply ih
    · split_ifs
      · exact within_writePixel _ _ _ _ hm (by omega)
      · exact hm
    · exact fun q hq => hp q (List.mem_cons_of_mem _ hq)

/-- MASK touches no alpha byte (42_mask.md R131). -/
theorem maskScan_alpha (w h : Nat) (ps : List (Nat × Nat)) (m : Memory) (k : Nat) :
    (maskScan w h ps m).get (4 * k + 3) = m.get (4 * k + 3) := by
  induction ps generalizing m with
  | nil => rfl
  | cons q ps ih =>
    obtain ⟨x, y⟩ := q
    unfold maskScan
    rw [ih]
    split_ifs
    · exact get_writePixel_alpha _ _ _ _
    · rfl

/-! ### PACK -/

theorem reversedScan_length (w h : Nat) : (reversedScan w h).length = w * h := by
  simp [reversedScan, List.length_flatMap, Nat.mul_comm]

theorem mem_reversedScan (w h : Nat) (q : Nat × Nat) : q ∈ reversedScan w h ↔ q.1 < w ∧ q.2 < h := by
  obtain ⟨x, y⟩ := q
  simp [reversedScan, and_comm]

theorem packNibbles_length : ∀ ns : List Nibble, (packNibbles ns).length = (ns.length + 1) / 2
  | [] => by simp [packNibbles]
  | [_] => by simp [packNibbles]
  | _ :: _ :: rest => by
    simp only [packNibbles, List.length_cons, packNibbles_length rest]
    omega

/-- The body of PACK writes PK from address 0 and PK_LEN, and nothing else (43_packer.md R147). -/
theorem packImage_ok (w h : Nat) (s s' : State) (hp : packImage w h s = .ok s') :
    ∃ codes, collect (scanCode s.params.palette s.pix w h s.rot180) (reversedScan w h) = .ok codes ∧
      codes.length = w * h ∧
      s' = { s with
        pk := writeBytes s.pk 0 (packNibbles codes)
        regs := { s.regs with pkLen := BitVec.ofNat 32 ((w * h + 1) / 2) } } := by
  unfold packImage at hp
  cases hc : collect (scanCode s.params.palette s.pix w h s.rot180) (reversedScan w h) with
  | error e => rw [hc] at hp; simp at hp
  | ok codes =>
    rw [hc] at hp; simp at hp
    exact ⟨codes, rfl, by rw [collect_length _ _ _ hc, reversedScan_length], hp.symm⟩

/-! ### RLE -/

theorem nibblesOf_length (bs : List Byte) : (nibblesOf bs).length = 2 * bs.length := by
  induction bs with
  | nil => rfl
  | cons b bs ih =>
    have : nibblesOf (b :: bs) = [b.extractLsb' 4 4, b.extractLsb' 0 4] ++ nibblesOf bs := rfl
    rw [this]; simp [ih]; omega

theorem runsFrom_length (v : Nibble) (r : Nat) (ns : List Nibble) : (runsFrom v r ns).length ≤ ns.length + 1 := by
  induction ns generalizing v r with
  | nil => simp [runsFrom]
  | cons x xs ih =>
    unfold runsFrom
    split_ifs
    · have := ih v (r + 1); simp only [List.length_cons]; omega
    · have := ih x 1; simp only [List.length_cons]; omega

theorem runsOf_length (ns : List Nibble) : (runsOf ns).length ≤ ns.length := by
  cases ns with
  | nil => simp [runsOf]
  | cons x xs => simpa [runsOf] using runsFrom_length x 1 xs

/-- The stream is its 8-byte header and two bytes a record. -/
theorem rleEncode_length (bs : List Byte) : (rleEncode bs).length = 8 + 2 * (runsOf (nibblesOf bs)).length := by
  have : ∀ rs : List RunRecord, (rs.flatMap RunRecord.bytes).length = 2 * rs.length := by
    intro rs
    induction rs with
    | nil => rfl
    | cons r rs ih => simp [RunRecord.bytes, ih]; omega
  simp [rleEncode, rleMagic, this]
  omega

/-- The stream fits RL (44_rle.md R152). -/
theorem rleEncode_fits (bs : List Byte) : (rleEncode bs).length ≤ 8 + 4 * bs.length := by
  have h1 := runsOf_length (nibblesOf bs)
  have h2 := nibblesOf_length bs
  rw [rleEncode_length]; omega

/-- The body of RLE_ENC writes RL from address 0 and RL_LEN, and nothing else. -/
theorem encodePacked_ok (s s' : State) (he : encodePacked s = .ok s') :
    ∃ bs, readBytes s.pk 0 (s.regs.read .pkLen).toNat = .ok bs ∧
      s' = { s with
        rl := writeBytes s.rl 0 (rleEncode bs)
        regs := { s.regs with rlLen := lengthWord (rleEncode bs).length } } := by
  unfold encodePacked at he
  cases hb : readBytes s.pk 0 (s.regs.read .pkLen).toNat with
  | error e => rw [hb] at he; simp at he
  | ok bs => rw [hb] at he; simp at he; exact ⟨bs, rfl, he.symm⟩

/-- A record whose two bytes are written (44_rle.md R154). -/
theorem readRecord_written (rl : Memory) (j : Nat) (run val : Byte) (hr : rl.get (8 + 2 * j) = some run)
    (hv : rl.get (9 + 2 * j) = some val) :
    readRecord rl j = if recordWf run val then .ok ⟨run.toNat, val.extractLsb' 0 4⟩ else raise .rleBadRecord := by
  simp [readRecord, readByte_of_get _ _ _ hr, readByte_of_get _ _ _ hv]

/-- A record with an unwritten byte is ReadUnwritten, whatever its other byte holds: both are read before the check. -/
theorem readRecord_unwritten (rl : Memory) (j : Nat) (h : rl.get (8 + 2 * j) = none ∨ rl.get (9 + 2 * j) = none) :
    readRecord rl j = .error (.fault .readUnwritten) := by
  have key : ∀ a, rl.get a = none → readByte rl a = .error (.fault .readUnwritten) := fun a ha =>
    (readByte_error _ _ _).mpr ⟨ha, rfl⟩
  cases hr : rl.get (8 + 2 * j) with
  | none => simp [readRecord, key _ hr]
  | some run =>
    rw [hr] at h
    simp [readRecord, readByte_of_get _ _ _ hr, key _ (h.resolve_left (by simp))]

/-- The checks of RLE_DEC after the magic and the count have been read (44_rle.md R154). -/
theorem decodeStream_after_count (p : Params) (rl : Memory) (n : Nat) (cb : List Byte) (h8 : 8 ≤ n) (hn : n ≤ p.rlCap)
    (hm : readBytes rl 0 4 = .ok rleMagic) (hc : readBytes rl 4 4 = .ok cb) :
    decodeStream p rl n =
      if leNat cb > p.pkCap then raise .capacity
      else if (n - 8) % 2 = 1 then raise .rleBadLength
      else
        match collect (readRecord rl) (List.range ((n - 8) / 2)) with
        | .error h => .error h
        | .ok records =>
          if (records.map RunRecord.run).sum ≠ 2 * leNat cb then raise .rleBadLength else .ok (leNat cb, records) := by
  unfold decodeStream
  rw [if_neg (by omega), if_neg (by omega)]
  simp only [hm, hc]
  exact if_neg (not_not_intro rfl)

/-- Where every check passes, the count fits PK and the runs sum to twice the count (44_rle.md R154). -/
theorem decodeStream_ok (p : Params) (rl : Memory) (n count : Nat) (rs : List RunRecord)
    (h : decodeStream p rl n = .ok (count, rs)) : count ≤ p.pkCap ∧ (rs.map RunRecord.run).sum = 2 * count := by
  unfold decodeStream at h
  by_cases h1 : n > p.rlCap
  · rw [if_pos h1] at h; cases h
  by_cases h2 : n < 8
  · rw [if_neg h1, if_pos h2] at h; cases h
  rw [if_neg h1, if_neg h2] at h
  cases hm : readBytes rl 0 4 with
  | error e => rw [hm] at h; cases h
  | ok magic =>
    simp only [hm] at h
    by_cases h3 : magic ≠ rleMagic
    · rw [if_pos h3] at h; cases h
    rw [if_neg h3] at h
    cases hc : readBytes rl 4 4 with
    | error e => rw [hc] at h; cases h
    | ok cb =>
      simp only [hc] at h
      by_cases h4 : leNat cb > p.pkCap
      · rw [if_pos h4] at h; cases h
      by_cases h5 : (n - 8) % 2 = 1
      · rw [if_neg h4, if_pos h5] at h; cases h
      rw [if_neg h4, if_neg h5] at h
      cases hr : collect (readRecord rl) (List.range ((n - 8) / 2)) with
      | error e => rw [hr] at h; cases h
      | ok records =>
        simp only [hr] at h
        by_cases h6 : (records.map RunRecord.run).sum ≠ 2 * leNat cb
        · rw [if_pos h6] at h; cases h
        · rw [if_neg h6] at h
          simp only [Except.ok.injEq, Prod.mk.injEq] at h
          obtain ⟨rfl, rfl⟩ := h
          exact ⟨by omega, by omega⟩

theorem expandRuns_length (rs : List RunRecord) : (expandRuns rs).length = (rs.map RunRecord.run).sum := by
  simp [expandRuns, List.length_flatMap]

/-- The body of RLE_DEC writes PK from address 0, as many bytes as the count, and PK_LEN (44_rle.md R155). -/
theorem rleDecBody_ok (s s' : State) (h : rleDecBody s = .ok s') :
    ∃ count rs, decodeStream s.params s.rl (s.regs.read .rlLen).toNat = .ok (count, rs) ∧
      count ≤ s.params.pkCap ∧ (packNibbles (expandRuns rs)).length = count ∧
      s' = { s with
        pk := writeBytes s.pk 0 (packNibbles (expandRuns rs))
        regs := { s.regs with pkLen := BitVec.ofNat 32 count } } := by
  unfold rleDecBody at h
  cases hd : decodeStream s.params s.rl (s.regs.read .rlLen).toNat with
  | error e => rw [hd] at h; simp at h
  | ok q =>
    obtain ⟨count, rs⟩ := q
    rw [hd] at h; simp at h
    obtain ⟨hc, hsum⟩ := decodeStream_ok _ _ _ _ _ hd
    exact ⟨count, rs, rfl, hc, by rw [packNibbles_length, expandRuns_length, hsum]; omega, h.symm⟩

end Sys2Proof.Machine
end

