-- ==== Sys2Proof/Laws/Operands.lean ====
section
/-!
SUPPORT. What a register reads in terms of its stored word, and the operands in terms of the registers. Proofs cite these
instead of unfolding `Regs.read`: Lean's kernel computes on literals only in terms without variables.
-/

namespace Sys2Proof.Machine

theorem and_full (w : Word) : w &&& 0xFFFFFFFF#32 = w := by
  have h : (0xFFFFFFFF#32 : Word) = BitVec.allOnes 32 := by decide
  rw [h, BitVec.and_allOnes]

@[simp] theorem Regs.read_cmd (g : Regs) : g.read .cmd = 0#32 := by
  unfold Regs.read Regs.stored
  exact BitVec.zero_and

theorem Regs.read_status (g : Regs) : g.read .status = g.status &&& 0x000000F3#32 := by unfold Regs.read; rfl
theorem Regs.read_config (g : Regs) : g.read .config = g.config &&& 0x00000007#32 := by unfold Regs.read; rfl
theorem Regs.read_width (g : Regs) : g.read .width = g.width &&& 0x0000FFFF#32 := by unfold Regs.read; rfl
theorem Regs.read_height (g : Regs) : g.read .height = g.height &&& 0x0000FFFF#32 := by unfold Regs.read; rfl
theorem Regs.read_color (g : Regs) : g.read .color = g.color &&& 0x00FFFFFF#32 := by unfold Regs.read; rfl
theorem Regs.read_result (g : Regs) : g.read .result = g.result &&& 0x0000070F#32 := by unfold Regs.read; rfl
@[simp] theorem Regs.read_gainLo (g : Regs) : g.read .gainLo = g.gainLo := by unfold Regs.read; exact and_full _
@[simp] theorem Regs.read_gainHi (g : Regs) : g.read .gainHi = g.gainHi := by unfold Regs.read; exact and_full _
@[simp] theorem Regs.read_pkLen (g : Regs) : g.read .pkLen = g.pkLen := by unfold Regs.read; exact and_full _
@[simp] theorem Regs.read_rlLen (g : Regs) : g.read .rlLen = g.rlLen := by unfold Regs.read; exact and_full _

/-- The low half of a word. -/
theorem extract_low16 (w : Word) : ((w &&& 0x0000FFFF#32).extractLsb' 0 16).toNat = w.toNat % 65536 := by
  rw [BitVec.extractLsb'_toNat, BitVec.toNat_and]
  have h : (0x0000FFFF#32 : Word).toNat = 2 ^ 16 - 1 := by decide
  rw [h, Nat.and_two_pow_sub_one_eq_mod]
  simp

theorem State.imageWidth_eq (s : State) : s.imageWidth = s.regs.width.toNat % 65536 := extract_low16 _
theorem State.imageHeight_eq (s : State) : s.imageHeight = s.regs.height.toNat % 65536 := extract_low16 _
theorem State.imageWidth_lt (s : State) : s.imageWidth < 65536 := by rw [s.imageWidth_eq]; omega
theorem State.imageHeight_lt (s : State) : s.imageHeight < 65536 := by rw [s.imageHeight_eq]; omega

theorem State.gainBits_eq (s : State) : s.gainBits = s.regs.gainHi ++ s.regs.gainLo := by simp [State.gainBits]

theorem State.dither_eq (s : State) : s.dither = s.regs.config.getLsbD 0 := by
  unfold State.dither; rw [Regs.read_config]; simp

theorem State.maskEnabled_eq (s : State) : s.maskEnabled = s.regs.config.getLsbD 1 := by
  unfold State.maskEnabled; rw [Regs.read_config]; simp

theorem State.rot180_eq (s : State) : s.rot180 = s.regs.config.getLsbD 2 := by
  unfold State.rot180; rw [Regs.read_config]; simp

/-- The operand of LOOKUP, from the stored word. -/
theorem State.colorOperand_eq (s : State) : s.colorOperand =
    ⟨s.regs.color.extractLsb' 0 8, s.regs.color.extractLsb' 8 8, s.regs.color.extractLsb' 16 8⟩ := by
  unfold State.colorOperand
  rw [Regs.read_color]
  congr 1 <;> (apply BitVec.eq_of_getLsbD_eq; intro i hi; interval_cases i <;> simp)

theorem Regs.reset_gainHi (p : Params) : (Regs.reset p).gainHi = 0x3FF00000#32 := by unfold Regs.reset; rfl
theorem Regs.reset_gainLo (p : Params) : (Regs.reset p).gainLo = 0x00000000#32 := by unfold Regs.reset; rfl
theorem Regs.reset_config (p : Params) : (Regs.reset p).config = 0x00000004#32 := by unfold Regs.reset; rfl
theorem Regs.reset_status (p : Params) : (Regs.reset p).status = 0x00000000#32 := by unfold Regs.reset; rfl

theorem State.badDimensions_iff (s : State) : s.badDimensions = true ↔
    s.imageWidth = 0 ∨ s.imageHeight = 0 ∨ s.imageWidth * s.imageHeight > s.params.maxPixels := by
  simp [State.badDimensions]

theorem State.notPanelSized_iff (s : State) : s.notPanelSized = true ↔
    s.imageWidth ≠ s.params.panelSize ∨ s.imageHeight ≠ s.params.panelSize := by
  simp only [State.notPanelSized, decide_eq_true_eq]

end Sys2Proof.Machine
end

