-- ==== Sys2Proof/Laws/PerInstr.lean ====
section
/-!
SUPPORT. What holds of every command as syntax, one lemma per constructor: its word is a legal command word, and its
four bytes decode back to it (30_encoding.md R80 to R82).
-/

namespace Sys2Proof.Laws.LegalWord

/-- The command's word is legal (30_encoding.md R82), and its bytes as stored carry the command. -/
def Statement (i : Instr) : Prop := commandWordWf (encode i) = true ∧ decodeBytes (wordBytes (encode i)) = some i

theorem nop : Statement .nop := by unfold Statement; decide
theorem lookup : Statement .lookup := by unfold Statement; decide
theorem quant : Statement .quant := by unfold Statement; decide
theorem mask : Statement .mask := by unfold Statement; decide
theorem pack : Statement .pack := by unfold Statement; decide
theorem rleEnc : Statement .rleEnc := by unfold Statement; decide
theorem rleDec : Statement .rleDec := by unfold Statement; decide
theorem convert : Statement .convert := by unfold Statement; decide

end Sys2Proof.Laws.LegalWord
end

