-- ==== Sys2Proof/Laws/Step.lean ====
section
/-!
SUPPORT. Everything one step can do, said once: the block's move, the host's move, or nothing; and what a host access
can do to the state.
-/

namespace Sys2Proof.Machine

theorem step_block (s : State) (h : s.blockMoves = true) : step s = blockStep s.takeTurn := by
  simp [step, machineStep, h]

theorem step_idle (s : State) (hb : s.blockMoves = false) (hs : s.host.script = []) : step s = .next s := by
  simp [step, machineStep, hb, hs]

theorem step_host (s : State) (op : HostOp) (rest : List HostOp) (hb : s.blockMoves = false)
    (hs : s.host.script = op :: rest) : step s = .next (hostStep s.takeTurn) := by
  simp [step, machineStep, hb, hs]

/-- The host's step as the first access of its script, made with that access taken off and one choice used up. -/
theorem step_host_op (s : State) (op : HostOp) (rest : List HostOp) (hb : s.blockMoves = false)
    (hs : s.host.script = op :: rest) :
    step s = .next (hostOp { s with host := { s.host with script := rest, sched := s.host.sched.tail } } op) := by
  rw [step_host s op rest hb hs]
  simp [hostStep, hs, State.takeTurn]

/-- The three ways a step answers a next state. -/
theorem step_next (s t : State) (h : step s = .next t) :
    (s.blockMoves = true ∧ blockStep s.takeTurn = .next t) ∨
      (s.blockMoves = false ∧ s.host.script = [] ∧ t = s) ∨
      (s.blockMoves = false ∧ ∃ op rest, s.host.script = op :: rest ∧ t = hostStep s.takeTurn) := by
  by_cases hb : s.blockMoves = true
  · exact .inl ⟨hb, by rw [← step_block s hb]; exact h⟩
  · have hb : s.blockMoves = false := by simpa using hb
    cases hs : s.host.script with
    | nil => rw [step_idle s hb hs] at h; simp at h; exact .inr (.inl ⟨hb, rfl, h.symm⟩)
    | cons op rest =>
      rw [step_host s op rest hb hs] at h; simp at h
      exact .inr (.inr ⟨hb, op, rest, rfl, h.symm⟩)

/-- The block's move completes the pending command, or reports its illegal word (10_state.md R42, 30_encoding.md R82). -/
theorem blockStep_cases (s : State) :
    (∃ i, decode s.pendingOpc = .ok i ∧ blockStep s = exec i s) ∨
      (∃ e, decode s.pendingOpc = .error e ∧ blockStep s = .next (s.finish .badOpcode)) := by
  unfold blockStep
  cases h : decode s.pendingOpc with
  | ok i => exact .inl ⟨i, rfl, rfl⟩
  | error e => exact .inr ⟨e, rfl, rfl⟩

/-- The block moves only while BUSY = 1. -/
theorem busy_of_blockMoves (s : State) (h : s.blockMoves = true) : s.busy = true := by
  unfold State.blockMoves at h
  simp only [Bool.and_eq_true] at h
  exact h.1

/-- While the block is idle the host has every turn. -/
theorem blockMoves_of_idle (s : State) (h : s.busy = false) : s.blockMoves = false := by
  simp [State.blockMoves, h]

theorem step_ne_refused (s : State) (x : Refusal) : step s ≠ .refused x := by
  by_cases hb : s.blockMoves = true
  · rw [step_block s hb]
    rcases blockStep_cases s.takeTurn with ⟨i, -, h⟩ | ⟨e, -, h⟩ <;> rw [h]
    · exact exec_ne_refused i _ x
    · simp
  · have hb : s.blockMoves = false := by simpa using hb
    cases hs : s.host.script with
    | nil => rw [step_idle s hb hs]; simp
    | cons op rest => rw [step_host s op rest hb hs]; simp

/-! ### Host accesses -/

/-- A refused access marks the fault set and changes nothing else (60_exceptions.md R186). -/
theorem recordRefused_eq (s : State) (legal : Bool) :
    s.recordRefused legal =
      { s with host := { s.host with faults :=
        ⟨s.busy || s.host.faults.hostHazard, !legal || s.host.faults.hostMisuse⟩ } } := by
  obtain ⟨p, g, o, a, b, c, ⟨d, e, f, ⟨hz, ms⟩, k⟩⟩ := s
  cases legal <;> by_cases h : State.busy ⟨p, g, o, a, b, c, ⟨d, e, f, ⟨hz, ms⟩, k⟩⟩ = true <;>
    simp [State.recordRefused, State.recordHazard, State.recordMisuse, h]

/-- A read leaves the block as it is (20_memory.md R65). -/
theorem performRead_block (s : State) (space : Space) (off width : Nat) (x : Option Word) :
    (s.performRead space off width x).params = s.params ∧ (s.performRead space off width x).regs = s.regs ∧
      (s.performRead space off width x).pendingOpc = s.pendingOpc ∧ (s.performRead space off width x).pix = s.pix ∧
      (s.performRead space off width x).pk = s.pk ∧ (s.performRead space off width x).rl = s.rl ∧
      (s.performRead space off width x).host.faults = s.host.faults ∧
      (s.performRead space off width x).host.script = s.host.script ∧
      (s.performRead space off width x).host.sched = s.host.sched := by
  cases space <;> simp [State.performRead]

/-- A host read: the value noted, or the access recorded as a fault, or (outside the windows) nothing; the block is
left as it is in every case. -/
theorem hostRead_block (s : State) (a : HostAddr) (width : Nat) (x : Option Word) :
    (s.hostRead a width x).params = s.params ∧ (s.hostRead a width x).regs = s.regs ∧
      (s.hostRead a width x).pendingOpc = s.pendingOpc ∧ (s.hostRead a width x).pix = s.pix ∧
      (s.hostRead a width x).pk = s.pk ∧ (s.hostRead a width x).rl = s.rl := by
  unfold State.hostRead
  cases resolve s.params a with
  | none => simp
  | some q =>
    obtain ⟨space, off⟩ := q
    simp only
    split_ifs
    · obtain ⟨h1, h2, h3, h4, h5, h6, -⟩ := performRead_block s space off width x
      exact ⟨h1, h2, h3, h4, h5, h6⟩
    · simp [recordRefused_eq]

/-- A host write that does anything to the block is a legal one made while BUSY = 0 (20_memory.md R62, R63;
70_reset_and_hazards.md R203). -/
theorem hostWrite_cases (s : State) (a : HostAddr) (width : Nat) (v : Word) :
    s.hostWrite a width v = s ∨
      (∃ space off, resolve s.params a = some (space, off) ∧ accessLegal s.params space off width = true ∧
        s.busy = false ∧ s.hostWrite a width v = s.performWrite space off width v) ∨
      (∃ legal, s.hostWrite a width v = s.recordRefused legal) := by
  unfold State.hostWrite
  cases resolve s.params a with
  | none => exact .inl rfl
  | some q =>
    obtain ⟨space, off⟩ := q
    simp only
    split_ifs with h
    · simp only [Bool.and_eq_true, Bool.not_eq_true'] at h
      exact .inr (.inl ⟨space, off, rfl, h.1, h.2, rfl⟩)
    · exact .inr (.inr ⟨_, rfl⟩)

/-- A legal host write: a register, a reserved offset (ignored), CMD (a command starts), or bytes of one memory. -/
theorem performWrite_cases (s : State) (space : Space) (off width : Nat) (v : Word) :
    (space = .reg ∧ Reg.ofOffset off = none ∧ s.performWrite space off width v = s) ∨
      (space = .reg ∧ Reg.ofOffset off = some .cmd ∧ s.performWrite space off width v = s.startCommand v) ∨
      (∃ r, space = .reg ∧ Reg.ofOffset off = some r ∧ r ≠ .cmd ∧
        s.performWrite space off width v = { s with regs := s.regs.write r v }) ∨
      (space ≠ .reg ∧ s.performWrite space off width v =
        s.setMemory space (writeBytes (s.memory space) off (leBytes width v))) := by
  cases space with
  | reg =>
    unfold State.performWrite
    cases h : Reg.ofOffset off with
    | none => exact .inl ⟨rfl, rfl, rfl⟩
    | some r =>
      cases r
      case cmd => exact .inr (.inl ⟨rfl, rfl, rfl⟩)
      all_goals exact .inr (.inr (.inl ⟨_, rfl, rfl, by simp, rfl⟩))
  | pix => exact .inr (.inr (.inr ⟨by simp, rfl⟩))
  | pk => exact .inr (.inr (.inr ⟨by simp, rfl⟩))
  | rl => exact .inr (.inr (.inr ⟨by simp, rfl⟩))

/-- The register map's offsets name their registers (10_state.md R22). -/
@[simp] theorem Reg.ofOffset_offset (r : Reg) : Reg.ofOffset r.offset = some r := by cases r <;> rfl

end Sys2Proof.Machine
end

