-- ==== Sys2Proof/Tests/Slice0.lean ====
section
/-!
SUPPORT. Tests. Expected values come from 95_test_vectors.md (the vector's name stands in each docstring) or from the rule
cited. `witness_<Name>` shows states and operands that meet the hypotheses of `Obligations.<Name>`.
-/

set_option Elab.async false

namespace Sys2Proof.Tests

open Sys2Proof.Machine Sys2Proof.Spec

/-! ### Small states -/

/-- The next state of an outcome. -/
def nextOf : Host.Outcome State Fault Refusal → Option State
  | .next s => some s
  | _ => none

/-- Something about the next state; `none` where there is none. -/
def after {α : Type} (o : Host.Outcome State Fault Refusal) (f : State → α) : Option α := (nextOf o).map f

theorem exists_next (o : Host.Outcome State Fault Refusal) (h : (nextOf o).isSome = true) : ∃ t, o = .next t := by
  cases o with
  | next t => exact ⟨t, rfl⟩
  | fault _ => simp [nextOf] at h
  | refused _ => simp [nextOf] at h

/-- Bytes at addresses 0, 1, and so on. -/
def bytesAt0 (bs : List Byte) : Memory := writeBytes [] 0 bs

/-- The reset state with an image of the given size, CONFIG and PIX bytes. -/
def image (w h : Word) (config : Word) (pix : List Byte) : State :=
  { State.reset with
    regs := { State.reset.regs with width := w, height := h, config := config }
    pix := bytesAt0 pix }

/-- The reset state with a bitstream in PK. -/
def packed (bs : List Byte) : State :=
  { State.reset with regs := { State.reset.regs with pkLen := BitVec.ofNat 32 bs.length }, pk := bytesAt0 bs }

/-- The reset state with a stream in RL. -/
def stream (bs : List Byte) : State :=
  { State.reset with regs := { State.reset.regs with rlLen := BitVec.ofNat 32 bs.length }, rl := bytesAt0 bs }

/-- The reset state with the first bytes of a stream in RL and RL_LEN of its own. -/
def partStream (bs : List Byte) (len : Word) : State :=
  { stream bs with regs := { State.reset.regs with rlLen := len } }

/-- The reset state with a gain. -/
def withGain (s : State) (hi lo : Word) : State := { s with regs := { s.regs with gainHi := hi, gainLo := lo } }

/-- The reset state with COLOR. -/
def colour (v : Word) : State := { State.reset with regs := { State.reset.regs with color := v } }

/-- The reset state with a host script and a choice list. -/
def hosted (script : List HostOp) (sched : List Agent) : State :=
  { State.reset with host := { State.reset.host with script := script, sched := sched } }

/-- The same with MASK pending. -/
def busyHosted (script : List HostOp) (sched : List Agent) : State :=
  { (State.reset.startCommand 3#32) with host := (hosted script sched).host }

/-- The colour of each pixel, from its bytes. -/
def pixelOf (m : Memory) (n : Nat) : Rgb :=
  ⟨(m.get (4 * n)).getD 0, (m.get (4 * n + 1)).getD 0, (m.get (4 * n + 2)).getD 0⟩

/-- The four pixels of vectors QF1 to QF4. -/
def fourPixels : List Byte := [200, 100, 50, 7, 100, 200, 50, 8, 10, 10, 200, 9, 128, 128, 128, 255]

/-- The 2x2 image of vector S2: red top left, the rest white. -/
def redCorner : List Byte := [255, 0, 0, 255, 255, 255, 255, 255, 255, 255, 255, 255, 255, 255, 255, 255]

/-- Two grey pixels (vector QD1). -/
def twoGreys : List Byte := [128, 128, 128, 255, 128, 128, 128, 255]

/-- The parameters of T with a 2x2 panel (45_convert.md R170, example). -/
def smallPanel : Params := { Params.reference with panelSize := 2 }

/-- The start of R170's example. -/
def convertStart : State := { image 2 2 4 redCorner with params := smallPanel }

/-- The stream of vectors S2 and EN1. -/
def streamS2 : List Byte := [0x53, 0x50, 0x36, 0x52, 0x02, 0, 0, 0, 0x01, 0x03, 0x03, 0x01]

/-! ### Well-formedness -/

/-- 30_encoding.md R80: bit 8 set. -/
theorem test_zeroField_refuses : zeroField 0x00000102#32 = false := by decide

/-- 30_encoding.md R81: OPC 0x08. -/
theorem test_knownOpcode_refuses : knownOpcode 0x00000008#32 = false := by decide

/-- 30_encoding.md R82: either fault alone makes the word illegal. -/
theorem test_commandWordWf_refuses :
    commandWordWf 0x00000102#32 = false ∧ commandWordWf 0x00000008#32 = false ∧ commandWordWf 0x00000007#32 = true := by decide

/-- 30_encoding.md R94: run 0, and value 0x10. -/
theorem test_recordWf_refuses :
    recordWf 0 1 = false ∧ recordWf 2 0x10 = false ∧ recordWf 1 0x0F = true ∧ recordWf 255 0 = true := by decide

/-- 00_scope.md R7: two entries alike. -/
theorem test_paletteWf_refuses : ({ Palette.reference with e5 := ⟨255, 0, 0⟩ } : Palette).wf = false := by decide

/-- 00_scope.md R6, R7, 20_memory.md R60: each constraint of a parameter set, broken alone. -/
theorem test_paramsWf_refuses :
    Params.reference.wf = true ∧
    ({ Params.reference with palette := { Palette.reference with e0 := ⟨255, 255, 255⟩ } } : Params).wf = false ∧
    ({ Params.reference with panelSize := 0 } : Params).wf = false ∧
    ({ Params.reference with panelSize := 65 } : Params).wf = false ∧
    ({ Params.reference with panelSize := 65536, maxPixels := 2 ^ 40, pkBase := 2 ^ 43, rlBase := 2 ^ 44 } : Params).wf = false ∧
    ({ Params.reference with maxPixels := 0 } : Params).wf = false ∧
    ({ Params.reference with regBase := 0xFFFF } : Params).wf = false ∧
    ({ Params.reference with pkBase := 0x10000 } : Params).wf = false ∧
    ({ Params.reference with rlBase := 0x20000 } : Params).wf = false ∧
    ({ Params.reference with rlBase := 0xFF } : Params).wf = false ∧
    ({ Params.reference with pkBase := 0xFF } : Params).wf = false ∧
    ({ Params.reference with rlBase := 0x13FFF } : Params).wf = false := by decide +kernel

/-! ### Decoding: words written out bit by bit from 30_encoding.md R80, R81 (bits 31:8 zero, bits 7:0 the OPC) -/

theorem test_decode_nop : decode 0b00000000000000000000000000000000#32 = .ok .nop := by decide
theorem test_decode_lookup : decode 0b00000000000000000000000000000001#32 = .ok .lookup := by decide
theorem test_decode_quant : decode 0b00000000000000000000000000000010#32 = .ok .quant := by decide
theorem test_decode_mask : decode 0b00000000000000000000000000000011#32 = .ok .mask := by decide
theorem test_decode_pack : decode 0b00000000000000000000000000000100#32 = .ok .pack := by decide
theorem test_decode_rleEnc : decode 0b00000000000000000000000000000101#32 = .ok .rleEnc := by decide
theorem test_decode_rleDec : decode 0b00000000000000000000000000000110#32 = .ok .rleDec := by decide
theorem test_decode_convert : decode 0b00000000000000000000000000000111#32 = .ok .convert := by decide

/-- CW1 to CW5. -/
theorem test_decode_illegal :
    decode 0x00000008#32 = .error .reservedOpcode ∧ decode 0x000000FF#32 = .error .reservedOpcode ∧
    decode 0x00000102#32 = .error .nonzeroHighBits ∧ decode 0x80000000#32 = .error .nonzeroHighBits ∧
    decode 0xFFFFFFFF#32 = .error .nonzeroHighBits := by decide

/-- Opcode-table words, in the table's numbering; bit 31 set is illegal. -/
theorem test_decodeTableWord :
    decodeTableWord 32 0x7 = some .convert ∧ decodeTableWord 32 0x0 = some .nop ∧
    decodeTableWord 32 0x80000007 = none ∧ decodeTableWord 32 0x8 = none := by decide

/-! ### Commands -/

/-- CW6. -/
theorem test_nop : after (exec .nop State.reset) (fun s => s.regs.read .status) = some 0x00000002#32 := by decide

/-- CW7: NOP clears a stale ERR. -/
theorem test_nop_clears_err :
    after (exec .nop (State.reset.finish .badOpcode)) (fun s => s.regs.read .status) = some 0x00000002#32 := by decide

/-- LK11: blue, position 4, code 5. -/
theorem test_lookup_code_is_not_position :
    after (exec .lookup (colour 0x00C80A0A#32)) (fun s => s.regs.read .result) = some 0x00000405#32 := by decide +kernel

/-- LK15: red and blue tie, and the lower position wins. -/
theorem test_lookup_tie :
    after (exec .lookup (colour 0x00800080#32)) (fun s => s.regs.read .result) = some 0x00000303#32 := by decide +kernel

/-- QF2: gain 2.0 touches green only and clamps. -/
theorem test_quant_gain :
    after (exec .quant (withGain (image 4 1 4 fourPixels) 0x40000000#32 0)) (fun s => s.pix.map Prod.snd) =
      some [255, 255, 0, 7, 0, 255, 0, 8, 0, 0, 255, 9, 255, 255, 255, 255] := by decide +kernel

/-- QD1: the error of the first pixel turns the second black. -/
theorem test_quant_dither :
    after (exec .quant (image 2 1 5 twoGreys)) (fun s => s.pix.map Prod.snd) =
      some [255, 255, 255, 255, 0, 0, 0, 255] := by decide +kernel

/-- MK9 and RS6: w = 2, h = 4 masks the top and bottom rows, whose bytes nothing has written; alpha stays unwritten. -/
theorem test_mask_two_by_four :
    after (exec .mask (image 2 4 4 [])) (fun s => s.pix.map Prod.fst) =
      some [0, 1, 2, 4, 5, 6, 24, 25, 26, 28, 29, 30] := by decide +kernel

/-- MK10: the radius uses the width, so w = 4, h = 2 masks nothing. -/
theorem test_mask_four_by_two : after (exec .mask (image 4 2 4 [])) (fun s => s.pix) = some [] := by decide +kernel

/-- S2 with ROT180 = 1. -/
theorem test_pack_rotated :
    after (exec .pack (image 2 2 4 redCorner)) (fun s => (s.pk.map Prod.snd, s.regs.pkLen)) =
      some ([0x31, 0x11], 2#32) := by decide +kernel

/-- S2 with ROT180 = 0. -/
theorem test_pack_unrotated :
    after (exec .pack (image 2 2 0 redCorner)) (fun s => s.pk.map Prod.snd) = some [0x11, 0x13] := by decide +kernel

/-- EN6. -/
theorem test_rleEnc :
    after (exec .rleEnc (packed [0x11, 0x11, 0x11, 0x11, 0x10])) (fun s => (s.rl.map Prod.snd, s.regs.rlLen)) =
      some ([0x53, 0x50, 0x36, 0x52, 5, 0, 0, 0, 9, 1, 1, 0], 12#32) := by decide +kernel

/-- EN14. -/
theorem test_rleEnc_capacity :
    exec .rleEnc { State.reset with regs := { State.reset.regs with pkLen := 2049#32 } } =
      .next { State.reset with regs := { State.reset.regs with pkLen := 2049#32, status := 0x42#32 } } := by rfl

/-- P5's second decode: a split that is not canonical. -/
theorem test_rleDec :
    after (exec .rleDec (stream [0x53, 0x50, 0x36, 0x52, 3, 0, 0, 0, 1, 0, 1, 1, 4, 1]))
      (fun s => (s.pk.map Prod.snd, s.regs.pkLen)) = some ([0x01, 0x11, 0x11], 3#32) := by decide +kernel

/-- DE15: the magic is checked before the records. -/
theorem test_rleDec_magic_first :
    after (exec .rleDec (stream [0x53, 0x50, 0x36, 0x53, 2, 0, 0, 0, 0, 1, 4, 1])) (fun s => (s.pk, s.regs.status)) =
      some ([], 0x52#32) := by decide +kernel

/-- 45_convert.md R170, example. -/
theorem test_convert :
    after (exec .convert convertStart) (fun s => (s.pk.map Prod.snd, s.rl.map Prod.snd)) =
      some ([0x31, 0x11], streamS2) := by decide +kernel

/-- CV11: the dimension check comes before the gain check. -/
theorem test_convert_dimensions_first :
    after (exec .convert (withGain (image 2 4 4 []) 0xBFF00000#32 0)) (fun s => s.regs.status) = some 0x22#32 := by decide +kernel

/-! ### Steps -/

/-- RS2 through a step: the word placed for the next step runs as the first command after reset. -/
theorem test_step_runs_rleEnc :
    after (step (State.reset.withFetchWord 32 0x5)) (fun s => (s.rl.map Prod.snd, s.regs.rlLen)) =
      some ([0x53, 0x50, 0x36, 0x52, 0, 0, 0, 0], 8#32) := by decide +kernel

/-- CW3 through a step: QUANT with bit 8 set does not run. -/
theorem test_step_bad_opcode :
    after (step (State.reset.withFetchWord 32 0x102)) (fun s => (s.regs.status, s.pix)) = some (0x12#32, []) := by decide

/-- RS5: PACK after reset reads an unwritten byte. -/
theorem test_step_unwritten : step (State.reset.withFetchWord 32 0x4) = .fault .readUnwritten := by rfl

/-- RS7: a write of WIDTH between the CMD write and the block's step is HostHazard, and has no effect. -/
theorem test_step_hazard :
    after (step { hosted [.write (.at .reg 0x0C) 4 3] [.host] with regs := { State.reset.regs with status := 1#32 } })
      (fun s => (s.host.faults, s.regs.width)) = some (⟨true, false⟩, 4#32) := by decide

/-- CW9: WIDTH keeps its low 16 bits. -/
theorem test_register_write :
    (State.reset.hostWrite (.at .reg 0x0C) 4 0x00012345#32).regs.read .width = 0x00002345#32 := by decide

/-- RS10: a 16-bit read of a register is HostMisuse, and returns nothing. -/
theorem test_register_width : (State.reset.hostRead (.at .reg 0x04) 2 none).host.faults = ⟨false, true⟩ ∧
    (State.reset.hostRead (.at .reg 0x04) 2 none).host.reads = [] := by decide

/-! ### Host scripts -/

/-- P4: `GAIN 2.0` writes GAIN_LO, then GAIN_HI; R84's 1.25 and 0.5 likewise. -/
theorem test_script_gain :
    ScriptLine.expand (.gain false 20 1) = [writeReg .gainLo 0, writeReg .gainHi 0x40000000#32] ∧
    ScriptLine.expand (.gain false 125 2) = [writeReg .gainLo 0, writeReg .gainHi 0x3FF40000#32] ∧
    ScriptLine.expand (.gain false 5 1) = [writeReg .gainLo 0, writeReg .gainHi 0x3FE00000#32] := by decide +kernel

/-- P3: `CFG 1, 1, 1`; P4: `CHECK 3`. -/
theorem test_script_lines :
    ScriptLine.expand (.cfg true true true) = [.write (.at .reg 0x08) 4 0x00000007#32] ∧
    ScriptLine.expand (.checkErr 3) = [.read (.at .reg 0x04) 4 (some 0x00000032#32)] := by decide

/-! ### Witnesses -/

/-- The largest panel and the smallest capacity meet the constraints too. -/
theorem witness_ResetStateValues : Params.reference.wf = true ∧
    ({ Params.reference with panelSize := 1, maxPixels := 1 } : Params).wf = true ∧
    ({ Params.reference with
        panelSize := 65535, maxPixels := 65535 * 65535, pkBase := 0x500000000, rlBase := 0x800000000 } : Params).wf = true := by
  decide +kernel

/-- RS9: reset while a command is pending. -/
theorem witness_ResetEventRestoresTheBlock :
    ({ hosted [.reset] [.host] with regs := { State.reset.regs with status := 1#32 }, pendingOpc := 7#32 } : State).host.script =
      .reset :: [] ∧
    ({ hosted [.reset] [.host] with regs := { State.reset.regs with status := 1#32 }, pendingOpc := 7#32 } : State).blockMoves =
      false := by decide

theorem witness_ResetMeetsTheMachineInvariant : Params.reference.wf = true := by decide +kernel

/-- A block step, RLE_ENC of the empty bitstream, from a state that meets the invariant. -/
theorem witness_StepKeepsTheMachineInvariant :
    (State.reset.withFetchWord 32 5).Inv ∧ ∃ t, step (State.reset.withFetchWord 32 5) = .next t :=
  ⟨by unfold State.Inv; decide +kernel, exists_next _ (by decide +kernel)⟩

/-- A state in which both faults are recorded. -/
theorem witness_StepKeepsFaultsAndParameters :
    (withFaults (State.reset.withFetchWord 32 5) true true).host.faults = ⟨true, true⟩ ∧
    ∃ t, step (withFaults (State.reset.withFetchWord 32 5) true true) = .next t :=
  ⟨by decide, exists_next _ (by decide +kernel)⟩

/-- A value for each clause, where the clauses meet. -/
theorem witness_DecodeRejectsByName :
    256 ≤ (0x100#32).toNat ∧ (8 ≤ (0xFF#32).toNat ∧ (0xFF#32).toNat < 256) ∧ (8 ≤ (0x8#32).toNat ∧ (0x8#32).toNat < 256) ∧
    (0x7#32).toNat < 8 := by decide

theorem witness_CmdWriteStartsTheCommand :
    (hosted [.write (.at .reg 0x00) 4 7#32, .wait] []).busy = false ∧
    (hosted [.write (.at .reg 0x00) 4 7#32, .wait] []).host.script = .write (.at .reg 0x00) 4 7#32 :: [.wait] := by decide

theorem witness_StepRunsTheDecodedCommand :
    ((State.reset.withFetchWord 32 3).blockMoves = true ∧ decode (State.reset.withFetchWord 32 3).pendingOpc = .ok .mask) ∧
    ((State.reset.withFetchWord 32 8).blockMoves = true ∧
      decode (State.reset.withFetchWord 32 8).pendingOpc = .error .reservedOpcode) := by decide

/-- No access left, each kind of access, and `WAIT` both while BUSY = 0 and while BUSY = 1 (where the host has the turn). -/
theorem witness_StepMakesTheHostAccess :
    (State.reset.blockMoves = false ∧ State.reset.host.script = []) ∧
    ∀ op ∈ [HostOp.read (.bus 0x10000) 4 none, .write (.at .reg 0x00) 4 7, .wait, .reset],
      ((hosted [op] []).blockMoves = false ∧ (hosted [op] []).busy = false ∧ (hosted [op] []).host.script = op :: []) ∧
      ((busyHosted [op] [.host]).blockMoves = false ∧ (busyHosted [op] [.host]).busy = true ∧
        (busyHosted [op] [.host]).host.script = op :: []) := by decide

/-- The least illegal OPC, the greatest, and a legal OPC under a nonzero bit. -/
theorem witness_IllegalWordRaisesBadOpcode :
    ∀ w ∈ [0x08, 0xFF, 0x102, 0x100, 0xFFFFFFFF],
      (0x08 ≤ (State.reset.withFetchWord 32 w).pendingOpc.toNat % 256 ∨
        (State.reset.withFetchWord 32 w).pendingOpc.toNat / 256 ≠ 0) := by decide

theorem witness_CompletionReportsAListedCode : ∃ t, exec .pack (image 2 2 4 redCorner) = .next t :=
  exists_next _ (by decide +kernel)

/-- CW14: QUANT with WIDTH = 0. -/
theorem witness_FailedCommandChangesOnlyStatus :
    ∃ t, exec .quant (image 0 4 4 []) = .next t ∧ t.err ≠ 0#4 :=
  ⟨withStatus (image 0 4 4 []) 0x22#32, by rfl, by decide⟩

/-- Every command completes somewhere. -/
theorem witness_CommandFrame :
    (∃ t, exec .nop State.reset = .next t) ∧ (∃ t, exec .lookup State.reset = .next t) ∧
    (∃ t, exec .quant (image 4 1 4 fourPixels) = .next t) ∧ (∃ t, exec .mask State.reset = .next t) ∧
    (∃ t, exec .pack (image 2 2 4 redCorner) = .next t) ∧ (∃ t, exec .rleEnc State.reset = .next t) ∧
    (∃ t, exec .rleDec (stream streamS2) = .next t) ∧ (∃ t, exec .convert convertStart = .next t) :=
  ⟨exists_next _ (by decide), exists_next _ (by decide +kernel), exists_next _ (by decide +kernel),
   exists_next _ (by decide +kernel), exists_next _ (by decide +kernel), exists_next _ (by decide +kernel),
   exists_next _ (by decide +kernel), exists_next _ (by decide +kernel)⟩

theorem witness_AlphaNeverWritten : ∃ t, exec .quant (image 2 1 5 twoGreys) = .next t :=
  exists_next _ (by decide +kernel)

/-- Another alpha byte at pixel 0, and one where the first image has none (QF10). -/
theorem witness_AlphaNeverRead :
    SameButAlpha (image 1 1 4 [200, 100, 50]).pix ((image 1 1 4 [200, 100, 50]).pix.set 3 9) := by
  intro a ha
  rw [Memory.get_set, if_neg]
  omega

/-- Position 4, whose code is 5. -/
theorem witness_LookupOfAPaletteColour :
    (colour 0x00FF0000#32).params.palette.wf = true ∧
    (colour 0x00FF0000#32).colorOperand = paletteAt (colour 0x00FF0000#32).params.palette 4 := by decide

/-- A tie: 2^53 + 1 lies midway between 2^53 and 2^53 + 2, both of at most 53 bits, and goes to 2^53, whose last bit is 0;
and 2^53 + 3 goes up to 2^53 + 4. The quotient 1/3 has no tie. -/
theorem witness_RoundingIsToNearest :
    (0 < 1 ∧ Short (2 ^ 53 + 2) ∧ F64.roundMag (2 ^ 53 + 1) 1 = 2 ^ 53 ∧
      offBy (2 ^ 53) (2 ^ 53 + 1) 1 = offBy (2 ^ 53 + 2) (2 ^ 53 + 1) 1) ∧
    F64.roundMag (2 ^ 53 + 3) 1 = 2 ^ 53 + 4 ∧ (0 < 3 ∧ 7 ≠ 0 ∧ Short 7) := by
  unfold Short
  refine ⟨⟨by decide, ?_, by decide +kernel, by decide +kernel⟩, by decide +kernel, by decide, by decide, ?_⟩
  · rw [show Nat.log2 (2 ^ 53 + 2) = 53 by decide +kernel]; decide +kernel
  · rw [show Nat.log2 7 = 2 by decide +kernel]; decide +kernel

/-- QF5's tie, a finite colour that is no integer colour, and a colour with an infinite channel. -/
theorem witness_NearestIsTheLowestLeastDistance :
    ((F64.ofNat 0).isFinite = true ∧ (F64.div (F64.ofNat 255) (F64.ofNat 2)).isFinite = true) ∧
    nearest Palette.reference ⟨F64.ofNat 0, F64.div (F64.ofNat 255) (F64.ofNat 2), F64.ofNat 0⟩ = .ok 0 ∧
    (F64.inf false).isFinite = false := by decide +kernel

theorem witness_ArithmeticExactOnSmallIntegers :
    (2 ^ 26 ≤ 2 ^ 26 ∧ 0 ≤ 2 ^ 26 ∧ 0 ≤ 2 ^ 26) ∧ (0 ≤ 2 ^ 26 ∧ 1 ≤ 2 ^ 26 ∧ 0 < 1) := by decide

/-- Each of the three disjuncts alone; 17 x 241 is one pixel more than MAX_PIXELS. -/
theorem witness_BadDimensionsRejected :
    (image 0 4 4 []).imageWidth = 0 ∧ (image 4 0 4 []).imageHeight = 0 ∧
    (image 17 241 4 []).imageWidth * (image 17 241 4 []).imageHeight = (image 17 241 4 []).params.maxPixels + 1 := by
  decide +kernel

/-- CV8: only the height is wrong; and only the width. -/
theorem witness_ConvertRejectsOtherSizes :
    (image 4 2 4 []).imageHeight ≠ (image 4 2 4 []).params.panelSize ∧
    (image 2 4 4 []).imageWidth ≠ (image 2 4 4 []).params.panelSize := by decide +kernel

/-- CW16 to CW20: -1.0, a NaN, both infinities, the NaN of least fraction. -/
theorem witness_BadGainRejected :
    ¬ LegalGain (withGain State.reset 0xBFF00000#32 0#32).gainBits ∧ ¬ LegalGain (withGain State.reset 0x7FF80000#32 0#32).gainBits ∧
    ¬ LegalGain (withGain State.reset 0x7FF00000#32 0#32).gainBits ∧ ¬ LegalGain (withGain State.reset 0xFFF00000#32 0#32).gainBits ∧
    ¬ LegalGain (withGain State.reset 0x7FF00000#32 1#32).gainBits ∧
    LegalDims (withGain State.reset 0x7FF00000#32 1#32) ∧
    (withGain State.reset 0x7FF00000#32 1#32).imageWidth = (withGain State.reset 0x7FF00000#32 1#32).params.panelSize ∧
    (withGain State.reset 0x7FF00000#32 1#32).imageHeight = (withGain State.reset 0x7FF00000#32 1#32).params.panelSize := by
  refine ⟨?_, ?_, ?_, ?_, ?_, ?_, ?_, ?_⟩ <;> (try unfold LegalGain) <;> (try unfold LegalDims) <;> decide +kernel

/-- RS5 (PACK, QUANT and CONVERT at their first byte and at their last) and EN15. -/
theorem witness_UnwrittenInputFaults :
    (LegalDims State.reset ∧ LegalGain State.reset.gainBits ∧ 0 < pixelCount State.reset ∧ State.reset.pix.get (4 * 0 + 0) = none ∧
      15 < pixelCount State.reset ∧ State.reset.pix.get (4 * 15 + 2) = none) ∧
    (State.reset.params.wf = true ∧ State.reset.imageWidth = State.reset.params.panelSize ∧
      State.reset.imageHeight = State.reset.params.panelSize) ∧
    (∃ s : State, s = { packed [0x31, 0x11] with regs := { State.reset.regs with pkLen := 3#32 } } ∧
      s.regs.pkLen.toNat ≤ s.params.pkCap ∧ 2 < s.regs.pkLen.toNat ∧ s.pk.get 2 = none) := by
  refine ⟨?_, ?_, ⟨_, rfl, ?_⟩⟩ <;> (try unfold LegalGain LegalDims pixelCount) <;> decide +kernel

/-- RLE_DEC at the last magic byte, at the last count byte, at a record's value byte after a run of 0, and (DE19) at the
run byte of the second record. -/
theorem witness_UnwrittenInputFaults_rleDec :
    ((partStream [0x53, 0x50, 0x36] 8).regs.rlLen.toNat = 8 ∧ 8 ≤ (partStream [0x53, 0x50, 0x36] 8).params.rlCap ∧
      (partStream [0x53, 0x50, 0x36] 8).rl.get 3 = none) ∧
    (HasMagic (partStream [0x53, 0x50, 0x36, 0x52, 1, 0, 0] 8).rl ∧ (partStream [0x53, 0x50, 0x36, 0x52, 1, 0, 0] 8).rl.get 7 = none) ∧
    (HasMagic (partStream [0x53, 0x50, 0x36, 0x52, 1, 0, 0, 0, 0] 10).rl ∧
      HasCount (partStream [0x53, 0x50, 0x36, 0x52, 1, 0, 0, 0, 0] 10).rl 1 ∧ (9 - 8) / 2 = 0 ∧
      (partStream [0x53, 0x50, 0x36, 0x52, 1, 0, 0, 0, 0] 10).rl.get 9 = none) ∧
    (HasMagic (partStream [0x53, 0x50, 0x36, 0x52, 1, 0, 0, 0, 2, 1] 12).rl ∧
      HasCount (partStream [0x53, 0x50, 0x36, 0x52, 1, 0, 0, 0, 2, 1] 12).rl 1 ∧
      RecordsBefore (partStream [0x53, 0x50, 0x36, 0x52, 1, 0, 0, 0, 2, 1] 12).rl ((10 - 8) / 2) (fun _ => (2, 1)) ∧
      (partStream [0x53, 0x50, 0x36, 0x52, 1, 0, 0, 0, 2, 1] 12).rl.get 10 = none) := by
  unfold HasMagic HasCount RecordsBefore RecordIs GoodRecord
  refine ⟨by decide +kernel, by decide +kernel, ⟨by decide +kernel, ⟨1, 0, 0, 0, by decide +kernel⟩, by decide +kernel⟩,
    ⟨by decide +kernel, ⟨1, 0, 0, 0, by decide +kernel⟩, by decide +kernel⟩⟩

/-- QF1's start: legal, flat, gain 1.0, written. It meets the next statement's hypotheses as well. -/
theorem witness_FlatQuantResult :
    LegalDims (image 4 1 4 fourPixels) ∧ LegalGain (image 4 1 4 fourPixels).gainBits ∧
    (image 4 1 4 fourPixels).dither = false ∧
    ∀ n, n < pixelCount (image 4 1 4 fourPixels) →
      PixelIs (image 4 1 4 fourPixels).pix n (pixelOf (image 4 1 4 fourPixels).pix n) := by
  unfold LegalGain LegalDims pixelCount PixelIs; decide +kernel

theorem witness_FlatQuantAtUnitGain :
    LegalDims (image 4 1 4 fourPixels) ∧ (image 4 1 4 fourPixels).gainBits = 0x3FF0000000000000#64 ∧
    (image 4 1 4 fourPixels).dither = false ∧
    ∀ n, n < pixelCount (image 4 1 4 fourPixels) →
      PixelIs (image 4 1 4 fourPixels).pix n (pixelOf (image 4 1 4 fourPixels).pix n) := by
  unfold LegalDims pixelCount PixelIs; decide +kernel

theorem witness_FlatQuantIdempotent :
    (image 4 1 4 fourPixels).pix.wf = true ∧ (image 4 1 4 fourPixels).gainBits = 0x3FF0000000000000#64 ∧
    (image 4 1 4 fourPixels).dither = false ∧ ∃ t, exec .quant (image 4 1 4 fourPixels) = .next t :=
  ⟨by decide +kernel, by decide +kernel, by decide +kernel, exists_next _ (by decide +kernel)⟩

/-- QD1's start. -/
theorem witness_DitherQuantCompletes :
    LegalDims (image 2 1 5 twoGreys) ∧ LegalGain (image 2 1 5 twoGreys).gainBits ∧
    (image 2 1 5 twoGreys).dither = true ∧
    ∀ n, n < pixelCount (image 2 1 5 twoGreys) →
      PixelIs (image 2 1 5 twoGreys).pix n (pixelOf (image 2 1 5 twoGreys).pix n) := by
  unfold LegalGain LegalDims pixelCount PixelIs; decide +kernel

theorem witness_DitherFollowsTheScan :
    LegalDims (image 2 1 5 twoGreys) ∧ LegalGain (image 2 1 5 twoGreys).gainBits ∧
    (image 2 1 5 twoGreys).dither = true ∧
    (∀ n, n < pixelCount (image 2 1 5 twoGreys) →
      PixelIs (image 2 1 5 twoGreys).pix n (pixelOf (image 2 1 5 twoGreys).pix n)) ∧
    ∃ t, exec .quant (image 2 1 5 twoGreys) = .next t :=
  ⟨witness_DitherQuantCompletes.1, witness_DitherQuantCompletes.2.1, witness_DitherQuantCompletes.2.2.1,
   witness_DitherQuantCompletes.2.2.2, exists_next _ (by decide +kernel)⟩

/-- QD11's start. -/
theorem witness_DitherOfOnePixelIsFlat :
    (image 1 1 5 [200, 100, 50, 7]).imageWidth = 1 ∧ (image 1 1 5 [200, 100, 50, 7]).imageHeight = 1 ∧
    (image 1 1 5 [200, 100, 50, 7]).dither = true ∧ ∃ t, exec .quant (image 1 1 5 [200, 100, 50, 7]) = .next t :=
  ⟨by decide +kernel, by decide +kernel, by decide +kernel, exists_next _ (by decide +kernel)⟩

/-- CW22, and capacity exactly full: 64 x 64. -/
theorem witness_MaskWhitensOutsideTheDisk : ¬ LegalDims (image 4 0 4 []) ∧ LegalDims (image 64 64 4 []) := by
  unfold LegalDims; decide +kernel

theorem witness_MaskIdempotent : (image 4 4 4 []).pix.wf = true ∧ ∃ t, exec .mask (image 4 4 4 []) = .next t :=
  ⟨by decide +kernel, exists_next _ (by decide +kernel)⟩

theorem witness_MaskGeometry : (0 < 4 ∧ 3 < 4) ∧ 0 < 1 ∧ (3 ≤ 3 ∧ 2 < 3) := by decide

/-- S2, its pixels at positions 3, 1, 1, 1. -/
theorem witness_PackClosedForm :
    LegalDims (image 2 2 4 redCorner) ∧
    (∀ n, n < pixelCount (image 2 2 4 redCorner) →
      PixelIs (image 2 2 4 redCorner).pix n (pixelOf (image 2 2 4 redCorner).pix n)) ∧
    ∀ n, n < pixelCount (image 2 2 4 redCorner) →
      IsNearest (image 2 2 4 redCorner).params.palette (pixelOf (image 2 2 4 redCorner).pix n) (if n = 0 then 3 else 1) := by
  unfold LegalDims pixelCount PixelIs IsNearest; decide +kernel

/-- S2's bitstream. -/
theorem witness_RleEncResult :
    [0x31#8, 0x11#8].length = (packed [0x31, 0x11]).regs.pkLen.toNat ∧
    [0x31#8, 0x11#8].length ≤ (packed [0x31, 0x11]).params.pkCap ∧
    (∀ i, i < [0x31#8, 0x11#8].length → (packed [0x31, 0x11]).pk.get i = [0x31#8, 0x11#8][i]?) ∧
    (rleEncode [0x31, 0x11]).length < 4294967296 := by decide +kernel

theorem witness_RleEncodingIsGreedy : ∃ a b : RunRecord,
    (runsOf (nibblesOf (List.replicate 128 0)))[0]? = some a ∧ (runsOf (nibblesOf (List.replicate 128 0)))[1]? = some b ∧
    a.val = b.val := ⟨⟨255, 0⟩, ⟨1, 0⟩, by decide +kernel, by decide +kernel, rfl⟩

theorem witness_RleEncodingLengthBounds : ([] : List Byte) = [] ∧ [0x31#8] ≠ [] := by decide

/-- EN14 (one byte too many), one RL byte too many, and DE7 (RL_LEN = 7). -/
theorem witness_RleLengthChecks :
    State.reset.params.pkCap < (2049#32).toNat ∧ State.reset.params.rlCap < (8201#32).toNat ∧ (7#32).toNat < 8 := by
  decide +kernel

/-- A stream for each clause, with nothing written past the bytes the clause's checks read: a wrong magic, DE9's count,
DE10's odd body, DE12's record as the first of two, and (wholly written) DE13's run sum. -/
theorem witness_RleDecReportsTheFirstError :
    (∀ a ∈ [(0, 0x53#8), (1, 0x50#8), (2, 0x36#8), (3, 0x51#8)], (partStream [0x53, 0x50, 0x36, 0x51] 12).rl.get a.1 = some a.2) ∧
    (HasMagic (partStream [0x53, 0x50, 0x36, 0x52, 1, 8, 0, 0] 12).rl ∧
      HasCount (partStream [0x53, 0x50, 0x36, 0x52, 1, 8, 0, 0] 12).rl 2049 ∧
      (partStream [0x53, 0x50, 0x36, 0x52, 1, 8, 0, 0] 12).params.pkCap < 2049) ∧
    (HasMagic (partStream [0x53, 0x50, 0x36, 0x52, 2, 0, 0, 0] 11).rl ∧
      HasCount (partStream [0x53, 0x50, 0x36, 0x52, 2, 0, 0, 0] 11).rl 2 ∧
      (partStream [0x53, 0x50, 0x36, 0x52, 2, 0, 0, 0] 11).regs.rlLen.toNat % 2 = 1) ∧
    (HasMagic (partStream [0x53, 0x50, 0x36, 0x52, 1, 0, 0, 0, 2, 0x10] 12).rl ∧
      HasCount (partStream [0x53, 0x50, 0x36, 0x52, 1, 0, 0, 0, 2, 0x10] 12).rl 1 ∧
      RecordsBefore (partStream [0x53, 0x50, 0x36, 0x52, 1, 0, 0, 0, 2, 0x10] 12).rl 0 (fun _ => (2, 0x10)) ∧
      RecordIs (partStream [0x53, 0x50, 0x36, 0x52, 1, 0, 0, 0, 2, 0x10] 12).rl 0 (2, 0x10) ∧ ¬ GoodRecord (2, 0x10)) ∧
    (HasMagic (stream [0x53, 0x50, 0x36, 0x52, 2, 0, 0, 0, 3, 1]).rl ∧
      HasCount (stream [0x53, 0x50, 0x36, 0x52, 2, 0, 0, 0, 3, 1]).rl 2 ∧
      RecordsBefore (stream [0x53, 0x50, 0x36, 0x52, 2, 0, 0, 0, 3, 1]).rl ((10 - 8) / 2) (fun _ => (3, 1)) ∧
      runSum ((List.range ((10 - 8) / 2)).map fun _ => (3, 1)) ≠ 2 * 2) := by
  unfold HasMagic HasCount RecordsBefore RecordIs GoodRecord
  refine ⟨by decide +kernel, ⟨by decide +kernel, ⟨1, 8, 0, 0, by decide +kernel⟩, by decide +kernel⟩,
    ⟨by decide +kernel, ⟨2, 0, 0, 0, by decide +kernel⟩, by decide +kernel⟩,
    ⟨by decide +kernel, ⟨1, 0, 0, 0, by decide +kernel⟩, by decide +kernel⟩,
    ⟨by decide +kernel, ⟨2, 0, 0, 0, by decide +kernel⟩, by decide +kernel⟩⟩

theorem witness_RleDecResult :
    streamS2.length = (stream streamS2).regs.rlLen.toNat ∧ 8 ≤ streamS2.length ∧
    streamS2.length ≤ (stream streamS2).params.rlCap ∧
    (∀ i, i < streamS2.length → (stream streamS2).rl.get i = streamS2[i]?) ∧
    streamStatus (stream streamS2).params.pkCap streamS2 = 0x02#32 := by decide +kernel

theorem witness_RleRoundTrip :
    [0x31#8, 0x11#8].length = (packed [0x31, 0x11]).regs.pkLen.toNat ∧
    [0x31#8, 0x11#8].length ≤ (packed [0x31, 0x11]).params.pkCap ∧
    (∀ i, i < [0x31#8, 0x11#8].length → (packed [0x31, 0x11]).pk.get i = [0x31#8, 0x11#8][i]?) ∧
    (rleEncode [0x31, 0x11]).length < 4294967296 := witness_RleEncResult

theorem witness_ConvertEqualsItsStages :
    convertStart.params.wf = true ∧ convertStart.imageWidth = convertStart.params.panelSize ∧
    convertStart.imageHeight = convertStart.params.panelSize ∧ LegalGain convertStart.gainBits := by
  unfold LegalGain; decide +kernel

theorem witness_ConvertCompletes :
    convertStart.params.wf = true ∧ convertStart.imageWidth = convertStart.params.panelSize ∧
    convertStart.imageHeight = convertStart.params.panelSize ∧ LegalGain convertStart.gainBits ∧
    ∀ n, n < pixelCount convertStart → PixelIs convertStart.pix n (pixelOf convertStart.pix n) := by
  unfold LegalGain pixelCount PixelIs; decide +kernel

theorem witness_RegisterWritesReadBack : State.reset.busy = false ∧ Reg.config ≠ .cmd ∧ Reg.width ≠ .config := by decide

theorem witness_ReservedOffsetsReadZero :
    State.reset.busy = false ∧ (0x2C ≤ 0x2C ∧ 0x2C < 0x100 ∧ 0x2C % 4 = 0) ∧ (0x2C ≤ 0xFC ∧ 0xFC < 0x100 ∧ 0xFC % 4 = 0) := by
  decide

/-- The last word of PIX, and the last byte of PK. -/
theorem witness_HostMemoryWrite :
    State.reset.busy = false ∧ LegalAccess State.reset.params .pix 16380 4 ∧ LegalAccess State.reset.params .pk 2047 1 := by
  unfold LegalAccess; decide +kernel

/-- The last word of PIX with nothing written, a 16-bit read of PK with one byte written, a byte of RL. -/
theorem witness_HostMemoryRead :
    State.reset.busy = false ∧ LegalAccess State.reset.params .pix 16380 4 ∧
    LegalAccess (packed [0x31]).params .pk 0 2 ∧ (packed [0x31]).pk.get 0 = some 0x31 ∧
    LegalAccess (stream streamS2).params .rl 4 4 ∧ (stream streamS2).rl.get 4 = some 2 := by
  unfold LegalAccess; decide +kernel

/-- A wholly written pixel. -/
theorem witness_HostReadsAPixel :
    (image 1 1 4 [200, 100, 50, 7]).busy = false ∧ 0 < (image 1 1 4 [200, 100, 50, 7]).params.maxPixels ∧
    (image 1 1 4 [200, 100, 50, 7]).pix.get (4 * 0) = some 200 ∧ (image 1 1 4 [200, 100, 50, 7]).pix.get (4 * 0 + 1) = some 100 ∧
    (image 1 1 4 [200, 100, 50, 7]).pix.get (4 * 0 + 2) = some 50 ∧ (image 1 1 4 [200, 100, 50, 7]).pix.get (4 * 0 + 3) = some 7 := by
  decide +kernel

/-- The last byte of PIX, and the second byte of a 16-bit read of PK whose first is written. -/
theorem witness_HostReadOfUnwrittenIsADraw :
    State.reset.busy = false ∧ LegalAccess State.reset.params .pix 16383 1 ∧ State.reset.pix.get 16383 = none ∧
    LegalAccess (packed [0x31]).params .pk 0 2 ∧ (packed [0x31]).pk.get (0 + 1) = none := by
  unfold LegalAccess; decide +kernel

/-- The STATUS read, another legal access, and an access the space does not have, all while BUSY = 1. -/
theorem witness_AccessWhileBusyIsAHazard :
    (State.reset.withFetchWord 32 2).busy = true ∧
    resolve (State.reset.withFetchWord 32 2).params (.at .reg 0x04) = some (.reg, 0x04) ∧
    LegalAccess (State.reset.withFetchWord 32 2).params .reg 0x04 4 ∧
    ¬ LegalAccess (State.reset.withFetchWord 32 2).params .reg 0x04 2 ∧
    resolve (State.reset.withFetchWord 32 2).params (.bus 0x2000C) = some (.pk, 0x0C) ∧
    LegalAccess (State.reset.withFetchWord 32 2).params .pk 0x0C 4 := by
  unfold LegalAccess; decide +kernel

/-- RS10 and RS11; and a word that begins inside PIX and ends past it. -/
theorem witness_MisuseHasNoEffect :
    State.reset.busy = false ∧ resolve State.reset.params (.at .reg 0x04) = some (.reg, 0x04) ∧
    ¬ LegalAccess State.reset.params .reg 0x04 2 ∧ ¬ LegalAccess State.reset.params .reg 0x06 4 ∧
    ¬ LegalAccess State.reset.params .reg 0x100 4 ∧
    ¬ LegalAccess State.reset.params .pix 16384 1 ∧ ¬ LegalAccess State.reset.params .pix 16382 4 := by
  unfold LegalAccess; decide +kernel

/-- The last byte of each window's range, and the first address past REG. -/
theorem witness_BusAddressesReachTheirSpaces :
    Params.reference.wf = true ∧ 255 < Space.size Params.reference .reg ∧ 8199 < Space.size Params.reference .rl ∧
    ¬ (Space.base Params.reference .reg ≤ 0x100 ∧ 0x100 < Space.base Params.reference .reg + Space.size Params.reference .reg) ∧
    ¬ (Space.base Params.reference .pix ≤ 0x100 ∧ 0x100 < Space.base Params.reference .pix + Space.size Params.reference .pix) ∧
    ¬ (Space.base Params.reference .pk ≤ 0x100 ∧ 0x100 < Space.base Params.reference .pk + Space.size Params.reference .pk) ∧
    ¬ (Space.base Params.reference .rl ≤ 0x100 ∧ 0x100 < Space.base Params.reference .rl + Space.size Params.reference .rl) := by
  decide +kernel

/-- A host that polls twice while the command runs. -/
theorem witness_PollingEnds :
    ({ hosted [.wait] [.host, .host] with regs := { State.reset.regs with status := 1#32 }, pendingOpc := 3#32 } : State).busy =
      true := by decide

end Sys2Proof.Tests
end

section
/-!
PROOFS. Rounding to binary64 is to nearest, ties to even (00_scope.md R11), and the operations are exact on small
integers. The rounding of `num / den` is the rounding of `num / (den * 2^shift)` to an integer, followed by a shift;
magnitudes that are no multiple of `2^shift` and have at most 53 significant bits lie strictly farther away.
-/

namespace Sys2Proof

open Sys2Proof.Spec

/-! ### Rounding to the nearest integer, ties to even -/

/-- `num / step` rounded to the nearest integer, ties to even. -/
def F64.nearestEven (num step : Nat) : Nat :=
  num / step + if 2 * (num % step) > step then 1 else if 2 * (num % step) = step then num / step % 2 else 0

/-- How many low bits rounding `num / den` drops. -/
def F64.dropped (num den : Nat) : Nat := Nat.log2 (num / den) - 52

/-- Rounding a magnitude is rounding to an integer once the dropped bits are shifted out. -/
theorem F64.roundMag_eq_nearestEven (num den : Nat) :
    F64.roundMag num den =
      F64.nearestEven num (den * 2 ^ F64.dropped num den) * 2 ^ F64.dropped num den := by
  rw [F64.dropped, ← topBit_eq, ← pow2_eq]
  rfl

theorem F64.nearestEven_le (num step : Nat) : F64.nearestEven num step ≤ num / step + 1 := by
  unfold F64.nearestEven
  split_ifs <;> omega

/-- An integer is `k`, its successor, or its multiple of `step` lies at least a step beyond one of those two. -/
theorem mul_step_cases (k c step : Nat) :
    c * step + step ≤ k * step ∨ c = k ∨ c = k + 1 ∨ k * step + 2 * step ≤ c * step := by
  rcases Nat.lt_or_ge c k with hlt | hge
  · exact .inl (by rw [← Nat.succ_mul]; exact Nat.mul_le_mul_right _ hlt)
  · rcases Nat.lt_or_ge c (k + 2) with hlt | hge'
    · omega
    · exact .inr (.inr (.inr (by rw [← Nat.add_mul]; exact Nat.mul_le_mul_right _ hge')))

/-- No integer is nearer to `num / step`, and the rounded one is even where another is as near: only the quotient and
its successor can be nearest, and the remainder decides between them. -/
theorem F64.nearestEven_nearest (num step c : Nat) (hstep : 0 < step) :
    offBy (F64.nearestEven num step) num step ≤ offBy c num step ∧
    (c ≠ F64.nearestEven num step → offBy (F64.nearestEven num step) num step = offBy c num step →
      2 ∣ F64.nearestEven num step) := by
  have hdiv := Nat.div_add_mod' num step
  have hrest := Nat.mod_lt num hstep
  have hup : (num / step + 1) * step = num / step * step + step := Nat.succ_mul _ _
  have hc := mul_step_cases (num / step) c step
  unfold F64.nearestEven offBy
  simp only [← Nat.cast_mul]
  generalize num / step = k at *
  split_ifs with habove htie
  · rw [hup]
    rcases hc with _ | rfl | rfl | _ <;> omega
  · rcases Nat.mod_two_eq_zero_or_one k with heven | hodd
    · rw [heven, Nat.add_zero]
      rcases hc with _ | rfl | rfl | _ <;> omega
    · rw [hodd, hup]
      rcases hc with _ | rfl | rfl | _ <;> omega
  · rw [Nat.add_zero]
    rcases hc with _ | rfl | rfl | _ <;> omega

/-! ### Rounding a magnitude -/

/-- Distances are kept when a power of two moves from the magnitude to the denominator. -/
theorem offBy_mul (c w num den : Nat) : offBy (c * w) num den = offBy c num (den * w) := by
  unfold offBy
  push_cast
  congr 1
  ring

/-- A magnitude of at most 53 significant bits is a multiple of `2^s`, or is below every 53-bit multiple of it. -/
theorem F64.dvd_or_lt_of_short (m s : Nat) (h : Short m) : 2 ^ s ∣ m ∨ 0 < s ∧ m < 2 ^ 52 * 2 ^ s := by
  rcases Nat.lt_or_ge (Nat.log2 m - 52) s with hlt | hge
  · have hlog : m < 2 ^ (Nat.log2 m + 1) := Nat.lt_log2_self
    have hpow : 2 ^ (Nat.log2 m + 1) ≤ 2 ^ (52 + s) := Nat.pow_le_pow_right (by omega) (by omega)
    rw [← pow_add]
    exact .inr ⟨by omega, by omega⟩
  · exact .inl (dvd_trans (pow_dvd_pow 2 hge) h)

/-- Where bits are dropped the exact value has all 53 bits in front of them. -/
theorem F64.le_of_dropped_pos (num den : Nat) (h : 0 < F64.dropped num den) :
    2 ^ 52 * 2 ^ F64.dropped num den * den ≤ num := by
  unfold F64.dropped at *
  have hne : num / den ≠ 0 := by
    intro h0
    rw [h0, Nat.log2_zero] at h
    omega
  rw [← pow_add, show 52 + (Nat.log2 (num / den) - 52) = Nat.log2 (num / den) by omega]
  exact (Nat.mul_le_mul_right _ (Nat.log2_self_le hne)).trans (Nat.div_mul_le_self _ _)

/-- Below an exact value, the larger magnitude is strictly nearer. -/
theorem offBy_lt_of_lt (m n num den : Nat) (hd : 0 < den) (hmn : m < n) (hn : n * den ≤ num) :
    offBy n num den < offBy m num den := by
  have hlt : m * den < n * den := Nat.mul_lt_mul_of_pos_right hmn hd
  unfold offBy
  simp only [← Nat.cast_mul]
  omega

/-- Some multiple of the dropped power is as near as a given magnitude of 53 bits, and nearer unless it is that one. -/
theorem F64.exists_multiple_as_near (num den m : Nat) (hd : 0 < den) (h : Short m) :
    ∃ c, m = c * 2 ^ F64.dropped num den ∨
      offBy (c * 2 ^ F64.dropped num den) num den < offBy m num den := by
  rcases F64.dvd_or_lt_of_short m (F64.dropped num den) h with ⟨c, hc⟩ | ⟨hs, hlt⟩
  · exact ⟨c, .inl (by rw [hc, Nat.mul_comm])⟩
  · exact ⟨2 ^ 52, .inr (offBy_lt_of_lt _ _ _ _ hd hlt (F64.le_of_dropped_pos num den hs))⟩

/-- At most 53 bits are left of the exact value once the dropped ones are shifted out. -/
theorem F64.div_dropped_lt (num den : Nat) : num / (den * 2 ^ F64.dropped num den) < 2 ^ 53 := by
  unfold F64.dropped
  rw [← Nat.div_div_eq_div_mul, Nat.div_lt_iff_lt_mul (by positivity), ← pow_add]
  calc num / den < 2 ^ (Nat.log2 (num / den) + 1) := Nat.lt_log2_self
    _ ≤ 2 ^ (53 + (Nat.log2 (num / den) - 52)) := Nat.pow_le_pow_right (by omega) (by omega)

/-- An even number of at most 53 bits, or 2^53, is even in its last significant bit wherever it is shifted to. -/
theorem F64.evenLast_mul_pow (n s : Nat) (h : n ≤ 2 ^ 53) (heven : 2 ∣ n) : EvenLast (n * 2 ^ s) := by
  unfold EvenLast
  rcases Nat.eq_zero_or_pos n with rfl | hpos
  · simp
  rw [log2_mul_pow n s (by omega)]
  rcases Nat.lt_or_ge n (2 ^ 53) with hlt | hge
  · have hlog : Nat.log2 n < 53 := (Nat.log2_lt (by omega)).mpr hlt
    calc 2 ^ (Nat.log2 n + s - 52 + 1) ∣ 2 ^ (1 + s) := pow_dvd_pow 2 (by omega)
      _ = 2 * 2 ^ s := by rw [pow_add, pow_one]
      _ ∣ n * 2 ^ s := Nat.mul_dvd_mul_right heven _
  · rw [Nat.le_antisymm h hge, Nat.log2_two_pow, ← pow_add]
    exact pow_dvd_pow 2 (by omega)

/-- `roundMag` is to nearest, ties to even (00_scope.md R11). -/
theorem F64.roundMag_nearest (num den m : Nat) (hd : 0 < den) (h : Short m) :
    offBy (F64.roundMag num den) num den ≤ offBy m num den ∧
    (m ≠ F64.roundMag num den → offBy (F64.roundMag num den) num den = offBy m num den →
      EvenLast (F64.roundMag num den)) := by
  obtain ⟨c, hc⟩ := F64.exists_multiple_as_near num den m hd h
  rw [F64.roundMag_eq_nearestEven]
  set s := F64.dropped num den with hs
  have hstep : 0 < den * 2 ^ s := by positivity
  obtain ⟨hle, htie⟩ := F64.nearestEven_nearest num (den * 2 ^ s) c hstep
  rw [← offBy_mul, ← offBy_mul] at hle
  rw [← offBy_mul, ← offBy_mul] at htie
  have hbits : F64.nearestEven num (den * 2 ^ s) ≤ 2 ^ 53 :=
    (F64.nearestEven_le _ _).trans (F64.div_dropped_lt num den)
  rcases hc with rfl | hlt
  · refine ⟨hle, fun hne heq => F64.evenLast_mul_pow _ s hbits (htie ?_ heq)⟩
    rintro rfl
    exact hne rfl
  · exact ⟨by omega, fun _ heq => by omega⟩

/-! ### The operations on finite values -/

@[simp] theorem units_false (n : Nat) : units false n = n := rfl

@[simp] theorem units_true (n : Nat) : units true n = -(n : Int) := rfl

theorem units_not (b : Bool) (n : Nat) : units (!b) n = -units b n := by
  cases b <;> simp

theorem F64.add_fin (a b : Bool) (m n : Nat) :
    F64.add (.fin a m) (.fin b n) =
      if units a m + units b n = 0 then .fin (a && b) 0
      else signedResult (decide (units a m + units b n < 0)) (F64.roundMag (units a m + units b n).natAbs 1) := rfl

theorem F64.sub_fin (a b : Bool) (m n : Nat) :
    F64.sub (.fin a m) (.fin b n) =
      if units a m - units b n = 0 then .fin (a && !b) 0
      else signedResult (decide (units a m - units b n < 0)) (F64.roundMag (units a m - units b n).natAbs 1) := by
  rw [sub_eq_add_neg, ← units_not]
  exact F64.add_fin a (!b) m n

theorem F64.mul_fin (a b : Bool) (m n : Nat) :
    F64.mul (.fin a m) (.fin b n) = signedResult (a != b) (F64.roundMag (m * n) F64.unit) := rfl

theorem F64.div_fin (a b : Bool) (m n : Nat) (hn : n ≠ 0) :
    F64.div (.fin a m) (.fin b n) = signedResult (a != b) (F64.roundMag (F64.unit * m) n) := by
  simp only [F64.div, if_neg hn]
  rfl

theorem F64.lt_fin (a b : Bool) (m n : Nat) :
    F64.lt (.fin a m) (.fin b n) = true ↔ units a m < units b n := decide_eq_true_iff

theorem F64.lt_nan (x : F64) : F64.lt .nan x = false ∧ F64.lt x .nan = false := by
  cases x <;> exact ⟨rfl, rfl⟩

/-- Settles O23: rounding is to the nearest integer once the dropped bits are shifted out, and each operation on finite
values is by definition one rounding of the exact result. -/
theorem roundingIsToNearest : Obligations.RoundingIsToNearest := by
  refine ⟨fun num den hd => ⟨F64.short_roundMag num den, fun m hm => F64.roundMag_nearest num den m hd hm⟩,
    fun a b m n => ⟨F64.add_fin a b m n, F64.sub_fin a b m n, F64.mul_fin a b m n, F64.div_fin a b m n,
      F64.lt_fin a b m n⟩, F64.lt_nan⟩

/-! ### Small integers -/

/-- The integer `±n` as a value. -/
def F64.int (neg : Bool) (n : Nat) : F64 := .fin neg (F64.unit * n)

theorem F64.ofNat_eq_int (n : Nat) (h : n < 2 ^ 53) : F64.ofNat n = F64.int false n := F64.ofNat_eq n h

/-- A magnitude that is a small integer is kept by rounding. -/
theorem F64.signedResult_int (neg : Bool) (n den : Nat) (hd : 0 < den) (h : n < 2 ^ 53) :
    signedResult neg (F64.roundMag (F64.unit * n * den) den) = F64.int neg n :=
  F64.round_exact neg (F64.unit * n) den hd (F64.short_int n h.le) (F64.int_lt_max n h)

theorem units_unit_mul (s : Bool) (n : Nat) : units s (F64.unit * n) = F64.unit * units s n := by
  cases s <;> simp

/-- The sum of two signed integers is exact, and a zero sum is -0 only of two negative zeros. -/
theorem F64.add_int (s t : Bool) (a b : Nat) (h : (units s a + units t b).natAbs < 2 ^ 53) :
    F64.add (F64.int s a) (F64.int t b) =
      if units s a + units t b = 0 then F64.int (s && t) 0
      else F64.int (decide (units s a + units t b < 0)) (units s a + units t b).natAbs := by
  have hunit : (0 : Int) < F64.unit := by exact_mod_cast F64.unit_pos
  simp only [F64.int, F64.add_fin, units_unit_mul, ← mul_add]
  generalize units s a + units t b = z at *
  have hzero : (F64.unit : Int) * z = 0 ↔ z = 0 := mul_eq_zero_iff_left hunit.ne'
  have hneg : (F64.unit : Int) * z < 0 ↔ z < 0 := smul_neg_iff_of_pos_left hunit
  simp only [hzero, hneg, Int.natAbs_mul, Int.natAbs_natCast]
  have hround := F64.signedResult_int (decide (z < 0)) z.natAbs 1 one_pos h
  rw [Nat.mul_one] at hround
  rw [hround]
  rfl

theorem F64.neg_int (s : Bool) (n : Nat) : F64.neg (F64.int s n) = F64.int (!s) n := rfl

theorem F64.mul_int (s t : Bool) (a b : Nat) (h : a * b < 2 ^ 53) :
    F64.mul (F64.int s a) (F64.int t b) = F64.int (s != t) (a * b) := by
  have hassoc : F64.unit * a * (F64.unit * b) = F64.unit * (a * b) * F64.unit := by ring
  rw [F64.int, F64.int, F64.mul_fin, hassoc, F64.signedResult_int _ _ _ F64.unit_pos h]

theorem F64.lt_int (s t : Bool) (a b : Nat) :
    F64.lt (F64.int s a) (F64.int t b) = true ↔ units s a < units t b := by
  have hunit : (0 : Int) < F64.unit := by exact_mod_cast F64.unit_pos
  rw [F64.int, F64.int, F64.lt_fin, units_unit_mul, units_unit_mul, mul_lt_mul_iff_right₀ hunit]

theorem F64.sub_int_of_le (a b : Nat) (ha : a < 2 ^ 53) (h : b ≤ a) :
    F64.sub (F64.int false a) (F64.int false b) = F64.int false (a - b) := by
  have hz : units false a + units true b = (a - b : Nat) := by rw [units_false, units_true]; omega
  rw [F64.sub, F64.neg_int, Bool.not_false, F64.add_int _ _ _ _ (by omega), hz]
  split_ifs with h0
  · rw [show a - b = 0 by omega]; rfl
  · rw [decide_eq_false (by omega), Int.natAbs_natCast]

theorem F64.sub_int_of_lt (a b : Nat) (hb : b < 2 ^ 53) (h : a < b) :
    F64.sub (F64.int false a) (F64.int false b) = F64.int true (b - a) := by
  have hz : units false a + units true b = -((b - a : Nat) : Int) := by rw [units_false, units_true]; omega
  rw [F64.sub, F64.neg_int, Bool.not_false, F64.add_int _ _ _ _ (by omega), hz, if_neg (by omega),
    decide_eq_true (by omega), Int.natAbs_neg, Int.natAbs_natCast]

theorem F64.add_int_of_nonneg (a b : Nat) (h : a + b < 2 ^ 53) :
    F64.add (F64.int false a) (F64.int false b) = F64.int false (a + b) := by
  have hz : units false a + units false b = (a + b : Nat) := by simp
  rw [F64.add_int _ _ _ _ (by omega), hz]
  split_ifs with h0
  · rw [show a + b = 0 by omega]; rfl
  · rw [decide_eq_false (by omega), Int.natAbs_natCast]

/-- Settles O24: sums, differences and products of integers up to 2^26 stay below 2^53, so rounding keeps them. -/
theorem arithmeticExactOnSmallIntegers : Obligations.ArithmeticExactOnSmallIntegers := by
  intro a b ha hb
  have hprod : a * b ≤ 2 ^ 26 * 2 ^ 26 := Nat.mul_le_mul ha hb
  rw [F64.ofNat_eq_int a (by omega), F64.ofNat_eq_int b (by omega), F64.ofNat_eq_int (a + b) (by omega),
    F64.ofNat_eq_int (a * b) (by omega), F64.ofNat_eq_int (a - b) (by omega), F64.ofNat_eq_int (b - a) (by omega)]
  refine ⟨F64.add_int_of_nonneg a b (by omega), F64.mul_int false false a b (by omega),
    F64.sub_int_of_le a b (by omega), F64.sub_int_of_lt a b (by omega), ?_⟩
  rw [F64.lt_int]
  exact Nat.cast_lt

end Sys2Proof
end

section
/-!
PROOFS. What one host access of a register does while BUSY = 0 (10_state.md R22, R42), and which move each step makes
(R20, R42). The register file answers by its map: a write reaches the field bits of one stored word, a read shows them.
-/

namespace Sys2Proof.Machine

open Sys2Proof.Spec

/-! ### The register file -/

/-- The registers a host write other than CMD's reaches: STATUS and RESULT ignore it (10_state.md R22). -/
def Reg.writable : Reg → Bool
  | .cmd | .status | .result => false
  | _ => true

theorem Regs.write_of_not_writable (g : Regs) (r : Reg) (v : Word) (h : r.writable = false) : g.write r v = g := by
  cases r
  case cmd | status | result => rfl
  all_goals cases h

/-- A written register stores the bits of its fields. -/
theorem Regs.stored_write_same (g : Regs) (r : Reg) (v : Word) (h : r.writable = true) :
    (g.write r v).stored r = v &&& r.fieldMask := by
  cases r
  case cmd | status | result => cases h
  case config | width | height | color => rfl
  case gainLo | gainHi | pkLen | rlLen => exact (and_full v).symm

/-- A write leaves the stored word of every other register. -/
theorem Regs.stored_write_ne (g : Regs) (r r' : Reg) (v : Word) (h : r' ≠ r) :
    (g.write r v).stored r' = g.stored r' := by
  cases r <;> cases r'
  all_goals first | rfl | contradiction

/-- A written register reads back the bits of its fields. -/
theorem Regs.read_write_same (g : Regs) (r : Reg) (v : Word) (h : r.writable = true) :
    (g.write r v).read r = v &&& r.fieldMask := by
  rw [Regs.read, g.stored_write_same r v h, BitVec.and_assoc, BitVec.and_self]

theorem Regs.read_write_ne (g : Regs) (r r' : Reg) (v : Word) (h : r' ≠ r) : (g.write r v).read r' = g.read r' := by
  rw [Regs.read, g.stored_write_ne r r' v h, Regs.read]

/-! ### A register access while BUSY = 0 -/

/-- An aligned 32-bit access of REG is one the space has (20_memory.md R62). -/
theorem accessLegal_reg (p : Params) (off : Nat) (h : off % 4 = 0 ∧ off < 256) : accessLegal p .reg off 4 = true :=
  decide_eq_true ⟨rfl, h⟩

theorem hostRead_reg (s : State) (off : Nat) (x : Option Word) (hb : s.busy = false) (h : off % 4 = 0 ∧ off < 256) :
    s.hostRead (.at .reg off) 4 x = withRead s ⟨.reg, off, 4, s.regs.readAt off, x⟩ := by
  simp only [State.hostRead, resolve, accessLegal_reg s.params off h, hb, Bool.not_false, Bool.true_or, Bool.and_self, if_true]
  rfl

theorem hostWrite_reg (s : State) (off : Nat) (v : Word) (hb : s.busy = false) (h : off % 4 = 0 ∧ off < 256) :
    s.hostWrite (.at .reg off) 4 v = s.performWrite .reg off 4 v := by
  simp only [State.hostWrite, resolve, accessLegal_reg s.params off h, hb, Bool.not_false, Bool.and_self, if_true]

/-- Every register's offset is an aligned one of REG (10_state.md R22). -/
theorem Reg.offset_legal (r : Reg) : r.offset % 4 = 0 ∧ r.offset < 256 := by cases r <;> decide

/-- A host read at a register's offset gives the register and changes nothing of the block. -/
theorem hostRead_at_offset (s : State) (r : Reg) (x : Option Word) (hb : s.busy = false) :
    s.hostRead (.at .reg r.offset) 4 x = withRead s ⟨.reg, r.offset, 4, s.regs.read r, x⟩ := by
  rw [hostRead_reg s r.offset x hb r.offset_legal, Regs.readAt, Reg.ofOffset_offset]

/-- A host write at a register's offset other than CMD's writes that register alone. -/
theorem hostWrite_at_offset (s : State) (r : Reg) (v : Word) (hb : s.busy = false) (hr : r ≠ .cmd) :
    s.hostWrite (.at .reg r.offset) 4 v = { s with regs := s.regs.write r v } := by
  rw [hostWrite_reg s r.offset v hb r.offset_legal]
  rcases performWrite_cases s .reg r.offset 4 v with ⟨-, hoff, -⟩ | ⟨-, hoff, -⟩ | ⟨r', -, hoff, -, hw⟩ | ⟨hreg, -⟩
  · simp at hoff
  · simp [hr] at hoff
  · rw [Reg.ofOffset_offset, Option.some.injEq] at hoff
    rw [hw, hoff]
  · exact absurd rfl hreg

/-- A host write of CMD starts a command (10_state.md R42). -/
theorem hostWrite_cmd (s : State) (v : Word) (hb : s.busy = false) :
    s.hostWrite (.at .reg 0x00) 4 v = s.startCommand v := by
  rw [hostWrite_reg s 0x00 v hb (by decide)]
  rfl

/-- A host write of STATUS or RESULT is ignored (10_state.md R22). -/
theorem hostWrite_ignored (s : State) (r : Reg) (v : Word) (hb : s.busy = false) (hr : r ≠ .cmd)
    (hw : r.writable = false) : s.hostWrite (.at .reg r.offset) 4 v = s := by
  rw [hostWrite_at_offset s r v hb hr, Regs.write_of_not_writable s.regs r v hw]

/-- A register that takes host writes reads back the written bits of its fields. -/
theorem read_hostWrite_same (s : State) (r : Reg) (v : Word) (hb : s.busy = false) (hw : r.writable = true) :
    (s.hostWrite (.at .reg r.offset) 4 v).regs.read r = v &&& r.fieldMask := by
  have hr : r ≠ .cmd := by rintro rfl; cases hw
  rw [hostWrite_at_offset s r v hb hr]
  exact s.regs.read_write_same r v hw

/-- A register whose 32 bits are all fields reads back what was written. -/
theorem read_hostWrite_full (s : State) (r : Reg) (v : Word) (hb : s.busy = false) (hw : r.writable = true)
    (hm : r.fieldMask = 0xFFFFFFFF#32) : (s.hostWrite (.at .reg r.offset) 4 v).regs.read r = v := by
  rw [read_hostWrite_same s r v hb hw, hm, and_full]

/-- The offsets past RESULT are reserved (10_state.md R22). -/
theorem Reg.ofOffset_reserved (off : Nat) (h : 0x2C ≤ off) : Reg.ofOffset off = none := by
  unfold Reg.ofOffset
  split
  all_goals first | rfl | omega

/-- Settles O49: each register's offset names it, a read shows its field bits, and a write keeps to them and to it. -/
theorem registerWritesReadBack : Obligations.RegisterWritesReadBack := by
  intro s v hb
  refine ⟨fun x => ⟨?_, ?_, ?_, ?_, ?_, ?_, ?_, ?_, ?_, ?_⟩,
    hostWrite_ignored s .status v hb nofun rfl,
    read_hostWrite_same s .config v hb rfl,
    read_hostWrite_same s .width v hb rfl,
    read_hostWrite_same s .height v hb rfl,
    read_hostWrite_full s .gainLo v hb rfl rfl,
    read_hostWrite_full s .gainHi v hb rfl rfl,
    read_hostWrite_full s .pkLen v hb rfl rfl,
    read_hostWrite_full s .rlLen v hb rfl rfl,
    read_hostWrite_same s .color v hb rfl,
    hostWrite_ignored s .result v hb nofun rfl,
    fun r r' hr hne => ?_⟩
  · exact hostRead_at_offset s .status x hb
  · exact hostRead_at_offset s .config x hb
  · exact hostRead_at_offset s .width x hb
  · exact hostRead_at_offset s .height x hb
  · rw [← Regs.read_gainLo]; exact hostRead_at_offset s .gainLo x hb
  · rw [← Regs.read_gainHi]; exact hostRead_at_offset s .gainHi x hb
  · rw [← Regs.read_pkLen]; exact hostRead_at_offset s .pkLen x hb
  · rw [← Regs.read_rlLen]; exact hostRead_at_offset s .rlLen x hb
  · exact hostRead_at_offset s .color x hb
  · exact hostRead_at_offset s .result x hb
  · rw [hostWrite_at_offset s r v hb hr]
    exact ⟨s.regs.read_write_ne r r' v hne, rfl⟩

/-- Settles O50: no register has an offset past RESULT's, and CMD shows no bit. -/
theorem reservedOffsetsReadZero : Obligations.ReservedOffsetsReadZero := by
  intro s off v x hb
  refine ⟨fun hlo hhi hal => ⟨?_, ?_⟩, ?_⟩
  · rw [hostWrite_reg s off v hb ⟨hal, hhi⟩]
    simp only [State.performWrite, Reg.ofOffset_reserved off hlo]
  · simp only [hostRead_reg s off x hb ⟨hal, hhi⟩, Regs.readAt, Reg.ofOffset_reserved off hlo]
  · rw [← Regs.read_cmd s.regs]
    exact hostRead_at_offset s .cmd x hb

/-! ### Which move a step makes -/

/-- Settles O9: while BUSY = 0 the host has the turn, and its CMD write starts the command. -/
theorem cmdWriteStartsTheCommand : Obligations.CmdWriteStartsTheCommand := by
  intro s v rest hb hs
  refine ⟨(afterAccess s rest).startCommand v, ?_, rfl, State.startCommand_busy .., State.startCommand_done ..,
    State.startCommand_err .., rfl, rfl, rfl, rfl, rfl, rfl, rfl, rfl⟩
  rw [step_host_op s _ rest (blockMoves_of_idle s hb) hs]
  exact congrArg Host.Outcome.next (hostWrite_cmd (afterAccess s rest) v hb)

/-- Settles O10: the block's move goes by what PENDING_OPC decodes to; code 1 over DONE is STATUS = 0x12. -/
theorem stepRunsTheDecodedCommand : Obligations.StepRunsTheDecodedCommand := by
  intro s hm
  rw [step_block s hm]
  rcases blockStep_cases s.takeTurn with ⟨i, hi, hstep⟩ | ⟨e, he, hstep⟩
  · refine ⟨fun j hj => ?_, fun e he => ?_⟩
    · cases hi.symm.trans hj
      exact hstep
    · cases hi.symm.trans he
  · refine ⟨fun i hi => ?_, fun _ _ => hstep⟩
    cases he.symm.trans hi

/-- `WAIT` notes the STATUS read and stays in the script while BUSY = 1 (30_encoding.md R87). -/
theorem hostOp_wait (s : State) (rest : List HostOp) :
    hostOp (afterAccess s rest) .wait =
      withRead (afterAccess s (if s.busy then .wait :: rest else rest))
        ⟨.reg, 0x04, 4, s.regs.read .status, none⟩ := by
  have hbusy : (afterAccess s rest).busy = s.busy := rfl
  cases h : s.busy <;> simp only [hostOp, hbusy, h] <;> rfl

/-- Settles O11: the host's move is the access at the head of its script. -/
theorem stepMakesTheHostAccess : Obligations.StepMakesTheHostAccess := by
  intro s hm
  refine ⟨fun hs => step_idle s hm hs, fun a width x rest hs => step_host_op s _ rest hm hs,
    fun a width v rest hs => step_host_op s _ rest hm hs, fun rest hs => ?_,
    fun rest hs => step_host_op s _ rest hm hs⟩
  rw [step_host_op s _ rest hm hs]
  exact congrArg Host.Outcome.next (hostOp_wait s rest)

end Sys2Proof.Machine
end

section
/-!
PROOFS. The reset values of the reset table (10_state.md R39).
-/

namespace Sys2Proof.Machine

/-- The panel size fits its 16-bit register fields (00_scope.md R6), and a panel's image fits PIX. -/
theorem panelSize_of_wf (p : Params) (h : p.wf = true) :
    p.panelSize ≤ 65535 ∧ p.panelSize * p.panelSize ≤ p.maxPixels := by
  simp only [Params.wf, Bool.and_eq_true, decide_eq_true_eq] at h
  obtain ⟨⟨⟨⟨⟨⟨⟨-, -, hsize, hcap, -⟩, -⟩, -⟩, -⟩, -⟩, -⟩, -⟩ := h
  exact ⟨hsize, hcap⟩

/-- A 16-bit number is kept by the mask of WIDTH and HEIGHT. -/
theorem ofNat_and_low16 (n : Nat) (h : n ≤ 65535) :
    BitVec.ofNat 32 n &&& 0x0000FFFF#32 = BitVec.ofNat 32 n := by
  apply BitVec.eq_of_toNat_eq
  rw [BitVec.toNat_and, BitVec.toNat_ofNat, show (0x0000FFFF#32).toNat = 2 ^ 16 - 1 by decide,
    Nat.and_two_pow_sub_one_eq_mod]
  omega

/-- The bit pattern 0x3FF0000000000000 is 1.0 (30_encoding.md R84). -/
theorem ofBits_one : F64.ofBits (0x3FF00000#32 ++ 0x00000000#32) = F64.ofNat 1 := by
  rw [F64.ofNat_eq 1 (by decide)]
  decide +kernel

/-- The gain after reset is 1.0 (10_state.md R39). -/
theorem reset_gain (p : Params) : (State.resetOf p).gain = F64.ofNat 1 := by
  rw [State.gain, State.gainBits_eq, ← ofBits_one]
  rfl

/-- Settles O1: each stored word is a literal of the table; the panel size fits WIDTH and HEIGHT. -/
theorem resetStateValues : Obligations.ResetStateValues := by
  intro p hp
  obtain ⟨hsize, -⟩ := panelSize_of_wf p hp
  have hpanel : (BitVec.ofNat 32 p.panelSize &&& 0x0000FFFF#32).toNat = p.panelSize := by
    rw [ofNat_and_low16 _ hsize, BitVec.toNat_ofNat]
    omega
  have hstatus : (State.resetOf p).regs.status = 0#32 := Regs.reset_status p
  have hconfig : (State.resetOf p).regs.config = 4#32 := Regs.reset_config p
  have hcolor : (State.resetOf p).regs.color = 0#32 := by unfold State.resetOf Regs.reset; rfl
  have hresult : (State.resetOf p).regs.result = 0#32 := by unfold State.resetOf Regs.reset; rfl
  refine ⟨Regs.read_cmd _, ?_, ?_, ?_, ?_, ?_, ?_, ?_, ?_, hpanel, hpanel, Regs.read_gainHi _, Regs.read_gainLo _,
    reset_gain p, Regs.read_pkLen _, Regs.read_rlLen _, ?_, ?_, rfl, fun a => ⟨rfl, rfl, rfl⟩⟩
  · rw [Regs.read_status, hstatus]; decide
  · rw [State.busy, hstatus]; decide
  · rw [State.done, hstatus]; decide
  · rw [State.err, hstatus]; decide
  · rw [Regs.read_config, hconfig]; decide
  · rw [State.dither_eq, hconfig]; decide
  · rw [State.maskEnabled_eq, hconfig]; decide
  · rw [State.rot180_eq, hconfig]; decide
  · rw [Regs.read_color, hcolor]; decide
  · rw [Regs.read_result, hresult]; decide

end Sys2Proof.Machine
end

section
/-!
PROOFS. The machine invariant (10_state.md R22, R24 to R26, R35, R37, R180) holds at reset and is kept by every step.
`State.Legal` is `State.Inv` with named parts: one for each memory, and one for the registers, each kept on its own by the
operations that write it. The steps then follow from what each command's body and each host access can write.
-/

namespace Sys2Proof.Machine

/-! ### The parts of the invariant -/

/-- A memory in canonical form, inside a space of `cap` bytes (10_state.md R37, 20_memory.md R68). -/
structure Memory.Fits (m : Memory) (cap : Nat) : Prop where
  wf : m.wf = true
  within : m.within cap = true

/-- A register file every register of which reads as it is stored, with a legal STATUS and RESULT. -/
structure Regs.Legal (g : Regs) : Prop where
  reads : ∀ r, g.read r = g.stored r
  status : g.statusLegal = true
  result : g.resultLegal = true

/-- `State.Inv` in its parts. -/
structure State.Legal (s : State) : Prop where
  params : s.params.wf = true
  pix : s.pix.Fits s.params.pixCap
  pk : s.pk.Fits s.params.pkCap
  rl : s.rl.Fits s.params.rlCap
  regs : s.regs.Legal

/-- The bits that read as zero are zero exactly where every register reads as it is stored. -/
theorem Regs.reservedZero_iff (g : Regs) : g.reservedZero = true ↔ ∀ r, g.read r = g.stored r := by
  simp only [Regs.reservedZero, Bool.and_eq_true, beq_iff_eq]
  constructor
  · rintro ⟨⟨⟨⟨⟨hstatus, hconfig⟩, hwidth⟩, hheight⟩, hcolor⟩, hresult⟩ r
    cases r
    case cmd => exact g.read_cmd
    case status => exact hstatus
    case config => exact hconfig
    case width => exact hwidth
    case height => exact hheight
    case gainLo => exact g.read_gainLo
    case gainHi => exact g.read_gainHi
    case pkLen => exact g.read_pkLen
    case rlLen => exact g.read_rlLen
    case color => exact hcolor
    case result => exact hresult
  · exact fun h => ⟨⟨⟨⟨⟨h .status, h .config⟩, h .width⟩, h .height⟩, h .color⟩, h .result⟩

theorem State.inv_iff_legal (s : State) : s.Inv ↔ s.Legal := by
  constructor
  · rintro ⟨hp, hpix, hpix', hpk, hpk', hrl, hrl', hzero, hstatus, hresult⟩
    exact ⟨hp, ⟨hpix, hpix'⟩, ⟨hpk, hpk'⟩, ⟨hrl, hrl'⟩, ⟨s.regs.reservedZero_iff.mp hzero, hstatus, hresult⟩⟩
  · rintro ⟨hp, ⟨hpix, hpix'⟩, ⟨hpk, hpk'⟩, ⟨hrl, hrl'⟩, ⟨hreads, hstatus, hresult⟩⟩
    exact ⟨hp, hpix, hpix', hpk, hpk', hrl, hrl', s.regs.reservedZero_iff.mpr hreads, hstatus, hresult⟩

/-- The invariant speaks of the block's parameters, registers and memories alone. -/
theorem State.Legal.of_same_block {s t : State} (h : s.Legal) (hp : t.params = s.params) (hg : t.regs = s.regs)
    (hpix : t.pix = s.pix) (hpk : t.pk = s.pk) (hrl : t.rl = s.rl) : t.Legal := by
  obtain ⟨h1, h2, h3, h4, h5⟩ := h
  constructor
  all_goals simp only [hp, hg, hpix, hpk, hrl]; assumption

/-! ### Writes to a memory -/

theorem Memory.fits_nil (cap : Nat) : Memory.Fits [] cap := ⟨Memory.wf_nil, Memory.within_nil cap⟩

theorem Memory.Fits.writeBytes {m : Memory} {cap : Nat} (h : m.Fits cap) (a : Nat) (bs : List Byte)
    (hb : a + bs.length ≤ cap) : (writeBytes m a bs).Fits cap :=
  ⟨wf_writeBytes m a bs h.wf, within_writeBytes m a bs cap h.within hb⟩

theorem Memory.Fits.writePixels {m : Memory} {cap : Nat} (h : m.Fits cap) (cs : List Rgb) (hc : 4 * cs.length ≤ cap) :
    (writePixels m 0 cs).Fits cap :=
  ⟨wf_writePixels m 0 cs h.wf, within_writePixels m 0 cs cap h.within (by omega)⟩

theorem Memory.Fits.maskScan {m : Memory} {cap : Nat} (hm : m.Fits cap) (w h : Nat) (hc : 4 * (w * h) ≤ cap) :
    (maskScan w h (rasterOrder w h) m).Fits cap :=
  ⟨maskScan_wf w h _ m hm.wf, maskScan_within w h cap _ m hm.within hc fun q hq => (mem_rasterOrder w h q).mp hq⟩

/-! ### Writes to the registers -/

/-- Where one register changed, it alone must be seen to read as it is stored. -/
theorem Regs.reads_of_update {g g' : Regs} (r : Reg) (h : ∀ r', g.read r' = g.stored r')
    (hne : ∀ r', r' ≠ r → g'.stored r' = g.stored r') (hr : g'.read r = g'.stored r) :
    ∀ r', g'.read r' = g'.stored r' := by
  intro r'
  by_cases heq : r' = r
  · rw [heq, hr]
  · rw [Regs.read, hne r' heq]
    exact h r'

theorem Regs.Legal.write {g : Regs} (h : g.Legal) (r : Reg) (v : Word) : (g.write r v).Legal := by
  cases hw : r.writable with
  | false => rwa [g.write_of_not_writable r v hw]
  | true =>
    refine ⟨Regs.reads_of_update r h.reads (fun r' hne => g.stored_write_ne r r' v hne) ?_, ?_, ?_⟩
    · rw [g.read_write_same r v hw, g.stored_write_same r v hw]
    · have hst : (g.write r v).status = g.status := by cases r <;> rfl
      rw [Regs.statusLegal, hst]
      exact h.status
    · have hres : (g.write r v).result = g.result := by cases r <;> rfl
      rw [Regs.resultLegal, hres]
      exact h.result

/-- A STATUS with zero reserved bits, and legal itself, leaves the register file legal. -/
theorem Regs.Legal.setStatus {g : Regs} (h : g.Legal) (v : Word) (hmask : v &&& 0x000000F3#32 = v)
    (hv : v = 0#32 ∨ v = 1#32 ∨ v &&& 0xFFFFFF8F#32 = 2#32) : { g with status := v }.Legal := by
  refine ⟨Regs.reads_of_update .status h.reads (fun r hne => ?_) hmask, decide_eq_true hv, h.result⟩
  cases r
  case status => contradiction
  all_goals rfl

theorem Regs.Legal.start {g : Regs} (h : g.Legal) : { g with status := statusWord true false 0 }.Legal :=
  h.setStatus _ (by decide) (by decide)

/-- Completion shows DONE and one of the codes of 60_exceptions.md R180, all below 8. -/
theorem Regs.Legal.complete {g : Regs} (h : g.Legal) (e : ErrCode) :
    { g with status := statusWord false true e.code }.Legal :=
  h.setStatus _ (by cases e <;> decide) (by cases e <;> decide)

/-- RESULT takes a palette position with its own code (40_palette.md R103). -/
theorem Regs.Legal.setResult {g : Regs} (h : g.Legal) (i : Fin 6) : { g with result := resultWord i }.Legal := by
  have hword : resultWord i &&& 0x0000070F#32 = resultWord i ∧
      [0x000#32, 0x101#32, 0x202#32, 0x303#32, 0x405#32, 0x506#32].contains (resultWord i) = true := by
    revert i; decide
  refine ⟨Regs.reads_of_update .result h.reads (fun r hne => ?_) hword.1, h.status, hword.2⟩
  cases r
  case result => contradiction
  all_goals rfl

theorem Regs.legal_reset (p : Params) (hp : p.wf = true) : (Regs.reset p).Legal := by
  have hpanel := ofNat_and_low16 p.panelSize (panelSize_of_wf p hp).1
  refine ⟨(Regs.reservedZero_iff _).mp ?_, rfl, rfl⟩
  simp only [Regs.reservedZero, Regs.reset, Reg.fieldMask, hpanel, beq_self_eq_true]
  decide

/-- The reset state of every part is legal. -/
theorem State.legal_resetOf (p : Params) (hp : p.wf = true) : (State.resetOf p).Legal :=
  ⟨hp, Memory.fits_nil _, Memory.fits_nil _, Memory.fits_nil _, Regs.legal_reset p hp⟩

/-- Settles O3: the memories are empty and the panel size fits WIDTH and HEIGHT. -/
theorem resetMeetsTheMachineInvariant : Obligations.ResetMeetsTheMachineInvariant := by
  have hreset (p : Params) (hp : p.wf = true) : (State.resetOf p).Inv :=
    (State.inv_iff_legal _).mpr (State.legal_resetOf p hp)
  exact ⟨hreset, hreset Params.reference (by decide)⟩

/-! ### What the bodies of the commands keep -/

theorem State.Legal.finish {s : State} (h : s.Legal) (e : ErrCode) : (s.finish e).Legal :=
  { h with regs := h.regs.complete e }

/-- A completing step keeps the invariant where the command's own writes do. -/
theorem complete_legal {s t : State} {r : Exec State} (h : s.Legal) (hr : ∀ s', r = .ok s' → s'.Legal)
    (ht : complete s r = .next t) : t.Legal := by
  rcases complete_next s t r ht with ⟨s', hs', rfl⟩ | ⟨e, -, rfl⟩
  · exact (hr s' hs').finish .ok
  · exact h.finish e

theorem lookupBody_legal {s s' : State} (h : s.Legal) (hl : lookupBody s = .ok s') : s'.Legal := by
  obtain ⟨i, -, hi⟩ := lookupBody_ok s
  cases hi.symm.trans hl
  exact { h with regs := h.regs.setResult i }

theorem quantizeBody_legal {w h : Nat} {g : F64} {s s' : State} (hs : s.Legal) (hc : w * h ≤ s.params.maxPixels)
    (hq : quantizeBody w h g s = .ok s') : s'.Legal := by
  obtain ⟨cs, hlen, rfl⟩ := quantizeBody_ok w h g s s' hq
  exact { hs with pix := hs.pix.writePixels cs (by rw [hlen, Params.pixCap]; omega) }

theorem maskImage_legal {w h : Nat} {s : State} (hs : s.Legal) (hc : w * h ≤ s.params.maxPixels) :
    (maskImage w h s).Legal :=
  { hs with pix := hs.pix.maskScan w h (by rw [Params.pixCap]; omega) }

theorem packImage_legal {w h : Nat} {s s' : State} (hs : s.Legal) (hc : w * h ≤ s.params.maxPixels)
    (hp : packImage w h s = .ok s') : s'.Legal := by
  obtain ⟨codes, -, hlen, rfl⟩ := packImage_ok w h s s' hp
  have hfits : 0 + (packNibbles codes).length ≤ s.params.pkCap := by
    rw [packNibbles_length, hlen, Params.pkCap]; omega
  exact { hs with pk := hs.pk.writeBytes 0 _ hfits, regs := hs.regs.write .pkLen _ }

/-- PACK's PK_LEN fits PK. -/
theorem packImage_pkLen_le {w h : Nat} {s s' : State} (hc : w * h ≤ s.params.maxPixels)
    (hp : packImage w h s = .ok s') : (s'.regs.read .pkLen).toNat ≤ s'.params.pkCap := by
  obtain ⟨codes, -, -, rfl⟩ := packImage_ok w h s s' hp
  rw [Regs.read_pkLen]
  calc (BitVec.ofNat 32 ((w * h + 1) / 2)).toNat ≤ (w * h + 1) / 2 := by
        rw [BitVec.toNat_ofNat]; exact Nat.mod_le _ _
    _ ≤ (s.params.maxPixels + 1) / 2 := by omega

/-- The encoding of at most PK_CAP bytes fits RL (44_rle.md R152). -/
theorem encodePacked_legal {s s' : State} (hs : s.Legal) (hc : (s.regs.read .pkLen).toNat ≤ s.params.pkCap)
    (he : encodePacked s = .ok s') : s'.Legal := by
  obtain ⟨bs, hread, rfl⟩ := encodePacked_ok s s' he
  have hlen := ((readBytes_ok _ _ _ _).mp hread).1
  have hfits : 0 + (rleEncode bs).length ≤ s.params.rlCap := by
    have := rleEncode_fits bs
    rw [Params.rlCap]; omega
  exact { hs with rl := hs.rl.writeBytes 0 _ hfits, regs := hs.regs.write .rlLen _ }

/-- What PACK leaves can be encoded into RL. -/
theorem packThenEncode_legal {w h : Nat} {s packed s' : State} (hs : s.Legal) (hc : w * h ≤ s.params.maxPixels)
    (hp : packImage w h s = .ok packed) (he : encodePacked packed = .ok s') : s'.Legal :=
  encodePacked_legal (packImage_legal hs hc hp) (packImage_pkLen_le hc hp) he

theorem rleDecBody_legal {s s' : State} (hs : s.Legal) (hd : rleDecBody s = .ok s') : s'.Legal := by
  obtain ⟨count, rs, -, hcount, hlen, rfl⟩ := rleDecBody_ok s s' hd
  exact { hs with pk := hs.pk.writeBytes 0 _ (by omega), regs := hs.regs.write .pkLen _ }

/-- The pipeline answers where each of its stages does (45_convert.md R171). -/
theorem pipeline_ok (w h : Nat) (g : F64) (s s' : State) (hp : pipeline w h g s = .ok s') :
    ∃ quantized packed, quantizeBody w h g s = .ok quantized ∧
      packImage w h (if quantized.maskEnabled then maskImage w h quantized else quantized) = .ok packed ∧
      encodePacked packed = .ok s' := by
  unfold pipeline at hp
  cases hq : quantizeBody w h g s with
  | error e => rw [hq] at hp; cases hp
  | ok quantized =>
    rw [hq] at hp
    dsimp only at hp
    cases hk : packImage w h (if quantized.maskEnabled then maskImage w h quantized else quantized) with
    | error e => rw [hk] at hp; cases hp
    | ok packed =>
      rw [hk] at hp
      exact ⟨quantized, packed, rfl, hk, hp⟩

theorem pipeline_legal {w h : Nat} {g : F64} {s s' : State} (hs : s.Legal) (hc : w * h ≤ s.params.maxPixels)
    (hp : pipeline w h g s = .ok s') : s'.Legal := by
  obtain ⟨quantized, packed, hq, hk, he⟩ := pipeline_ok w h g s s' hp
  have hcq : w * h ≤ quantized.params.maxPixels := by
    obtain ⟨cs, -, rfl⟩ := quantizeBody_ok w h g s quantized hq
    exact hc
  have hquantized := quantizeBody_legal hs hc hq
  split_ifs at hk
  · exact packThenEncode_legal (s := maskImage w h quantized) (maskImage_legal hquantized hcq) hcq hk he
  · exact packThenEncode_legal hquantized hcq hk he

/-! ### The checks that bound the image -/

/-- QUANT, MASK and PACK go on only with an image within the capacity (60_exceptions.md R180). -/
theorem pixels_le_of_dims {s : State} (h : ¬ s.badDimensions = true) :
    s.imageWidth * s.imageHeight ≤ s.params.maxPixels := by
  rw [State.badDimensions_iff] at h
  omega

/-- CONVERT goes on only with an image of the panel's size, which is within the capacity. -/
theorem pixels_le_of_panelSized {s : State} (hp : s.params.wf = true) (h : ¬ s.notPanelSized = true) :
    s.imageWidth * s.imageHeight ≤ s.params.maxPixels := by
  rw [State.notPanelSized_iff, not_or, not_not, not_not] at h
  rw [h.1, h.2]
  exact (panelSize_of_wf s.params hp).2

theorem quantBody_legal {s s' : State} (h : s.Legal) (hq : quantBody s = .ok s') : s'.Legal := by
  unfold quantBody at hq
  split_ifs at hq with hdims hgain
  · cases hq
  · cases hq
  · exact quantizeBody_legal h (pixels_le_of_dims hdims) hq

theorem maskBody_legal {s s' : State} (h : s.Legal) (hm : maskBody s = .ok s') : s'.Legal := by
  unfold maskBody at hm
  split_ifs at hm with hdims
  · cases hm
  · cases hm
    exact maskImage_legal h (pixels_le_of_dims hdims)

theorem packBody_legal {s s' : State} (h : s.Legal) (hp : packBody s = .ok s') : s'.Legal := by
  unfold packBody at hp
  split_ifs at hp with hdims
  · cases hp
  · exact packImage_legal h (pixels_le_of_dims hdims) hp

theorem rleEncBody_legal {s s' : State} (h : s.Legal) (he : rleEncBody s = .ok s') : s'.Legal := by
  unfold rleEncBody at he
  split_ifs at he with hlen
  · cases he
  · exact encodePacked_legal h (Nat.le_of_not_gt hlen) he

theorem convertBody_legal {s s' : State} (h : s.Legal) (hc : convertBody s = .ok s') : s'.Legal := by
  unfold convertBody at hc
  split_ifs at hc with hdims hgain
  · cases hc
  · cases hc
  · exact pipeline_legal h (pixels_le_of_panelSized h.params hdims) hc

theorem exec_legal {i : Instr} {s t : State} (h : s.Legal) (ht : exec i s = .next t) : t.Legal := by
  cases i
  case nop =>
    rw [exec_nop, complete_ok] at ht
    cases ht
    exact h.finish .ok
  case lookup => exact complete_legal h (fun _ => lookupBody_legal h) ht
  case quant => exact complete_legal h (fun _ => quantBody_legal h) ht
  case mask => exact complete_legal h (fun _ => maskBody_legal h) ht
  case pack => exact complete_legal h (fun _ => packBody_legal h) ht
  case rleEnc => exact complete_legal h (fun _ => rleEncBody_legal h) ht
  case rleDec => exact complete_legal h (fun _ => rleDecBody_legal h) ht
  case convert => exact complete_legal h (fun _ => convertBody_legal h) ht

theorem blockStep_legal {s t : State} (h : s.Legal) (ht : blockStep s = .next t) : t.Legal := by
  rcases blockStep_cases s with ⟨i, -, hi⟩ | ⟨e, -, he⟩
  · exact exec_legal h (hi.symm.trans ht)
  · cases he.symm.trans ht
    exact h.finish .badOpcode

/-! ### What the host's accesses keep -/

/-- A legal access ends inside its space (20_memory.md R62, R63). -/
theorem accessLegal_le {p : Params} {space : Space} {off width : Nat} (h : accessLegal p space off width = true) :
    off + width ≤ space.size p := by
  cases space
  case reg =>
    obtain ⟨hw, hal, hlt⟩ := of_decide_eq_true h
    rw [Space.size]; omega
  all_goals exact (of_decide_eq_true h).2.2

theorem State.Legal.memory {s : State} (h : s.Legal) (space : Space) :
    (s.memory space).Fits (space.size s.params) := by
  cases space
  case reg => exact Memory.fits_nil _
  case pix => exact h.pix
  case pk => exact h.pk
  case rl => exact h.rl

theorem State.Legal.setMemory {s : State} (h : s.Legal) (space : Space) {m : Memory}
    (hm : m.Fits (space.size s.params)) : (s.setMemory space m).Legal := by
  cases space
  case reg => exact h
  case pix => exact { h with pix := hm }
  case pk => exact { h with pk := hm }
  case rl => exact { h with rl := hm }

theorem State.Legal.hostRead {s : State} (h : s.Legal) (a : HostAddr) (width : Nat) (x : Option Word) :
    (s.hostRead a width x).Legal := by
  obtain ⟨hp, hg, -, hpix, hpk, hrl⟩ := hostRead_block s a width x
  exact h.of_same_block hp hg hpix hpk hrl

theorem State.Legal.performWrite {s : State} (h : s.Legal) {space : Space} {off width : Nat} (v : Word)
    (hacc : accessLegal s.params space off width = true) : (s.performWrite space off width v).Legal := by
  rcases performWrite_cases s space off width v with ⟨-, -, hw⟩ | ⟨-, -, hw⟩ | ⟨r, -, -, -, hw⟩ | ⟨-, hw⟩
  · rwa [hw]
  · rw [hw]
    exact { h with regs := h.regs.start }
  · rw [hw]
    exact { h with regs := h.regs.write r v }
  · rw [hw]
    refine h.setMemory space ((h.memory space).writeBytes off _ ?_)
    rw [leBytes_length]
    exact accessLegal_le hacc

theorem State.Legal.hostWrite {s : State} (h : s.Legal) (a : HostAddr) (width : Nat) (v : Word) :
    (s.hostWrite a width v).Legal := by
  rcases hostWrite_cases s a width v with hw | ⟨space, off, -, hacc, -, hw⟩ | ⟨legal, hw⟩
  · rwa [hw]
  · rw [hw]
    exact h.performWrite v hacc
  · rw [hw, recordRefused_eq]
    exact h.of_same_block rfl rfl rfl rfl rfl

theorem State.Legal.hostOp {s : State} (h : s.Legal) (op : HostOp) : (hostOp s op).Legal := by
  cases op with
  | read a width x => exact h.hostRead a width x
  | write a width v => exact h.hostWrite a width v
  | wait =>
    unfold Machine.hostOp
    split_ifs
    · exact h.of_same_block rfl rfl rfl rfl rfl
    · exact h.of_same_block rfl rfl rfl rfl rfl
  | reset => exact (State.legal_resetOf s.params h.params).of_same_block rfl rfl rfl rfl rfl

theorem State.Legal.hostStep {s : State} (h : s.Legal) : (hostStep s).Legal := by
  unfold Machine.hostStep
  split
  · exact h
  · refine State.Legal.hostOp ?_ _
    exact h.of_same_block rfl rfl rfl rfl rfl

/-- Settles O4: the block's move writes only what a command's body keeps legal, the host's only what a legal access can. -/
theorem stepKeepsTheMachineInvariant : Obligations.StepKeepsTheMachineInvariant := by
  intro s t hinv hstep
  rw [State.inv_iff_legal] at hinv ⊢
  have hturn : s.takeTurn.Legal := hinv.of_same_block rfl rfl rfl rfl rfl
  rcases step_next s t hstep with ⟨-, hblock⟩ | ⟨-, -, rfl⟩ | ⟨-, op, rest, -, rfl⟩
  · exact blockStep_legal hturn hblock
  · exact hinv
  · exact hturn.hostStep

end Sys2Proof.Machine
end

section
/-!
PROOFS. What a command reads and writes (20_memory.md R64, 30_encoding.md R83): its frame, and that no alpha byte of PIX
bears on its outcome. Each command is a body under `complete`. A body first collects what it reads, then writes; it reads
PIX by `readPixel` alone, and its checks look at registers and parameters.
-/

namespace Sys2Proof.Machine

open Sys2Proof.Spec

/-- What a command does before its completion (30_encoding.md R81). -/
def commandBody : Instr → State → Exec State
  | .nop => .ok
  | .lookup => lookupBody
  | .quant => quantBody
  | .mask => maskBody
  | .pack => packBody
  | .rleEnc => rleEncBody
  | .rleDec => rleDecBody
  | .convert => convertBody

theorem exec_eq_complete_body (i : Instr) (s : State) : exec i s = complete s (commandBody i s) := by cases i <;> rfl

/-! ### Each body as its reads, then its writes -/

/-- The colours QUANT writes, from what it reads in PIX (41_quantizer.md R113 to R117). -/
def quantizedColours (dither : Bool) (p : Palette) (w h : Nat) (gain : F64) (m : Memory) : Exec (List Rgb) :=
  if dither then
    collect (adjustedPixel m gain) (List.range (w * h)) >>= ditherScan p w h (rasterOrder w h) >>= collect writeBackPixel
  else collect (flatPixel p m gain) (List.range (w * h))

theorem flatQuantize_eq_map (p : Palette) (w h : Nat) (g : F64) (m : Memory) :
    flatQuantize p w h g m = (quantizedColours false p w h g m).map (writePixels m 0) := by
  unfold flatQuantize quantizedColours
  rw [if_neg Bool.false_ne_true]
  cases collect (flatPixel p m g) (List.range (w * h)) <;> rfl

theorem ditherQuantize_eq_map (p : Palette) (w h : Nat) (g : F64) (m : Memory) :
    ditherQuantize p w h g m = (quantizedColours true p w h g m).map (writePixels m 0) := by
  unfold ditherQuantize quantizedColours
  rw [if_pos rfl]
  cases collect (adjustedPixel m g) (List.range (w * h)) with
  | error e => rfl
  | ok seeds =>
    dsimp only [bind, Except.bind]
    cases ditherScan p w h (rasterOrder w h) seeds with
    | error e => rfl
    | ok buf => dsimp only; cases collect writeBackPixel buf <;> rfl

theorem quantizeBody_eq_map (w h : Nat) (g : F64) (s : State) :
    quantizeBody w h g s =
      (quantizedColours s.dither s.params.palette w h g s.pix).map fun cs => { s with pix := writePixels s.pix 0 cs } := by
  unfold quantizeBody
  cases s.dither
  · rw [if_neg Bool.false_ne_true, flatQuantize_eq_map]
    cases quantizedColours false s.params.palette w h g s.pix <;> rfl
  · rw [if_pos rfl, ditherQuantize_eq_map]
    cases quantizedColours true s.params.palette w h g s.pix <;> rfl

theorem packImage_eq_map (w h : Nat) (s : State) :
    packImage w h s = (collect (scanCode s.params.palette s.pix w h s.rot180) (reversedScan w h)).map fun codes =>
      { s with
        pk := writeBytes s.pk 0 (packNibbles codes)
        regs := { s.regs with pkLen := BitVec.ofNat 32 ((w * h + 1) / 2) } } := by
  unfold packImage
  cases collect (scanCode s.params.palette s.pix w h s.rot180) (reversedScan w h) <;> rfl

theorem encodePacked_eq_map (s : State) :
    encodePacked s = (readBytes s.pk 0 (s.regs.read .pkLen).toNat).map fun bs =>
      { s with
        rl := writeBytes s.rl 0 (rleEncode bs)
        regs := { s.regs with rlLen := lengthWord (rleEncode bs).length } } := by
  unfold encodePacked
  cases readBytes s.pk 0 (s.regs.read .pkLen).toNat <;> rfl

theorem rleDecBody_eq_map (s : State) :
    rleDecBody s = (decodeStream s.params s.rl (s.regs.read .rlLen).toNat).map fun q =>
      { s with
        pk := writeBytes s.pk 0 (packNibbles (expandRuns q.2))
        regs := { s.regs with pkLen := BitVec.ofNat 32 q.1 } } := by
  unfold rleDecBody
  cases decodeStream s.params s.rl (s.regs.read .rlLen).toNat <;> rfl

theorem lookupBody_eq_map (s : State) :
    lookupBody s = (nearest s.params.palette (colourF64 s.colorOperand)).map fun i =>
      { s with regs := { s.regs with result := resultWord i } } := by
  unfold lookupBody
  cases nearest s.params.palette (colourF64 s.colorOperand) <;> rfl

/-- The stages of the pipeline in their order (45_convert.md R171). -/
theorem pipeline_eq_bind (w h : Nat) (g : F64) (s : State) :
    pipeline w h g s =
      quantizeBody w h g s >>= (fun t => .ok (if t.maskEnabled then maskImage w h t else t)) >>= packImage w h >>=
        encodePacked := by
  unfold pipeline
  cases quantizeBody w h g s with
  | error e => rfl
  | ok t =>
    dsimp only [bind, Except.bind]
    cases packImage w h (if t.maskEnabled then maskImage w h t else t) <;> rfl

/-! ### Memories that agree but for alpha bytes -/

/-- A pixel read skips the alpha byte, 4n+3. -/
theorem readPixel_congr {m m' : Memory} (hm : SameButAlpha m m') : readPixel m = readPixel m' := by
  funext n
  unfold readPixel readByte
  rw [hm (4 * n) (by omega), hm (4 * n + 1) (by omega), hm (4 * n + 2) (by omega)]

theorem adjustedPixel_congr {m m' : Memory} (hm : SameButAlpha m m') : adjustedPixel m = adjustedPixel m' := by
  funext gain n
  unfold adjustedPixel
  rw [readPixel_congr hm]

theorem flatPixel_congr (p : Palette) {m m' : Memory} (hm : SameButAlpha m m') : flatPixel p m = flatPixel p m' := by
  funext gain n
  unfold flatPixel
  rw [adjustedPixel_congr hm]

theorem quantizedColours_congr {m m' : Memory} (hm : SameButAlpha m m') (dither : Bool) (p : Palette) (w h : Nat)
    (g : F64) : quantizedColours dither p w h g m = quantizedColours dither p w h g m' := by
  unfold quantizedColours
  rw [adjustedPixel_congr hm, flatPixel_congr p hm]

theorem scanCode_congr (p : Palette) {m m' : Memory} (hm : SameButAlpha m m') : scanCode p m = scanCode p m' := by
  funext w h rot o
  unfold scanCode pixelCode
  rw [readPixel_congr hm]

theorem writePixels_sameButAlpha {m m' : Memory} (hm : SameButAlpha m m') (n : Nat) (cs : List Rgb) :
    SameButAlpha (writePixels m n cs) (writePixels m' n cs) := by
  intro a ha
  rw [get_writePixels, get_writePixels, hm a ha]

theorem maskScan_sameButAlpha (w h : Nat) (ps : List (Nat × Nat)) {m m' : Memory} (hm : SameButAlpha m m') :
    SameButAlpha (maskScan w h ps m) (maskScan w h ps m') := by
  induction ps generalizing m m' with
  | nil => exact hm
  | cons q ps ih =>
    unfold maskScan
    apply ih
    split_ifs
    · exact writePixels_sameButAlpha hm _ [pureWhite]
    · exact hm

/-! ### No outcome depends on an alpha byte -/

/-- The states agree but for alpha bytes of PIX. -/
def State.AgreeButAlpha (t u : State) : Prop := u = { t with pix := u.pix } ∧ SameButAlpha t.pix u.pix

/-- Two answers of the same kind: the same halt, or states that agree but for alpha bytes of PIX. -/
def ExecAgreeButAlpha : Exec State → Exec State → Prop
  | .ok t, .ok u => t.AgreeButAlpha u
  | .error e, .error e' => e = e'
  | _, _ => False

/-- The operation answers alike on states that agree but for alpha bytes of PIX. -/
def AlphaBlind (f : State → Exec State) : Prop :=
  ∀ (s : State) (m : Memory), SameButAlpha s.pix m → ExecAgreeButAlpha (f s) (f { s with pix := m })

/-- Writes that agree but for alpha bytes, after the same reads. -/
theorem ExecAgreeButAlpha.map {α : Type} (r : Exec α) {f g : α → State} (h : ∀ a, (f a).AgreeButAlpha (g a)) :
    ExecAgreeButAlpha (r.map f) (r.map g) := by
  cases r with
  | error e => rfl
  | ok a => exact h a

/-- A check that does not look at PIX. -/
theorem AlphaBlind.guard {f : State → Exec State} (hf : AlphaBlind f) (check : State → Prop) [DecidablePred check]
    (e : ErrCode) (hc : ∀ s m, check { s with pix := m } = check s) :
    AlphaBlind fun s => if check s then raise e else f s := by
  intro s m hm
  simp only [hc s m]
  split_ifs
  · rfl
  · exact hf s m hm

theorem AlphaBlind.bind {f g : State → Exec State} (hf : AlphaBlind f) (hg : AlphaBlind g) :
    AlphaBlind fun s => f s >>= g := by
  intro s m hm
  have hfs := hf s m hm
  dsimp only
  cases hs : f s <;> cases hu : f { s with pix := m } <;> rw [hs, hu] at hfs
  case error.error => exact hfs
  case error.ok | ok.error => exact hfs.elim
  case ok.ok t u =>
    obtain ⟨hut, hpix⟩ := hfs
    have hgt := hg t u.pix hpix
    rwa [← hut] at hgt

theorem lookupBody_alphaBlind : AlphaBlind lookupBody := by
  intro s m hm
  rw [lookupBody_eq_map, lookupBody_eq_map]
  exact ExecAgreeButAlpha.map _ fun _ => ⟨rfl, hm⟩

theorem quantizeBody_alphaBlind (w h : Nat) (g : F64) : AlphaBlind (quantizeBody w h g) := by
  intro s m hm
  rw [quantizeBody_eq_map, quantizeBody_eq_map, quantizedColours_congr hm]
  exact ExecAgreeButAlpha.map _ fun cs => ⟨rfl, writePixels_sameButAlpha hm 0 cs⟩

theorem maskImage_alphaBlind (w h : Nat) : AlphaBlind fun s => .ok (maskImage w h s) :=
  fun _ _ hm => ⟨rfl, maskScan_sameButAlpha w h _ hm⟩

theorem packImage_alphaBlind (w h : Nat) : AlphaBlind (packImage w h) := by
  intro s m hm
  rw [packImage_eq_map, packImage_eq_map, scanCode_congr _ hm]
  exact ExecAgreeButAlpha.map _ fun _ => ⟨rfl, hm⟩

theorem encodePacked_alphaBlind : AlphaBlind encodePacked := by
  intro s m hm
  rw [encodePacked_eq_map, encodePacked_eq_map]
  exact ExecAgreeButAlpha.map _ fun _ => ⟨rfl, hm⟩

theorem rleDecBody_alphaBlind : AlphaBlind rleDecBody := by
  intro s m hm
  rw [rleDecBody_eq_map, rleDecBody_eq_map]
  exact ExecAgreeButAlpha.map _ fun _ => ⟨rfl, hm⟩

/-- The pipeline's mask stage, which CONFIG.MASK switches. -/
theorem maskStage_alphaBlind (w h : Nat) : AlphaBlind fun s => .ok (if s.maskEnabled then maskImage w h s else s) := by
  intro s m hm
  change ExecAgreeButAlpha (.ok (if s.maskEnabled then _ else _)) (.ok (if s.maskEnabled then _ else _))
  split_ifs
  · exact maskImage_alphaBlind w h s m hm
  · exact ⟨rfl, hm⟩

theorem pipeline_alphaBlind (w h : Nat) (g : F64) : AlphaBlind (pipeline w h g) := by
  rw [funext (pipeline_eq_bind w h g)]
  exact (((quantizeBody_alphaBlind w h g).bind (maskStage_alphaBlind w h)).bind (packImage_alphaBlind w h)).bind
    encodePacked_alphaBlind

/-- The operation at each state's own image size and gain, which are registers. -/
theorem AlphaBlind.at_operands {f : Nat → Nat → F64 → State → Exec State} (hf : ∀ w h g, AlphaBlind (f w h g)) :
    AlphaBlind fun s => f s.imageWidth s.imageHeight s.gain s :=
  fun s => hf s.imageWidth s.imageHeight s.gain s

theorem commandBody_alphaBlind (i : Instr) : AlphaBlind (commandBody i) := by
  cases i
  case nop => exact fun _ _ hm => ⟨rfl, hm⟩
  case lookup => exact lookupBody_alphaBlind
  case quant =>
    exact ((AlphaBlind.at_operands quantizeBody_alphaBlind).guard (fun s => (!gainOk s.gain) = true) .badGain
      fun _ _ => rfl).guard (fun s => s.badDimensions = true) .invalidDimensions fun _ _ => rfl
  case mask =>
    exact (AlphaBlind.at_operands fun w h _ => maskImage_alphaBlind w h).guard (fun s => s.badDimensions = true)
      .invalidDimensions fun _ _ => rfl
  case pack =>
    exact (AlphaBlind.at_operands fun w h _ => packImage_alphaBlind w h).guard (fun s => s.badDimensions = true)
      .invalidDimensions fun _ _ => rfl
  case rleEnc =>
    exact encodePacked_alphaBlind.guard (fun s => (s.regs.read .pkLen).toNat > s.params.pkCap) .capacity fun _ _ => rfl
  case rleDec => exact rleDecBody_alphaBlind
  case convert =>
    exact ((AlphaBlind.at_operands pipeline_alphaBlind).guard (fun s => (!gainOk s.gain) = true) .badGain
      fun _ _ => rfl).guard (fun s => s.notPanelSized = true) .invalidDimensions fun _ _ => rfl

/-- Completion changes STATUS, and an error leaves PIX, so it keeps the agreement. -/
theorem complete_agreeButAlpha {s : State} {m : Memory} (hm : SameButAlpha s.pix m) {r r' : Exec State}
    (h : ExecAgreeButAlpha r r') : AgreeButAlpha (complete s r) (complete { s with pix := m } r') := by
  rcases r with (e | f) | t <;> rcases r' with (e' | f') | u
  case ok.ok => exact ⟨congrArg (State.finish · .ok) h.1, h.2⟩
  case error.error.error.error => cases h; exact ⟨rfl, hm⟩
  case error.fault.error.fault => cases h; rfl
  all_goals cases h

/-- Settles O17: every body reads PIX through `readPixel`, which skips the alpha byte. -/
theorem alphaNeverRead : Obligations.AlphaNeverRead := by
  intro i s m hm
  rw [exec_eq_complete_body, exec_eq_complete_body]
  exact complete_agreeButAlpha hm (commandBody_alphaBlind i s m hm)

/-! ### What each command leaves unchanged -/

/-- An operation behind a check answers only where the check passes. -/
theorem guard_ok {α : Type} {c : Prop} [Decidable c] {e : ErrCode} {r : Exec α} {a : α}
    (h : (if c then raise e else r) = .ok a) : r = .ok a := by
  split_ifs at h
  · cases h
  · exact h

/-- QUANT writes pixels of PIX alone. -/
theorem quantBody_writes {s s' : State} (h : quantBody s = .ok s') :
    ∃ cs, s' = { s with pix := writePixels s.pix 0 cs } := by
  obtain ⟨cs, -, hcs⟩ := quantizeBody_ok _ _ _ _ _ (guard_ok (guard_ok h))
  exact ⟨cs, hcs⟩

/-- MASK writes PIX alone. -/
theorem maskBody_writes {s s' : State} (h : maskBody s = .ok s') :
    s' = maskImage s.imageWidth s.imageHeight s := by
  cases guard_ok h
  rfl

/-- PACK writes PK and PK_LEN alone. -/
theorem packBody_writes {s s' : State} (h : packBody s = .ok s') :
    ∃ pk len, s' = { s with pk := pk, regs := { s.regs with pkLen := len } } := by
  obtain ⟨codes, -, -, hs'⟩ := packImage_ok _ _ _ _ (guard_ok h)
  exact ⟨_, _, hs'⟩

/-- CONVERT writes PIX, PK, RL and the two lengths alone. -/
theorem convertBody_writes {s s' : State} (h : convertBody s = .ok s') :
    ∃ pix pk rl pkLen rlLen, s' =
      { s with pix := pix, pk := pk, rl := rl, regs := { s.regs with pkLen := pkLen, rlLen := rlLen } } := by
  obtain ⟨quantized, packed, hq, hp, he⟩ := pipeline_ok _ _ _ _ _ (guard_ok (guard_ok h))
  obtain ⟨cs, -, rfl⟩ := quantizeBody_ok _ _ _ _ _ hq
  obtain ⟨codes, -, -, rfl⟩ := packImage_ok _ _ _ _ hp
  obtain ⟨bs, -, rfl⟩ := encodePacked_ok _ _ he
  split_ifs
  · exact ⟨_, _, _, _, _, rfl⟩
  · exact ⟨_, _, _, _, _, rfl⟩

/-- Settles O15: a body writes its own outputs, and completion writes STATUS. -/
theorem commandFrame : Obligations.CommandFrame := by
  intro i s t h
  rw [exec_eq_complete_body] at h
  rcases complete_next s t _ h with ⟨s', hs', rfl⟩ | ⟨e, -, rfl⟩
  · cases i
    case nop => cases hs'; simp
    case lookup =>
      obtain ⟨i, -, hi⟩ := lookupBody_ok s
      cases hi.symm.trans hs'
      simp
    case quant => obtain ⟨cs, rfl⟩ := quantBody_writes hs'; simp
    case mask => cases maskBody_writes hs'; simp [maskImage]
    case pack => obtain ⟨pk, len, rfl⟩ := packBody_writes hs'; simp
    case rleEnc => obtain ⟨bs, -, rfl⟩ := encodePacked_ok _ _ (guard_ok hs'); simp
    case rleDec => obtain ⟨count, rs, -, -, -, rfl⟩ := rleDecBody_ok _ _ hs'; simp
    case convert => obtain ⟨pix, pk, rl, pkLen, rlLen, rfl⟩ := convertBody_writes hs'; simp
  · simp

end Sys2Proof.Machine
end

section
/-!
PROOFS. Host accesses of the memories while BUSY = 0 (20_memory.md R60 to R67, R74), and where a bus address leads. A legal
access of a memory is one `writeBytes`, or one value noted; the value is the little-endian integer of the bytes read.
-/

namespace Sys2Proof.Machine

open Sys2Proof.Spec

/-! ### The bytes of a little-endian integer -/

theorem leNat_lt (bs : List Byte) : leNat bs < 256 ^ bs.length := by
  induction bs with
  | nil => decide
  | cons b bs ih =>
    have hb : b.toNat < 256 := b.isLt
    rw [leNat, List.length_cons, Nat.pow_succ]
    omega

/-- Byte `i` of the integer is the byte at place `i`. -/
theorem leNat_byte (bs : List Byte) (i : Nat) (b : Byte) (h : bs[i]? = some b) : leNat bs / 256 ^ i % 256 = b.toNat := by
  induction bs generalizing i with
  | nil => cases h
  | cons c bs ih =>
    have hc : c.toNat < 256 := c.isLt
    cases i with
    | zero =>
      cases h
      rw [leNat, Nat.pow_zero]
      omega
    | succ i =>
      have hrest : (c.toNat + 256 * leNat bs) / 256 = leNat bs := by omega
      rw [leNat, Nat.pow_succ', ← Nat.div_div_eq_div_mul, hrest]
      exact ih i h

/-- The word a host read of these bytes returns, at most four of them (20_memory.md R61). -/
def wordOf (bs : List Byte) : Word := BitVec.ofNat 32 (leNat bs)

theorem wordOf_toNat (bs : List Byte) (h : bs.length ≤ 4) : (wordOf bs).toNat = leNat bs := by
  have hlt : leNat bs < 2 ^ 32 := (leNat_lt bs).trans_le (Nat.pow_le_pow_right (n := 256) (by decide) h)
  rw [wordOf, BitVec.toNat_ofNat, Nat.mod_eq_of_lt hlt]

theorem wordOf_byte (bs : List Byte) (h : bs.length ≤ 4) (i : Nat) (b : Byte) (hi : bs[i]? = some b) :
    (wordOf bs).extractLsb' (8 * i) 8 = b := by
  apply BitVec.eq_of_toNat_eq
  rw [BitVec.extractLsb'_toNat, wordOf_toNat bs h, Nat.shiftRight_eq_div_pow, Nat.pow_mul]
  exact leNat_byte bs i b hi

theorem append_byte_toNat {n : Nat} (x : BitVec n) (b : Byte) : (x ++ b).toNat = b.toNat + 256 * x.toNat := by
  rw [BitVec.toNat_append, ← Nat.shiftLeft_add_eq_or_of_lt b.isLt, Nat.shiftLeft_eq]
  omega

theorem wordOf_two (r g : Byte) : wordOf [r, g] = 0#16 ++ g ++ r := by
  apply BitVec.eq_of_toNat_eq
  rw [wordOf_toNat [r, g] (by decide : 2 ≤ 4)]
  simp only [append_byte_toNat, leNat, BitVec.toNat_ofNat, Nat.zero_mod]

theorem wordOf_four (r g b alpha : Byte) : wordOf [r, g, b, alpha] = alpha ++ b ++ g ++ r := by
  apply BitVec.eq_of_toNat_eq
  rw [wordOf_toNat [r, g, b, alpha] (by decide : 4 ≤ 4)]
  simp only [append_byte_toNat, leNat, Nat.mul_zero, Nat.add_zero]

/-! ### Which accesses are legal, and what a refused one does -/

theorem accessLegal_iff (p : Params) (space : Space) (off width : Nat) :
    accessLegal p space off width = true ↔ LegalAccess p space off width := by
  cases space <;> simp [accessLegal, LegalAccess]

/-- A legal access of a memory covers 1, 2 or 4 bytes (20_memory.md R63). -/
theorem width_le_of_legal {p : Params} {space : Space} {off width : Nat} (hs : space ≠ .reg)
    (h : LegalAccess p space off width) : width ≤ 4 := by
  rw [LegalAccess, if_neg hs] at h
  omega

/-- Settles O55: an access the space does not have is refused, and a refusal while BUSY = 0 marks HostMisuse alone. -/
theorem misuseHasNoEffect : Obligations.MisuseHasNoEffect := by
  intro s a width v x space off hb hr hl
  have hacc : accessLegal s.params space off width = false := by
    rw [Bool.eq_false_iff, ne_eq, accessLegal_iff]
    exact hl
  have hrefused : s.recordRefused false = withFaults s s.host.faults.hostHazard true := by
    rw [recordRefused_eq, hb]
    rfl
  simp [State.hostRead, State.hostWrite, hr, hacc, hrefused]

/-! ### Legal accesses of a memory -/

section LegalAccesses

variable {s : State} {space : Space} {off width : Nat} (hb : s.busy = false) (hs : space ≠ .reg)
  (hl : LegalAccess s.params space off width)

include hb hs hl

theorem hostWrite_memory (v : Word) :
    s.hostWrite (.at space off) width v = s.setMemory space (writeBytes (s.memory space) off (leBytes width v)) := by
  have hacc := (accessLegal_iff s.params space off width).mpr hl
  have hperf : s.hostWrite (.at space off) width v = s.performWrite space off width v := by
    simp [State.hostWrite, resolve, hacc, hb]
  rcases performWrite_cases s space off width v with ⟨h, -⟩ | ⟨h, -⟩ | ⟨r, h, -⟩ | ⟨-, hw⟩
  · exact absurd h hs
  · exact absurd h hs
  · exact absurd h hs
  · rw [hperf, hw]

theorem hostRead_memory (x : Option Word) :
    s.hostRead (.at space off) width x =
      { s with host := { s.host with
          reads := s.host.reads ++ [⟨space, off, width, wordOf (hostBytes (s.memory space) off width s.host.draws), x⟩]
          draws := s.host.draws + width } } := by
  have hacc := (accessLegal_iff s.params space off width).mpr hl
  have hperf : s.hostRead (.at space off) width x = s.performRead space off width x := by
    simp [State.hostRead, resolve, hacc, hb]
  rw [hperf]
  cases space
  case reg => contradiction
  all_goals rfl

end LegalAccesses

theorem hostBytes_length (m : Memory) (a width d : Nat) : (hostBytes m a width d).length = width := by
  rw [hostBytes, List.length_map, List.length_range]

theorem hostBytes_getElem? (m : Memory) (a width d i : Nat) (h : i < width) :
    (hostBytes m a width d)[i]? = some (hostByte m (a + i) (d + i)) := by
  rw [hostBytes, List.getElem?_map, List.getElem?_range h, Option.map_some]

theorem hostByte_written {m : Memory} {a : Nat} {b : Byte} (h : m.get a = some b) (d : Nat) : hostByte m a d = b := by
  rw [hostByte, h]

theorem hostByte_unwritten {m : Memory} {a : Nat} (h : m.get a = none) (d : Nat) :
    hostByte m a d = Config.freeByte d := by
  rw [hostByte, h]

/-- The value of a host read shows each byte it covers at its little-endian place (20_memory.md R61). -/
theorem hostBytes_value_byte (m : Memory) (a width d i : Nat) (hw : width ≤ 4) (hi : i < width) :
    (wordOf (hostBytes m a width d)).extractLsb' (8 * i) 8 = hostByte m (a + i) (d + i) :=
  wordOf_byte _ (by rwa [hostBytes_length]) i _ (hostBytes_getElem? m a width d i hi)

/-- Settles O51: the write is one `writeBytes` of the word's bytes, and no other field changes. -/
theorem hostMemoryWrite : Obligations.HostMemoryWrite := by
  intro s space off width v hb hs hl
  rw [hostWrite_memory hb hs hl]
  refine ⟨fun a => ?_, fun other ho => State.setMemory_other s space other _ ho, State.setMemory_regs ..,
    State.setMemory_host .., State.setMemory_pendingOpc .., State.setMemory_params ..⟩
  rw [State.setMemory_same s space _ hs, get_writeBytes, leBytes_length]
  split_ifs with ha
  · exact leBytes_getElem? width v (a - off) (by omega)
  · rfl

/-- Settles O59: a written byte is read as it stands, and four bytes or fewer fit the word. -/
theorem hostMemoryRead : Obligations.HostMemoryRead := by
  intro s space off width x hb hs hl
  have hw := width_le_of_legal hs hl
  refine ⟨_, _, hostRead_memory hb hs hl x, fun i b hi hget => ?_, ?_⟩
  · rw [hostBytes_value_byte _ _ _ _ _ hw hi, hostByte_written hget]
  · have hlt := leNat_lt (hostBytes (s.memory space) off width s.host.draws)
    rwa [hostBytes_length, ← wordOf_toNat _ (by rwa [hostBytes_length])] at hlt

/-- Settles O53: byte `i` of the read draws number `draws + i` where it is unwritten. -/
theorem hostReadOfUnwrittenIsADraw : Obligations.HostReadOfUnwrittenIsADraw := by
  intro s space off width x hb hs hl
  refine ⟨_, hostRead_memory hb hs hl x, fun i hi hget => ?_⟩
  rw [hostBytes_value_byte _ _ _ _ _ (width_le_of_legal hs hl) hi, hostByte_unwritten hget]

/-- Settles O52: pixel `n` begins at 4n, which is aligned for both widths and inside PIX. -/
theorem hostReadsAPixel : Obligations.HostReadsAPixel := by
  intro s n r g x hb hn hr hg
  have hpix : Space.size s.params .pix = 4 * s.params.maxPixels := rfl
  have hne : Space.pix ≠ .reg := by decide
  have hl (width : Nat) (hw : width = 2 ∨ width = 4) : LegalAccess s.params .pix (4 * n) width := by
    rw [LegalAccess, if_neg hne, hpix]
    rcases hw with rfl | rfl <;> omega
  refine ⟨fun b alpha hblue halpha => ⟨s.host.draws + 4, ?_⟩, s.host.draws + 2, ?_⟩
  · have hbytes : hostBytes s.pix (4 * n) 4 s.host.draws = [r, g, b, alpha] := by
      simp [hostBytes, List.range_succ, hostByte, hr, hg, hblue, halpha]
    rw [hostRead_memory hb hne (hl 4 (.inr rfl)), ← wordOf_four, ← hbytes]
    rfl
  · have hbytes : hostBytes s.pix (4 * n) 2 s.host.draws = [r, g] := by
      simp [hostBytes, List.range_succ, hostByte, hr, hg]
    rw [hostRead_memory hb hne (hl 2 (.inl rfl)), ← wordOf_two, ← hbytes]
    rfl

/-! ### Bus addresses -/

theorem Space.holds_iff (p : Params) (space : Space) (a : Nat) :
    Space.holds p space a = true ↔ space.base p ≤ a ∧ a < space.base p + space.size p := decide_eq_true_iff

theorem windowsApart_iff (a n b m : Nat) : windowsApart a n b m = true ↔ a + n ≤ b ∨ b + m ≤ a := by
  simp [windowsApart]

/-- The windows of a legal part do not meet (20_memory.md R60). -/
theorem Space.holds_unique {p : Params} (hp : p.wf = true) {sp sp' : Space} {a : Nat} (h : Space.holds p sp a = true)
    (h' : Space.holds p sp' a = true) : sp = sp' := by
  simp only [Params.wf, Bool.and_eq_true, windowsApart_iff] at hp
  obtain ⟨⟨⟨⟨⟨⟨-, hregPix⟩, hregPk⟩, hregRl⟩, hpixPk⟩, hpixRl⟩, hpkRl⟩ := hp
  rw [Space.holds_iff] at h h'
  cases sp <;> cases sp' <;> simp only [Space.base, Space.size] at h h'
  case reg.reg | pix.pix | pk.pk | rl.rl => rfl
  all_goals omega

theorem resolve_bus_inside {p : Params} (hp : p.wf = true) {space : Space} {a : Nat}
    (h : Space.holds p space a = true) : resolve p (.bus a) = some (space, a - space.base p) := by
  unfold resolve
  dsimp only
  cases hf : [Space.reg, Space.pix, Space.pk, Space.rl].find? fun sp => Space.holds p sp a with
  | none => exact absurd h (List.find?_eq_none.mp hf space (by cases space <;> decide))
  | some sp =>
    have hsp : Space.holds p sp a = true := List.find?_some (p := fun sp => Space.holds p sp a) hf
    rw [Space.holds_unique hp h hsp]

theorem resolve_bus_outside {p : Params} {a : Nat} (h : ∀ space, ¬ Space.holds p space a = true) :
    resolve p (.bus a) = none := by
  have hf : ([Space.reg, Space.pix, Space.pk, Space.rl].find? fun sp => Space.holds p sp a) = none :=
    List.find?_eq_none.mpr fun space _ => h space
  unfold resolve
  dsimp only
  rw [hf]

/-- Settles O56: at most one window holds an address, and an access no window holds leads nowhere. -/
theorem busAddressesReachTheirSpaces : Obligations.BusAddressesReachTheirSpaces := by
  intro p hp
  refine ⟨fun space off hoff => ?_, fun a ha => ?_⟩
  · rw [resolve_bus_inside hp ((Space.holds_iff p space _).mpr (by omega)), Nat.add_sub_cancel_left]
  · have hnone : resolve p (.bus a) = none :=
      resolve_bus_outside fun space h => ha space ((Space.holds_iff p space a).mp h)
    refine ⟨hnone, fun s width v x hsp => ?_⟩
    subst hsp
    rw [State.hostRead, State.hostWrite, hnone]
    exact ⟨rfl, rfl⟩

end Sys2Proof.Machine
end

section
/-!
PROOFS. Command words (30_encoding.md R80 to R82). The number of a word decides alone: from 256 on the field Z is not zero,
and a word below 256 is its own OPC, for which the opcode map has a command only below 8.
-/

namespace Sys2Proof.Machine

/-- The opcode map has each command at that command's opcode, and nowhere else (30_encoding.md R81). -/
theorem opcodeMap_eq_some_iff (n : Nat) (i : Instr) : opcodeMap n = some i ↔ n = (opcodeOf i).toNat := by
  constructor
  · unfold opcodeMap
    split <;> rintro ⟨⟩ <;> rfl
  · rintro rfl
    cases i <;> rfl

/-- Every number below 8 is an opcode, and no other. -/
theorem exists_opcodeMap_eq_some_iff (n : Nat) : (∃ i, opcodeMap n = some i) ↔ n < 8 := by
  simp only [opcodeMap_eq_some_iff]
  constructor
  · rintro ⟨i, rfl⟩
    cases i <;> decide
  · intro h
    interval_cases n
    exacts [⟨.nop, rfl⟩, ⟨.lookup, rfl⟩, ⟨.quant, rfl⟩, ⟨.mask, rfl⟩, ⟨.pack, rfl⟩, ⟨.rleEnc, rfl⟩, ⟨.rleDec, rfl⟩,
      ⟨.convert, rfl⟩]

theorem opcodeMap_of_ge (n : Nat) (h : 8 ≤ n) : opcodeMap n = none :=
  Option.eq_none_iff_forall_ne_some.mpr fun i hi =>
    absurd ((exists_opcodeMap_eq_some_iff n).mp ⟨i, hi⟩) h.not_gt

theorem encode_toNat (i : Instr) : (encode i).toNat = (opcodeOf i).toNat :=
  BitVec.toNat_setWidth_of_le (by decide)

/-- The field Z of a word is zero exactly where the word is below 256 (30_encoding.md R80). -/
theorem highField_eq_zero_iff (w : Word) : w.extractLsb' 8 24 = 0#24 ↔ w.toNat < 256 := by
  rw [← BitVec.toNat_inj, BitVec.extractLsb'_toNat, Nat.shiftRight_eq_div_pow, BitVec.toNat_ofNat]
  omega

theorem decode_of_ge (w : Word) (h : 256 ≤ w.toNat) : decode w = .error .nonzeroHighBits := by
  rw [decode, if_pos (mt (highField_eq_zero_iff w).mp h.not_gt)]

/-- The OPC of a word below 256 is the word's number, so the map decides alone. -/
theorem decode_of_lt (w : Word) (h : w.toNat < 256) :
    decode w = (opcodeMap w.toNat).elim (.error .reservedOpcode) .ok := by
  have hopc : (w.extractLsb' 0 8).toNat = w.toNat := by
    rw [BitVec.extractLsb'_toNat, Nat.shiftRight_zero, Nat.mod_eq_of_lt h]
  rw [decode, if_neg (not_not.mpr ((highField_eq_zero_iff w).mpr h)), hopc]
  cases opcodeMap w.toNat <;> rfl

/-- A word decodes as the opcode map says of its number, the words with a nonzero field Z included. -/
theorem decode_eq_ok_iff (w : Word) (i : Instr) : decode w = .ok i ↔ opcodeMap w.toNat = some i := by
  rcases Nat.lt_or_ge w.toNat 256 with h | h
  · rw [decode_of_lt w h]
    cases opcodeMap w.toNat <;> simp
  · rw [decode_of_ge w h, opcodeMap_of_ge _ (by omega)]
    exact iff_of_false nofun nofun

theorem exists_decode_eq_ok_iff (w : Word) : (∃ i, decode w = .ok i) ↔ w.toNat < 8 := by
  simp only [decode_eq_ok_iff, exists_opcodeMap_eq_some_iff]

/-- Settles O6: the opcode map and the opcodes are inverse to each other, and a word is its number. -/
theorem decodeAcceptsExactlyTheEncodings : Obligations.DecodeAcceptsExactlyTheEncodings := by
  intro w i
  rw [decode_eq_ok_iff, opcodeMap_eq_some_iff, ← encode_toNat, BitVec.toNat_inj]

/-- Settles O7: from 256 the field Z is not zero, and from 8 to 255 the opcode map has no command. -/
theorem decodeRejectsByName : Obligations.DecodeRejectsByName := by
  refine fun w => ⟨decode_of_ge w, fun h8 h256 => ?_, (exists_decode_eq_ok_iff w).mpr⟩
  rw [decode_of_lt w h256, opcodeMap_of_ge _ h8]
  rfl

/-- Settles O8: each word is the command's own encoding. -/
theorem decodeSampleWords : Obligations.DecodeSampleWords := by
  have h (i : Instr) : decode (encode i) = .ok i := (decodeAcceptsExactlyTheEncodings _ i).mpr rfl
  exact ⟨h .nop, h .lookup, h .quant, h .mask, h .pack, h .rleEnc, h .rleDec, h .convert⟩

/-- Settles O12: a word whose OPC is 8 or more, or with a bit above it, is 8 or more; code 1 over DONE is
STATUS = 0x12. -/
theorem illegalWordRaisesBadOpcode : Obligations.IllegalWordRaisesBadOpcode := by
  refine ⟨fun w => ?_, fun s hs => ?_⟩
  · rw [exists_decode_eq_ok_iff]
    omega
  · rcases blockStep_cases s with ⟨i, hi, -⟩ | ⟨-, -, hstep⟩
    · have hlt := (exists_decode_eq_ok_iff s.pendingOpc).mp ⟨i, hi⟩
      omega
    · exact hstep

end Sys2Proof.Machine
end

section
/-!
PROOFS. The patterns of binary64 values (30_encoding.md R84). A pattern is its sign, exponent and fraction side by side,
and `fieldsOf` finds the last two again in the magnitude that `magOf` makes of them.
-/

namespace Sys2Proof

/-- A pattern is its three fields side by side. -/
theorem F64.fields_append (b : BitVec 64) :
    BitVec.ofBool (b.getLsbD 63) ++ (b.extractLsb' 52 11 ++ b.extractLsb' 0 52) = b := by
  have hsign : BitVec.ofBool (b.getLsbD 63) = b.extractLsb' 63 1 := by
    apply BitVec.eq_of_getLsbD_eq
    simp
  rw [hsign, BitVec.extractLsb'_append_extractLsb'_eq_extractLsb' (show 52 = 0 + 52 from rfl),
    BitVec.extractLsb'_append_extractLsb'_eq_extractLsb' (show 63 = 0 + (11 + 52) from rfl)]
  exact BitVec.extractLsb'_eq_self

/-- Exponent and fraction side by side are the number `exponent * 2^52 + fraction`. -/
theorem F64.ofNat_fields (e : BitVec 11) (f : BitVec 52) : BitVec.ofNat 63 (e.toNat * pow2 52 + f.toNat) = e ++ f := by
  apply BitVec.eq_of_toNat_eq
  rw [BitVec.toNat_append, ← Nat.shiftLeft_add_eq_or_of_lt f.isLt, Nat.shiftLeft_eq, BitVec.toNat_ofNat, pow2_eq]
  omega

/-- A normal magnitude has its leading bit `e - 1` places above bit 52. -/
theorem F64.topBit_normal (e f : Nat) (hf : f < 2 ^ 52) : topBit ((pow2 52 + f) * pow2 (e - 1)) = 52 + (e - 1) := by
  have hlog : Nat.log2 (2 ^ 52 + f) = 52 := (Nat.log2_eq_iff (by omega)).mpr ⟨by omega, by omega⟩
  rw [topBit_eq, pow2_eq, pow2_eq, log2_mul_pow _ _ (by omega), hlog]

/-- The fields of a magnitude are those it was made of: a subnormal one is its fraction, a normal one is its leading bit
and its fraction shifted by the exponent. -/
theorem F64.fieldsOf_magOf (e f : Nat) (hf : f < 2 ^ 52) : F64.fieldsOf (F64.magOf e f) = e * pow2 52 + f := by
  rcases Nat.eq_zero_or_pos e with rfl | he
  · rw [← pow2_eq] at hf
    rw [F64.magOf, if_pos rfl, F64.fieldsOf, if_pos hf, Nat.zero_mul, Nat.zero_add]
  · have hnormal : ¬ (pow2 52 + f) * pow2 (e - 1) < pow2 52 :=
      Nat.not_lt.mpr ((Nat.le_add_right _ f).trans (Nat.le_mul_of_pos_right _ (pow2_pos _)))
    rw [F64.magOf, if_neg he.ne', F64.fieldsOf, if_neg hnormal, F64.topBit_normal e f hf, Nat.add_sub_cancel_left,
      Nat.mul_div_cancel _ (pow2_pos _), Nat.add_sub_cancel_left, show 52 + (e - 1) - 51 = e by omega]

theorem F64.toBits_fin_magOf (s : Bool) (e : BitVec 11) (f : BitVec 52) :
    F64.toBits (.fin s (F64.magOf e.toNat f.toNat)) = some (BitVec.ofBool s ++ (e ++ f)) := by
  rw [F64.toBits, F64.fieldsOf_magOf _ _ f.isLt, F64.ofNat_fields]

theorem F64.toBits_inf (s : Bool) : F64.toBits (.inf s) = some (BitVec.ofBool s ++ (0x7FF#11 ++ 0#52)) := by
  cases s <;> decide

/-- The value of a pattern by its exponent and fraction: NaN, infinite or finite (30_encoding.md R84). -/
theorem F64.ofBits_cases (b : BitVec 64) :
    (b.extractLsb' 52 11 = 0x7FF#11 ∧ b.extractLsb' 0 52 ≠ 0#52 ∧ F64.ofBits b = .nan) ∨
      (b.extractLsb' 52 11 = 0x7FF#11 ∧ b.extractLsb' 0 52 = 0#52 ∧ F64.ofBits b = .inf (b.getLsbD 63)) ∨
      (b.extractLsb' 52 11 ≠ 0x7FF#11 ∧ F64.ofBits b =
        .fin (b.getLsbD 63) (F64.magOf (b.extractLsb' 52 11).toNat (b.extractLsb' 0 52).toNat)) := by
  have hexp : (b.extractLsb' 52 11).toNat = 0x7FF ↔ b.extractLsb' 52 11 = 0x7FF#11 := BitVec.toNat_inj (y := 0x7FF#11)
  have hfrac : (b.extractLsb' 0 52).toNat = 0 ↔ b.extractLsb' 0 52 = 0#52 := BitVec.toNat_inj (y := 0#52)
  simp only [F64.ofBits, hexp, hfrac]
  split_ifs with he hf
  · exact .inr (.inl ⟨he, hf, rfl⟩)
  · exact .inl ⟨he, hf, rfl⟩
  · exact .inr (.inr ⟨he, rfl⟩)

/-- Settles O21: an infinite or finite value keeps the sign, exponent and fraction it was read from. -/
theorem gainPatternRoundTrip : Obligations.GainPatternRoundTrip := by
  intro b
  rcases F64.ofBits_cases b with ⟨he, hf, hv⟩ | ⟨he, hf, hv⟩ | ⟨he, hv⟩
  · exact ⟨iff_of_true hv ⟨he, hf⟩, fun h => absurd hv h⟩
  · refine ⟨iff_of_false (by rw [hv]; nofun) fun h => h.2 hf, fun _ => ?_⟩
    rw [hv, F64.toBits_inf, ← he, ← hf, F64.fields_append]
  · refine ⟨iff_of_false (by rw [hv]; nofun) fun h => he h.1, fun _ => ?_⟩
    rw [hv, F64.toBits_fin_magOf, F64.fields_append]

/-- Settles O22: each row of the table evaluates, on both sides, to one magnitude in units of 2^-1074. -/
theorem gainExamplePatterns : Obligations.GainExamplePatterns :=
  ⟨Machine.ofBits_one, by decide +kernel, by decide +kernel, by decide +kernel, by decide +kernel⟩

end Sys2Proof
end

section
/-!
PROOFS. The palette index and its two commands (40_palette.md R100 to R104). A distance of finite channels is never NaN and
never negative, so `flt` orders the distances and the loop of `nearest` keeps the lowest position of least distance. The
distance of two integer colours is the integer squared distance.
-/

namespace Sys2Proof

open Sys2Proof.Spec

/-! ### Values that are neither NaN nor negative -/

/-- Neither NaN nor of negative sign. -/
inductive F64.NonNeg : F64 → Prop
  | inf : NonNeg (.inf false)
  | fin (m : Nat) : NonNeg (.fin false m)

/-- The magnitude of a value that is not negative, infinity above every finite one. -/
def F64.rank : F64 → ℕ∞
  | .fin _ m => m
  | _ => ⊤

/-- `flt` is the order of the magnitudes. -/
theorem F64.lt_iff_rank {x y : F64} (hx : x.NonNeg) (hy : y.NonNeg) : F64.lt x y = true ↔ x.rank < y.rank := by
  cases hx <;> cases hy
  case inf.inf | inf.fin | fin.inf => simp [F64.lt, F64.rank]
  case fin.fin m n =>
    rw [F64.lt_fin, units_false, units_false, F64.rank, F64.rank]
    norm_cast

theorem F64.nonNeg_signedResult (m : Nat) : (signedResult false m).NonNeg := by
  unfold signedResult
  split_ifs
  · exact .fin m
  · exact .inf

theorem F64.NonNeg.add {x y : F64} (hx : x.NonNeg) (hy : y.NonNeg) : (F64.add x y).NonNeg := by
  cases hx <;> cases hy
  case inf.inf | inf.fin | fin.inf => exact .inf
  case fin.fin m n =>
    have hsum : ¬ units false m + units false n < 0 := by simp only [units_false]; omega
    rw [F64.add_fin, decide_eq_false hsum]
    split_ifs
    · exact .fin 0
    · exact F64.nonNeg_signedResult _

/-- A square is not negative, that of an infinity included. -/
theorem F64.nonNeg_mul_self {x : F64} (h : x ≠ .nan) : (F64.mul x x).NonNeg := by
  cases x with
  | nan => contradiction
  | inf s => cases s <;> exact .inf
  | fin s m =>
    rw [F64.mul_fin, bne_self_eq_false]
    exact F64.nonNeg_signedResult _

theorem F64.signedResult_ne_nan (s : Bool) (m : Nat) : signedResult s m ≠ .nan := by
  unfold signedResult
  split_ifs <;> nofun

theorem F64.sub_ne_nan {x y : F64} (hx : x.isFinite = true) (hy : y.isFinite = true) : F64.sub x y ≠ .nan := by
  cases x <;> cases hx
  cases y <;> cases hy
  rw [F64.sub_fin]
  split_ifs
  · nofun
  · exact F64.signedResult_ne_nan _ _

end Sys2Proof

namespace Sys2Proof.Machine

open Sys2Proof.Spec

/-! ### nearest -/

/-- The distance of a finite colour may overflow, but it is neither NaN nor negative. -/
theorem distance_nonNeg {c : Rgb64} (h : c.r.isFinite = true ∧ c.g.isFinite = true ∧ c.b.isFinite = true) (p : Rgb) :
    (distance c p).NonNeg := by
  obtain ⟨hr, hg, hb⟩ := h
  have square {x : F64} (hx : x.isFinite = true) (b : Byte) :=
    F64.nonNeg_mul_self (F64.sub_ne_nan hx (F64.ofNat_isFinite_byte b))
  exact ((square hr p.r).add (square hg p.g)).add (square hb p.b)

/-- Position `i` has the least key of the listed positions, and no lower one of them has that key. -/
def LowestLeast {α : Type} [LinearOrder α] (key : Fin 6 → α) (positions : List (Fin 6)) (i : Fin 6) : Prop :=
  ∀ j ∈ positions, key i ≤ key j ∧ (j < i → key i < key j)

/-- Where `flt` orders the distances by a key, the loop over rising positions ends at the lowest one of least key. -/
theorem nearestLoop_lowestLeast {α : Type} [LinearOrder α] (p : Palette) (c : Rgb64) (key : Fin 6 → α)
    (hkey : ∀ i j, F64.lt (colourDist c (paletteAt p i)) (colourDist c (paletteAt p j)) = true ↔ key i < key j)
    (positions : List (Fin 6)) (best : Fin 6) (hsorted : (best :: positions).Pairwise (· < ·)) :
    LowestLeast key (best :: positions) (nearestLoop p c positions best (colourDist c (paletteAt p best))) := by
  induction positions generalizing best with
  | nil => simp [LowestLeast, nearestLoop]
  | cons a rest ih =>
    obtain ⟨hbest, hrest⟩ := List.pairwise_cons.mp hsorted
    simp only [nearestLoop, hkey]
    split_ifs with hlt
    · have hall := ih a hrest
      have hless := (hall a List.mem_cons_self).1.trans_lt hlt
      rintro j (_ | ⟨_, hj⟩)
      · exact ⟨hless.le, fun _ => hless⟩
      · exact hall j hj
    · have hall := ih best (hsorted.sublist (.cons_cons best (.cons a (.refl rest))))
      obtain ⟨hle, hbelow⟩ := hall best List.mem_cons_self
      have hnotless : key best ≤ key a := not_lt.mp hlt
      rintro j (_ | ⟨_, _ | ⟨_, hj⟩⟩)
      · exact ⟨hle, hbelow⟩
      · exact ⟨hle.trans hnotless, fun ha => (hbelow ((hbest a List.mem_cons_self).trans ha)).trans_le hnotless⟩
      · exact hall j (List.mem_cons_of_mem _ hj)

/-- `nearest` of a finite colour is the lowest position of least distance (40_palette.md R101). -/
theorem nearest_least {p : Palette} {c : Rgb64} {i : Fin 6} (h : nearest p c = .ok i) (j : Fin 6) :
    F64.lt (distance c (paletteAt p j)) (distance c (paletteAt p i)) = false ∧
      (j < i → F64.lt (distance c (paletteAt p i)) (distance c (paletteAt p j)) = true) := by
  have hfin := (nearest_ok_iff p c).mp ⟨i, h⟩
  have hkey (i j : Fin 6) := F64.lt_iff_rank (distance_nonNeg hfin (paletteAt p i)) (distance_nonNeg hfin (paletteAt p j))
  rw [nearest_of_finite p c hfin] at h
  cases h
  rw [← Bool.not_eq_true, hkey, hkey, not_lt]
  exact nearestLoop_lowestLeast p c (fun i => (distance c (paletteAt p i)).rank) hkey [1, 2, 3, 4, 5] 0 (by decide) j
    (by revert j; decide)

/-- Settles O58: the distances of a finite colour are ordered by their magnitudes, and the loop keeps the lowest position
of the least. -/
theorem nearestIsTheLowestLeastDistance : Obligations.NearestIsTheLowestLeastDistance := by
  refine fun p c => ⟨fun hfin => ?_, nearest_of_not_finite p c⟩
  obtain ⟨i, hi⟩ := (nearest_ok_iff p c).mpr hfin
  exact ⟨i, hi, nearest_least hi⟩

/-! ### Integer colours -/

/-- The difference of two channels is exact. -/
theorem sub_bytes (a b : Byte) :
    ∃ s, F64.sub (F64.ofNat a.toNat) (F64.ofNat b.toNat) = F64.int s ((a.toNat : Int) - b.toNat).natAbs := by
  rw [F64.ofNat_eq_int _ (by omega), F64.ofNat_eq_int _ (by omega)]
  rcases Nat.lt_or_ge a.toNat b.toNat with h | h
  · exact ⟨true, by rw [F64.sub_int_of_lt _ _ (by omega) h]; congr 1; omega⟩
  · exact ⟨false, by rw [F64.sub_int_of_le _ _ (by omega) h]; congr 1; omega⟩

theorem squaredDiff_le (a b : Byte) : squaredDiff a b ≤ 255 * 255 :=
  Nat.mul_le_mul (by omega) (by omega)

theorem squaredDiff_eq_zero_iff (a b : Byte) : squaredDiff a b = 0 ↔ a = b := by
  rw [← BitVec.toNat_inj, squaredDiff, mul_self_eq_zero]
  omega

/-- The square of the difference of two channels is exact. -/
theorem mul_sub_self_bytes (a b : Byte) :
    F64.mul (F64.sub (F64.ofNat a.toNat) (F64.ofNat b.toNat)) (F64.sub (F64.ofNat a.toNat) (F64.ofNat b.toNat)) =
      F64.int false (squaredDiff a b) := by
  obtain ⟨s, hs⟩ := sub_bytes a b
  have hsmall : squaredDiff a b < 2 ^ 53 := (squaredDiff_le a b).trans_lt (by norm_num)
  rw [hs, F64.mul_int s s _ _ hsmall, bne_self_eq_false, squaredDiff]

/-- The distance of two integer colours is the exact integer (40_palette.md R100). -/
theorem distance_colourF64 (c p : Rgb) : distance (colourF64 c) p = F64.int false (squaredDist c p) := by
  have hr := squaredDiff_le c.r p.r
  have hg := squaredDiff_le c.g p.g
  have hb := squaredDiff_le c.b p.b
  simp only [distance, colourF64, mul_sub_self_bytes]
  rw [F64.add_int_of_nonneg _ _ (by omega), F64.add_int_of_nonneg _ _ (by omega), squaredDist]

theorem lt_distance_iff (c p q : Rgb) :
    F64.lt (distance (colourF64 c) p) (distance (colourF64 c) q) = true ↔ squaredDist c p < squaredDist c q := by
  rw [distance_colourF64, distance_colourF64, F64.lt_int, units_false, units_false, Nat.cast_lt]

/-- `nearest` of an integer colour is the lowest position of least exact squared distance (40_palette.md R100, R101). -/
theorem isNearest_of_nearest {p : Palette} {c : Rgb} {i : Fin 6} (h : nearest p (colourF64 c) = .ok i) :
    IsNearest p c i := by
  intro j
  have hleast := nearest_least h j
  rwa [← Bool.not_eq_true, lt_distance_iff, lt_distance_iff, not_lt] at hleast

theorem squaredDist_eq_zero_iff (c p : Rgb) : squaredDist c p = 0 ↔ c = p := by
  rw [squaredDist, Nat.add_eq_zero_iff, Nat.add_eq_zero_iff, squaredDiff_eq_zero_iff, squaredDiff_eq_zero_iff,
    squaredDiff_eq_zero_iff, Rgb.mk.injEq, and_assoc]

/-- The positions of a well-formed palette have different colours (00_scope.md R7). -/
theorem paletteAt_injective {p : Palette} (h : p.wf = true) : Function.Injective (paletteAt p) := by
  have hget : paletteAt p = p.colours.get := by
    funext i
    fin_cases i <;> rfl
  rw [hget]
  exact List.nodup_iff_injective_get.mp (of_decide_eq_true h)

/-- Only its own position is nearest to a palette colour (40_palette.md R102). -/
theorem eq_of_isNearest_paletteAt {p : Palette} (hp : p.wf = true) {i k : Fin 6}
    (h : IsNearest p (paletteAt p i) k) : k = i := by
  have hle := (h i).1
  rw [(squaredDist_eq_zero_iff _ _).mpr rfl, Nat.le_zero, squaredDist_eq_zero_iff] at hle
  exact (paletteAt_injective hp hle).symm

/-! ### NOP and LOOKUP -/

/-- The completion of a command without an error: code 0 under DONE is STATUS = 2 (10_state.md R42). -/
theorem finish_ok_eq_withStatus (s : State) : s.finish .ok = withStatus s 0x00000002#32 := rfl

/-- RESULT's fields as one number (40_palette.md R103). -/
theorem resultWord_eq_ofNat (i : Fin 6) : resultWord i = BitVec.ofNat 32 (256 * i.val + (codeAt i).toNat) := by
  revert i; decide

/-- LOOKUP completes with the position `nearest` gives for COLOR in RESULT (40_palette.md R103). -/
theorem exec_lookup_nearest (s : State) : ∃ i, IsNearest s.params.palette s.colorOperand i ∧
    exec .lookup s = .next
      { s with regs := { s.regs with
          result := BitVec.ofNat 32 (256 * i.val + (codeAt i).toNat), status := 0x00000002#32 } } := by
  obtain ⟨i, hi, hbody⟩ := lookupBody_ok s
  refine ⟨i, isNearest_of_nearest hi, ?_⟩
  rw [exec_lookup, hbody, complete_ok, finish_ok_eq_withStatus, resultWord_eq_ofNat]
  rfl

/-- Settles O18: NOP's `Execute` writes nothing, so the completion's STATUS is all that changes. -/
theorem nopCompletesWithNoEffect : Obligations.NopCompletesWithNoEffect := by
  refine ⟨decodeSampleWords.1, fun s => ?_⟩
  rw [exec_nop, complete_ok, finish_ok_eq_withStatus]

/-- Settles O19: binary64 is exact on the distances of integer colours, so `nearest` compares the integers. -/
theorem lookupFindsTheNearestColour : Obligations.LookupFindsTheNearestColour := by
  refine ⟨decodeSampleWords.2.1, fun s => ?_⟩
  rw [← s.colorOperand_eq]
  exact exec_lookup_nearest s

/-- Settles O20: a palette colour is at distance 0 from its own entry alone. -/
theorem lookupOfAPaletteColour : Obligations.LookupOfAPaletteColour := by
  intro s i hp hcolor
  obtain ⟨k, hk, hexec⟩ := exec_lookup_nearest s
  rw [hcolor] at hk
  rwa [eq_of_isNearest_paletteAt hp hk] at hexec

end Sys2Proof.Machine
end

section
/-!
PROOFS. The checks of QUANT and its neighbours (41_quantizer.md R111, R112, 60_exceptions.md R182), and the alpha bytes,
which no command writes (R120). A legal gain is one whose value is finite and no less than 0.0, which the sign bit and the
magnitude decide.
-/

namespace Sys2Proof

open Sys2Proof.Spec

/-- A magnitude is zero where its exponent and its fraction are. -/
theorem F64.magOf_eq_zero_iff (e f : Nat) : F64.magOf e f = 0 ↔ e = 0 ∧ f = 0 := by
  unfold F64.magOf
  split_ifs with he
  · simp [he]
  · have hpos : (pow2 52 + f) * pow2 (e - 1) ≠ 0 :=
      Nat.mul_ne_zero (Nat.add_pos_left (pow2_pos 52) f).ne' (pow2_pos _).ne'
    exact iff_of_false hpos fun h => he h.1

/-- All bits but the sign are zero where the magnitude is (30_encoding.md R84). -/
theorem F64.low63_eq_zero_iff (b : BitVec 64) :
    b.extractLsb' 0 63 = 0#63 ↔ F64.magOf (b.extractLsb' 52 11).toNat (b.extractLsb' 0 52).toNat = 0 := by
  have hfields : b.extractLsb' 0 63 = b.extractLsb' 52 11 ++ b.extractLsb' 0 52 :=
    (BitVec.extractLsb'_append_extractLsb'_eq_extractLsb' (show 52 = 0 + 52 from rfl)).symm
  rw [F64.magOf_eq_zero_iff, hfields, ← F64.ofNat_fields, ← BitVec.toNat_inj, BitVec.toNat_ofNat, pow2_eq,
    BitVec.toNat_ofNat]
  omega

end Sys2Proof

namespace Sys2Proof.Machine

open Sys2Proof.Spec

/-! ### The gain -/

/-- A finite gain is legal where its sign is plus or it is a zero (41_quantizer.md R111). -/
theorem gainOk_fin_iff (neg : Bool) (mag : Nat) : gainOk (.fin neg mag) = true ↔ neg = false ∨ mag = 0 := by
  have hzero : F64.ofNat 0 = .fin false 0 := F64.ofNat_eq 0 (by decide)
  rw [gainOk, F64.isFinite, Bool.true_and, Bool.not_eq_true', ← Bool.not_eq_true, hzero, F64.lt_fin]
  cases neg <;> simp

/-- Settles O25: a NaN and an infinity have the exponent 0x7FF, and a finite value is below zero where its sign is minus
and its magnitude is not zero. -/
theorem gainLegalityByPattern : Obligations.GainLegalityByPattern := by
  intro b
  unfold LegalGain
  rcases F64.ofBits_cases b with ⟨he, -, hv⟩ | ⟨he, -, hv⟩ | ⟨he, hv⟩
  · rw [hv]
    exact iff_of_false nofun fun h => h.1 he
  · rw [hv]
    exact iff_of_false nofun fun h => h.1 he
  · rw [hv, gainOk_fin_iff, F64.low63_eq_zero_iff]
    exact (and_iff_right he).symm

/-! ### The checks -/

theorem badDimensions_eq_false_iff (s : State) : s.badDimensions = false ↔ LegalDims s := by
  rw [← Bool.not_eq_true, State.badDimensions_iff, LegalDims]
  omega

theorem gainOk_of_legalGain {s : State} (h : LegalGain s.gainBits) : gainOk s.gain = true :=
  (gainLegalityByPattern _).mpr h

/-- Settles O26: the check of the dimensions is the first thing each of the three bodies does. -/
theorem badDimensionsRejected : Obligations.BadDimensionsRejected := by
  intro i s hi hbad
  have hdims : s.badDimensions = true := (State.badDimensions_iff s).mpr hbad
  have hbody : commandBody i s = raise .invalidDimensions := by
    rcases hi with rfl | rfl | rfl
    · exact if_pos hdims
    · exact if_pos hdims
    · exact if_pos hdims
  rw [exec_eq_complete_body, hbody, complete_raise]
  rfl

/-- Settles O28: the check of the gain comes next after that of the dimensions. -/
theorem badGainRejected : Obligations.BadGainRejected := by
  intro s hgain
  have hbad : gainOk s.gain = false := Bool.eq_false_of_not_eq_true fun h => hgain ((gainLegalityByPattern _).mp h)
  refine ⟨fun hd => ?_, fun hw hh => ?_⟩
  · rw [exec_quant, quantBody, (badDimensions_eq_false_iff s).mpr hd, hbad]
    rfl
  · have hpanel : s.notPanelSized = false := by
      rw [← Bool.not_eq_true, State.notPanelSized_iff]
      exact fun h => h.elim (· hw) (· hh)
    rw [exec_convert, convertBody, hpanel, hbad]
    rfl

/-! ### Alpha bytes -/

/-- The alpha bytes of PIX are those of `s`, the unwritten ones included (41_quantizer.md R120). -/
def KeepsAlpha (s t : State) : Prop := ∀ n, t.pix.get (4 * n + 3) = s.pix.get (4 * n + 3)

theorem quantizeBody_keepsAlpha {w h : Nat} {g : F64} {s s' : State} (hq : quantizeBody w h g s = .ok s') :
    KeepsAlpha s s' := by
  obtain ⟨cs, -, rfl⟩ := quantizeBody_ok w h g s s' hq
  exact fun n => get_writePixels_alpha s.pix 0 n cs

theorem maskImage_keepsAlpha (w h : Nat) (s : State) : KeepsAlpha s (maskImage w h s) :=
  maskScan_alpha w h _ s.pix

/-- PACK and RLE_ENC, the last stages of the pipeline, leave PIX to the stages before them (45_convert.md R171). -/
theorem pipeline_keepsAlpha {w h : Nat} {g : F64} {s s' : State} (hp : pipeline w h g s = .ok s') : KeepsAlpha s s' := by
  obtain ⟨quantized, packed, hq, hk, he⟩ := pipeline_ok w h g s s' hp
  obtain ⟨codes, -, -, rfl⟩ := packImage_ok _ _ _ _ hk
  obtain ⟨bs, -, rfl⟩ := encodePacked_ok _ _ he
  have hquantized := quantizeBody_keepsAlpha hq
  intro n
  dsimp only
  split_ifs
  · exact (maskImage_keepsAlpha w h quantized n).trans (hquantized n)
  · exact hquantized n

/-- Settles O16: QUANT and MASK write whole pixels but for their alpha bytes, CONVERT does what those two do, and the
other commands write nothing of PIX. -/
theorem alphaNeverWritten : Obligations.AlphaNeverWritten := by
  intro i s t n ht
  obtain ⟨-, -, -, -, -, -, -, -, -, -, -, -, hpix⟩ := commandFrame i s t ht
  rw [exec_eq_complete_body] at ht
  rcases complete_next s t _ ht with ⟨s', hs', rfl⟩ | ⟨e, -, rfl⟩
  · cases i
    case quant => exact quantizeBody_keepsAlpha (guard_ok (guard_ok hs')) n
    case mask =>
      cases maskBody_writes hs'
      exact maskImage_keepsAlpha _ _ s n
    case convert => exact pipeline_keepsAlpha (guard_ok (guard_ok hs')) n
    all_goals rw [hpix nofun nofun nofun]
  · rfl

end Sys2Proof.Machine
end

section
/-!
PROOFS. Flat QUANT (41_quantizer.md R110 to R113). A legal gain leaves the clamp below 0 nothing to do, so the adjusted
colour is the closed form of R110, whose channels are finite; at gain 1.0 it is the integer colour itself. QUANT passes
its checks, finds the colours of all pixels, and then writes them.
-/

namespace Sys2Proof

open Sys2Proof.Spec

/-! ### Bounded values -/

/-- A finite value of magnitude at most `b / 16`. -/
def F64.Within (x : F64) (b : Nat) : Prop := ∃ s m, x = .fin s m ∧ m ≤ b * pow2 1070

theorem F64.Within.isFinite {x : F64} {b : Nat} (h : x.Within b) : x.isFinite = true := by
  obtain ⟨s, m, rfl, -⟩ := h
  rfl

theorem F64.Within.mono {x : F64} {a b : Nat} (h : x.Within a) (hab : a ≤ b) : x.Within b := by
  obtain ⟨s, m, rfl, hm⟩ := h
  exact ⟨s, m, rfl, hm.trans (Nat.mul_le_mul_right _ hab)⟩

theorem F64.unit_eq_sixteenths : F64.unit = 16 * pow2 1070 := by
  rw [F64.unit, show 1074 = 4 + 1070 from rfl, pow2_add, pow2_eq 4]
  norm_num

theorem F64.within_ofNat (n : Nat) (h : n < 2 ^ 53) : (F64.ofNat n).Within (16 * n) := by
  refine ⟨false, F64.unit * n, F64.ofNat_eq n h, ?_⟩
  rw [F64.unit_eq_sixteenths, Nat.mul_right_comm]

theorem F64.within_byte (b : Byte) : (F64.ofNat b.toNat).Within (16 * 255) :=
  (F64.within_ofNat _ (by omega)).mono (by omega)

/-- A value between 0 and 255, as the comparisons say it. -/
theorem F64.within_of_clamped {v : F64} (hnan : v ≠ .nan) (hlo : F64.lt v (F64.ofNat 0) = false)
    (hhi : F64.lt (F64.ofNat 255) v = false) : v.Within (16 * 255) := by
  rw [F64.ofNat_eq 0 (by decide)] at hlo
  rw [F64.ofNat_eq 255 (by decide)] at hhi
  cases v with
  | nan => contradiction
  | inf s =>
    cases s
    case false => cases hhi
    case true => cases hlo
  | fin s m =>
    rw [← Bool.not_eq_true, F64.lt_fin, units_false] at hlo hhi
    have hm : m ≤ F64.unit * 255 := by
      cases s
      case false => rw [units_false] at hhi; omega
      case true => rw [units_true] at hlo; omega
    rw [F64.unit_eq_sixteenths, Nat.mul_right_comm] at hm
    exact ⟨s, m, rfl, hm⟩

theorem F64.mul_ne_nan {x y : F64} (hx : x.isFinite = true) (hy : y.isFinite = true) : F64.mul x y ≠ .nan := by
  cases x <;> cases hx
  cases y <;> cases hy
  rw [F64.mul_fin]
  exact F64.signedResult_ne_nan _ _

theorem F64.NonNeg.lt_zero {x : F64} (h : x.NonNeg) : F64.lt x (F64.ofNat 0) = false := by
  rw [F64.ofNat_eq 0 (by decide), ← Bool.not_eq_true, F64.lt_iff_rank h (.fin _), F64.rank, F64.unit, Nat.mul_zero]
  exact not_lt_zero

end Sys2Proof

namespace Sys2Proof.Machine

open Sys2Proof.Spec

/-! ### The adjusted colour -/

/-- A value that is not below 0 is only capped at 255. -/
theorem clampChannel_eq {v : F64} (h : F64.lt v (F64.ofNat 0) = false) :
    clampChannel v = if F64.lt (F64.ofNat 255) v then F64.ofNat 255 else v := by
  rw [clampChannel, h, F64.gt, if_neg Bool.false_ne_true]

theorem ofNat_lt_false_of_le {m n : Nat} (hm : m < 2 ^ 53) (h : n ≤ m) : F64.lt (F64.ofNat m) (F64.ofNat n) = false := by
  rw [F64.ofNat_eq_int m hm, F64.ofNat_eq_int n (by omega), ← Bool.not_eq_true, F64.lt_int, units_false, units_false]
  omega

/-- The clamp leaves a byte's value as it is. -/
theorem clampChannel_byte (b : Byte) : clampChannel (F64.ofNat b.toNat) = F64.ofNat b.toNat := by
  rw [clampChannel_eq (ofNat_lt_false_of_le (by omega) (by omega)), ofNat_lt_false_of_le (by decide) (by omega)]
  rfl

/-- A byte times a legal gain is not below 0; a gain of -0 makes it a zero. -/
theorem byte_mul_gain {g : F64} (hg : gainOk g = true) (b : Byte) :
    F64.lt (F64.mul (F64.ofNat b.toNat) g) (F64.ofNat 0) = false := by
  cases g with
  | nan | inf => cases hg
  | fin s m =>
    rcases (gainOk_fin_iff s m).mp hg with rfl | rfl
    · rw [F64.ofNat_eq _ (by omega), F64.mul_fin, bne_self_eq_false]
      exact (F64.nonNeg_signedResult _).lt_zero
    · have hzero : F64.fin s 0 = F64.int s 0 := by rw [F64.int, Nat.mul_zero]
      rw [F64.ofNat_eq_int _ (by omega), F64.ofNat_eq_int 0 (by decide), hzero, F64.mul_int _ _ _ _ (by omega),
        ← Bool.not_eq_true, F64.lt_int]
      cases s <;> simp

/-- The adjustment under a legal gain (41_quantizer.md R110). -/
theorem adjust_eq_adjusted {g : F64} (hg : gainOk g = true) (c : Rgb) : adjust g c = adjusted g c := by
  rw [adjust, clampRgb, clampChannel_byte, clampChannel_byte, clampChannel_eq (byte_mul_gain hg c.g)]
  rfl

/-- Each channel is a finite value. -/
def FiniteRgb (c : Rgb64) : Prop := c.r.isFinite = true ∧ c.g.isFinite = true ∧ c.b.isFinite = true

/-- Each channel is a finite value of magnitude at most `b / 16`. -/
def RgbWithin (c : Rgb64) (b : Nat) : Prop := c.r.Within b ∧ c.g.Within b ∧ c.b.Within b

theorem RgbWithin.finite {c : Rgb64} {b : Nat} (h : RgbWithin c b) : FiniteRgb c :=
  ⟨h.1.isFinite, h.2.1.isFinite, h.2.2.isFinite⟩

theorem colourF64_within (c : Rgb) : RgbWithin (colourF64 c) (16 * 255) :=
  ⟨F64.within_byte c.r, F64.within_byte c.g, F64.within_byte c.b⟩

/-- The adjusted colour is finite, however large the gain. -/
theorem adjusted_within {g : F64} (hg : gainOk g = true) (c : Rgb) : RgbWithin (adjusted g c) (16 * 255) := by
  have hfin : g.isFinite = true := by
    rw [gainOk, Bool.and_eq_true] at hg
    exact hg.1
  refine ⟨F64.within_byte c.r, ?_, F64.within_byte c.b⟩
  dsimp only [adjusted]
  split_ifs with hcap
  · exact F64.within_ofNat 255 (by decide)
  · exact F64.within_of_clamped (F64.mul_ne_nan (F64.ofNat_isFinite_byte c.g) hfin) (byte_mul_gain hg c.g)
      (Bool.eq_false_of_not_eq_true hcap)

/-- Gain 1.0 leaves a colour as it is. -/
theorem adjusted_one (c : Rgb) : adjusted (F64.ofNat 1) c = colourF64 c := by
  have hmul : F64.mul (F64.ofNat c.g.toNat) (F64.ofNat 1) = F64.ofNat c.g.toNat := by
    rw [F64.ofNat_eq_int 1 (by decide), F64.ofNat_eq_int _ (by omega), F64.mul_int _ _ _ _ (by omega), Nat.mul_one]
    rfl
  rw [adjusted, hmul, ofNat_lt_false_of_le (by decide) (by omega)]
  rfl

/-! ### One pixel -/

/-- The position `nearest` gives for a finite colour (40_palette.md R101). -/
def nearestIndex (p : Palette) (c : Rgb64) : Fin 6 :=
  nearestLoop p c [1, 2, 3, 4, 5] 0 (colourDist c (paletteAt p 0))

theorem nearest_eq_nearestIndex (p : Palette) {c : Rgb64} (h : FiniteRgb c) : nearest p c = .ok (nearestIndex p c) :=
  nearest_of_finite p c h

theorem adjustedPixel_of_pixelIs {m : Memory} {g : F64} {n : Nat} {c : Rgb} (hg : gainOk g = true) (h : PixelIs m n c) :
    adjustedPixel m g n = .ok (adjusted g c) := by
  rw [adjustedPixel, (readPixel_ok m n c).mpr h, ← adjust_eq_adjusted hg]

theorem flatPixel_of_pixelIs (p : Palette) {m : Memory} {g : F64} {n : Nat} {c : Rgb} (hg : gainOk g = true)
    (h : PixelIs m n c) : flatPixel p m g n = .ok (paletteAt p (nearestIndex p (adjusted g c))) := by
  simp only [flatPixel, adjustedPixel_of_pixelIs hg h, nearest_eq_nearestIndex p (adjusted_within hg c).finite]

/-! ### The whole image -/

theorem channelAt_eq_channel (c : Rgb) {k : Nat} (h : k < 3) : channelAt c k = some (channel c k) := by
  interval_cases k <;> rfl

/-- What the pixels of an image written from pixel 0 leave at every address. -/
theorem get_writePixels_image (m : Memory) (count : Nat) (f : Nat → Rgb) (a : Nat) :
    (writePixels m 0 ((List.range count).map f)).get a =
      if a / 4 < count ∧ a % 4 < 3 then some (channel (f (a / 4)) (a % 4)) else m.get a := by
  rw [get_writePixels, List.length_map, List.length_range, Nat.zero_add, Nat.sub_zero]
  simp only [Nat.zero_le, true_and]
  split_ifs with h
  · rw [List.getElem?_map, List.getElem?_range h.1, Option.map_some, Option.bind_some, channelAt_eq_channel _ h.2]
  · rfl

/-! ### QUANT as its colours, then its writes -/

/-- The colours QUANT writes, where its checks pass (41_quantizer.md R112). -/
def quantColours (s : State) : Exec (List Rgb) :=
  if s.badDimensions then raise .invalidDimensions
  else if !gainOk s.gain then raise .badGain
  else quantizedColours s.dither s.params.palette s.imageWidth s.imageHeight s.gain s.pix

theorem quantBody_eq_map (s : State) :
    quantBody s = (quantColours s).map fun cs => { s with pix := writePixels s.pix 0 cs } := by
  unfold quantBody quantColours
  split_ifs
  · rfl
  · rfl
  · exact quantizeBody_eq_map _ _ _ s

theorem exec_quant_of_ok {s : State} {cs : List Rgb} (h : quantColours s = .ok cs) :
    exec .quant s = .next (withStatus { s with pix := writePixels s.pix 0 cs } 0x00000002#32) := by
  rw [exec_quant, quantBody_eq_map, h]
  rfl

theorem exec_quant_of_error {s : State} {e : ErrCode} (h : quantColours s = .error (.error e)) :
    exec .quant s = .next (s.finish e) := by
  rw [exec_quant, quantBody_eq_map, h]
  rfl

/-- QUANT answers a next state in two ways: with its colours written, or with the error of a check. -/
theorem exec_quant_next {s t : State} (h : exec .quant s = .next t) :
    (∃ cs, quantColours s = .ok cs ∧ t = withStatus { s with pix := writePixels s.pix 0 cs } 0x00000002#32) ∨
      ∃ e, quantColours s = .error (.error e) ∧ t = s.finish e := by
  cases hc : quantColours s with
  | ok cs => exact .inl ⟨cs, rfl, Host.Outcome.next.inj (h.symm.trans (exec_quant_of_ok hc))⟩
  | error halt =>
    cases halt with
    | error e => exact .inr ⟨e, rfl, Host.Outcome.next.inj (h.symm.trans (exec_quant_of_error hc))⟩
    | fault f =>
      rw [exec_quant, quantBody_eq_map, hc] at h
      cases h

theorem quantColours_of_legal {s : State} (hd : LegalDims s) (hg : LegalGain s.gainBits) :
    quantColours s = quantizedColours s.dither s.params.palette s.imageWidth s.imageHeight s.gain s.pix := by
  rw [quantColours, (badDimensions_eq_false_iff s).mpr hd, gainOk_of_legalGain hg]
  rfl

/-! ### Flat QUANT -/

/-- Flat mode finds a palette colour for each pixel of a written image (41_quantizer.md R113). -/
theorem quantColours_flat {s : State} {px : Nat → Rgb} (hd : LegalDims s) (hg : LegalGain s.gainBits)
    (hflat : s.dither = false) (hpix : ∀ n, n < pixelCount s → PixelIs s.pix n (px n)) :
    quantColours s = .ok ((List.range (pixelCount s)).map fun n =>
      paletteAt s.params.palette (nearestIndex s.params.palette (adjusted s.gain (px n)))) := by
  rw [quantColours_of_legal hd hg, hflat]
  exact collect_of_forall _ _ _ fun n hn =>
    flatPixel_of_pixelIs _ (gainOk_of_legalGain hg) (hpix n (List.mem_range.mp hn))

/-- Settles O30: each pixel of the image is read and has a finite adjusted colour, so the loop of FlatQuantize finds a
palette colour for each before the first is written. -/
theorem flatQuantResult : Obligations.FlatQuantResult := by
  intro s px hd hg hflat hpix
  exact ⟨fun n => nearestIndex s.params.palette (adjusted s.gain (px n)), _,
    fun n _ => nearest_eq_nearestIndex _ (adjusted_within (gainOk_of_legalGain hg) (px n)).finite,
    exec_quant_of_ok (quantColours_flat hd hg hflat hpix), get_writePixels_image s.pix (pixelCount s) _⟩

/-! ### Gain 1.0 -/

theorem gain_eq_one {s : State} (h : s.gainBits = 0x3FF0000000000000#64) : s.gain = F64.ofNat 1 := by
  rw [State.gain, h, ← ofBits_one]
  rfl

theorem legalGain_one : LegalGain 0x3FF0000000000000#64 := by
  unfold LegalGain
  decide

/-- Settles O31: at gain 1.0 the adjusted colour is the integer colour, whose distances are exact integers. -/
theorem flatQuantAtUnitGain : Obligations.FlatQuantAtUnitGain := by
  intro s px hd hone hflat hpix
  obtain ⟨pos, m, hnearest, hexec, hm⟩ := flatQuantResult s px hd (hone ▸ legalGain_one) hflat hpix
  refine ⟨pos, m, fun n hn => isNearest_of_nearest ?_, hexec, hm⟩
  rw [← adjusted_one, ← gain_eq_one hone]
  exact hnearest n hn

end Sys2Proof.Machine
end

section
/-!
PROOFS. QUANT run again, and QUANT in either mode (41_quantizer.md R121, R122): two runs that find the same colours write the
same pixels. A palette colour is nearest to itself, and on one pixel the scan has nothing to diffuse.
-/

namespace Sys2Proof

/-- A byte's value goes back to that byte (41_quantizer.md R117). -/
theorem F64.toU8_byte (b : Byte) : F64.toU8 (F64.ofNat b.toNat) = some b := by
  have hpos := F64.unit_pos
  rw [F64.ofNat_eq _ (by omega), F64.toU8, Nat.mul_div_cancel_left _ hpos, Nat.mul_mod_right]
  simp only [Nat.mul_zero, if_neg (Nat.not_lt_zero _), if_neg hpos.ne, true_and]
  rw [if_pos (.inr b.isLt), BitVec.ofNat_toNat, BitVec.setWidth_eq]

end Sys2Proof

namespace Sys2Proof.Machine

open Sys2Proof.Spec

/-! ### Flat QUANT run twice -/

/-- A palette colour is replaced by itself, whichever of two equal entries `nearest` gives (41_quantizer.md R122). -/
theorem paletteAt_nearestIndex_self (p : Palette) (i : Fin 6) :
    paletteAt p (nearestIndex p (colourF64 (paletteAt p i))) = paletteAt p i := by
  have hnearest := isNearest_of_nearest (nearest_eq_nearestIndex p (colourF64_within (paletteAt p i)).finite)
  have hle := (hnearest i).1
  rw [(squaredDist_eq_zero_iff _ _).mpr rfl, Nat.le_zero, squaredDist_eq_zero_iff] at hle
  exact hle.symm

/-- Flat mode answers palette colours. -/
theorem flatPixel_ok {p : Palette} {m : Memory} {g : F64} {n : Nat} {c : Rgb} (h : flatPixel p m g n = .ok c) :
    ∃ i, c = paletteAt p i := by
  unfold flatPixel at h
  cases ha : adjustedPixel m g n with
  | error e => rw [ha] at h; cases h
  | ok a =>
    rw [ha] at h
    dsimp only at h
    cases hn : nearest p a with
    | error e => rw [hn] at h; cases h
    | ok i => rw [hn] at h; cases h; exact ⟨i, rfl⟩

theorem pixelIs_writePixels (m : Memory) {cs : List Rgb} {n : Nat} {c : Rgb} (h : cs[n]? = some c) :
    PixelIs (writePixels m 0 cs) n c := by
  have hn : n < cs.length := (List.getElem?_eq_some_iff.mp h).1
  have hget (k : Nat) (hk : k < 3) : (writePixels m 0 cs).get (4 * n + k) = channelAt c k := by
    have hdiv : (4 * n + k) / 4 = n := by omega
    have hmod : (4 * n + k) % 4 = k := by omega
    rw [get_writePixels, hdiv, hmod, if_pos (by omega), Nat.sub_zero, h, Option.bind_some]
  exact ⟨hget 0 (by decide), hget 1 (by decide), hget 2 (by decide)⟩

/-- Over the image flat mode has written at gain 1.0 it finds the same colours again. -/
theorem flatColours_writePixels {p : Palette} {m : Memory} {count : Nat} {cs : List Rgb}
    (h : collect (flatPixel p m (F64.ofNat 1)) (List.range count) = .ok cs) :
    collect (flatPixel p (writePixels m 0 cs) (F64.ofNat 1)) (List.range count) = .ok cs := by
  have hone : gainOk (F64.ofNat 1) = true := by
    rw [F64.ofNat_eq 1 (by decide)]
    exact (gainOk_fin_iff _ _).mpr (.inl rfl)
  rw [collect_ok, ← (collect_ok _ _ _).mp h]
  refine List.map_congr_left fun n hn => ?_
  obtain ⟨c, hc, hflat⟩ := collect_getElem? _ _ _ h n n (List.getElem?_range (List.mem_range.mp hn))
  obtain ⟨i, rfl⟩ := flatPixel_ok hflat
  rw [hflat, flatPixel_of_pixelIs p hone (pixelIs_writePixels m hc), adjusted_one, paletteAt_nearestIndex_self]

/-- Writing the same pixels again changes nothing. -/
theorem writePixels_twice {m : Memory} (hm : m.wf = true) (cs : List Rgb) :
    writePixels (writePixels m 0 cs) 0 cs = writePixels m 0 cs := by
  have hw := wf_writePixels m 0 cs hm
  refine Memory.ext_get _ _ (wf_writePixels _ 0 cs hw) hw fun a => ?_
  simp only [get_writePixels]
  split_ifs <;> rfl

/-- Settles O32: the second run finds the colours the first one wrote, or the error of the same check. -/
theorem flatQuantIdempotent : Obligations.FlatQuantIdempotent := by
  intro s t hwf hone hflat ht
  rcases exec_quant_next ht with ⟨cs, hcs, rfl⟩ | ⟨e, he, rfl⟩
  · have hagain : quantColours (withStatus { s with pix := writePixels s.pix 0 cs } 0x00000002#32) = .ok cs := by
      change (if s.badDimensions then _ else if !gainOk s.gain then _ else
        quantizedColours s.dither s.params.palette s.imageWidth s.imageHeight s.gain (writePixels s.pix 0 cs)) = _
      unfold quantColours at hcs
      split_ifs at hcs ⊢
      · cases hcs
      · cases hcs
      · rw [hflat, gain_eq_one hone] at hcs ⊢
        exact flatColours_writePixels hcs
    rw [exec_quant_of_ok hagain]
    simp only [withStatus, writePixels_twice hwf]
  · exact exec_quant_of_error (s := s.finish e) he

/-! ### One pixel, in either mode -/

theorem channelByte_byte (b : Byte) : channelByte (F64.ofNat b.toNat) = .ok b := by
  rw [channelByte, clampChannel_byte, F64.toU8_byte]

/-- A palette colour in EBUF is written back as it is (41_quantizer.md R118). -/
theorem writeBackPixel_colourF64 (c : Rgb) : writeBackPixel (colourF64 c) = .ok c := by
  simp only [writeBackPixel, colourF64, channelByte_byte]

/-- One pixel of the scan, where EBUF has an entry for it (41_quantizer.md R115). -/
theorem ditherPixel_of_getElem? (p : Palette) {w h x y : Nat} {buf : EBuf} {old : Rgb64}
    (hbuf : buf[y * w + x]? = some old) :
    ditherPixel p w h x y buf = (nearest p old).map fun i =>
      diffuse w h x y (errorOf old (colourF64 (paletteAt p i))) (buf.set (y * w + x) (colourF64 (paletteAt p i))) := by
  rw [ditherPixel, hbuf]
  dsimp only
  cases nearest p old <;> rfl

theorem ditherScan_one_pixel (p : Palette) (seed : Rgb64) :
    ditherScan p 1 1 [(0, 0)] [seed] = (nearest p seed).map fun i => [colourF64 (paletteAt p i)] := by
  rw [ditherScan, ditherPixel_of_getElem? p (old := seed) rfl]
  cases nearest p seed <;> rfl

/-- On a 1x1 image nothing is diffused, and the colour is the flat one (41_quantizer.md R121). -/
theorem quantizedColours_one_pixel (dither : Bool) (p : Palette) (g : F64) (m : Memory) :
    quantizedColours dither p 1 1 g m = (flatPixel p m g 0).map fun c => [c] := by
  have hflat : quantizedColours false p 1 1 g m = (flatPixel p m g 0).map fun c => [c] := by
    rw [quantizedColours, if_neg Bool.false_ne_true]
    change collect _ [0] = _
    rw [collect_cons]
    cases flatPixel p m g 0 <;> rfl
  cases dither
  · exact hflat
  · rw [quantizedColours, if_pos rfl]
    change collect _ [0] >>= ditherScan p 1 1 [(0, 0)] >>= collect writeBackPixel = _
    rw [collect_cons, flatPixel]
    cases adjustedPixel m g 0 with
    | error e => rfl
    | ok seed =>
      change ditherScan p 1 1 [(0, 0)] [seed] >>= collect writeBackPixel = _
      rw [ditherScan_one_pixel]
      dsimp only
      cases nearest p seed with
      | error e => rfl
      | ok i =>
        change collect writeBackPixel [colourF64 (paletteAt p i)] = _
        rw [collect_cons, writeBackPixel_colourF64]
        rfl

/-- Settles O35: on one pixel both modes find the same colour, and no check looks at CONFIG. -/
theorem ditherOfOnePixelIsFlat : Obligations.DitherOfOnePixelIsFlat := by
  intro s t hw hh hdither ht
  have hsame : quantColours { s with regs := { s.regs with config := s.regs.config &&& 0xFFFFFFFE#32 } } =
      quantColours s := by
    change (if s.badDimensions then _ else if !gainOk s.gain then _ else
      quantizedColours _ s.params.palette s.imageWidth s.imageHeight s.gain s.pix) = _
    rw [quantColours, hw, hh, quantizedColours_one_pixel, quantizedColours_one_pixel]
  rcases exec_quant_next ht with ⟨cs, hcs, rfl⟩ | ⟨e, he, rfl⟩
  · exact exec_quant_of_ok (hsame.trans hcs)
  · exact exec_quant_of_error (hsame.trans he)

end Sys2Proof.Machine
end

section
/-!
PROOFS. Dithered QUANT's values (41_quantizer.md R114 to R119). The scan pushes each pixel's error to the pixels after it;
seen from the receiving pixel these are the errors of its sources, in the order the scan reaches them. A pixel's sources
come before it, so a recursion on them says what each pixel holds when the scan reaches it. The weights of a pixel's
sources sum to at most 16/16, so the largest error grows by at most 510 a pixel, and no value comes near overflow.
-/

namespace Sys2Proof

open Sys2Proof.Spec

/-! ### Bounds that rounding keeps -/

theorem pow2_lt (j k : Nat) (h : j < k) : pow2 j < pow2 k := by
  rw [pow2_eq, pow2_eq]
  exact Nat.pow_lt_pow_right (by decide) h

/-- Rounding keeps a bound of at most 53 bits. -/
theorem F64.within_signedResult (s : Bool) {num den b : Nat} (hd : 0 < den) (hb : b ≤ 2 ^ 53)
    (h : num ≤ b * pow2 1070 * den) : (signedResult s (F64.roundMag num den)).Within b := by
  have hle := F64.roundMag_le num den _ hd (F64.short_mul_pow2 b 1070 hb) h
  have hmax : b * pow2 1070 < pow2 2098 := by
    rw [← pow2_eq] at hb
    calc b * pow2 1070 ≤ pow2 53 * pow2 1070 := Nat.mul_le_mul_right _ hb
      _ = pow2 1123 := (pow2_add 53 1070).symm
      _ < pow2 2098 := pow2_lt 1123 2098 (by decide)
  exact ⟨s, _, if_pos (hle.trans_lt hmax), hle⟩

theorem F64.Within.neg {x : F64} {b : Nat} (h : x.Within b) : (F64.neg x).Within b := by
  obtain ⟨s, m, rfl, hm⟩ := h
  exact ⟨!s, m, rfl, hm⟩

theorem natAbs_units_add_le (s t : Bool) (m n : Nat) : (units s m + units t n).natAbs ≤ m + n := by
  cases s <;> cases t <;> simp only [units_false, units_true] <;> omega

theorem F64.Within.add {x y : F64} {a b : Nat} (hx : x.Within a) (hy : y.Within b) (hab : a + b ≤ 2 ^ 53) :
    (F64.add x y).Within (a + b) := by
  obtain ⟨s, m, rfl, hm⟩ := hx
  obtain ⟨t, n, rfl, hn⟩ := hy
  rw [F64.add_fin]
  split_ifs
  · exact ⟨_, 0, rfl, Nat.zero_le _⟩
  · refine F64.within_signedResult _ one_pos hab ?_
    rw [Nat.mul_one, Nat.add_mul]
    exact (natAbs_units_add_le s t m n).trans (Nat.add_le_add hm hn)

theorem F64.Within.sub {x y : F64} {a b : Nat} (hx : x.Within a) (hy : y.Within b) (hab : a + b ≤ 2 ^ 53) :
    (F64.sub x y).Within (a + b) := hx.add hy.neg hab

theorem F64.Within.mul_ofNat {x : F64} {b k : Nat} (hx : x.Within b) (hk : k < 2 ^ 53) (hbk : b * k ≤ 2 ^ 53) :
    (F64.mul x (F64.ofNat k)).Within (b * k) := by
  obtain ⟨s, m, rfl, hm⟩ := hx
  rw [F64.ofNat_eq k hk, F64.mul_fin]
  refine F64.within_signedResult _ F64.unit_pos hbk ?_
  calc m * (F64.unit * k) ≤ b * pow2 1070 * (F64.unit * k) := Nat.mul_le_mul_right _ hm
    _ = b * k * pow2 1070 * F64.unit := by ring

theorem F64.Within.div_sixteen {x : F64} {b : Nat} (hx : x.Within (16 * b)) (hb : b ≤ 2 ^ 53) :
    (F64.div x (F64.ofNat 16)).Within b := by
  obtain ⟨s, m, rfl, hm⟩ := hx
  have hpos : 0 < F64.unit * 16 := Nat.mul_pos F64.unit_pos (by decide)
  rw [F64.ofNat_eq 16 (by decide), F64.div_fin _ _ _ _ hpos.ne']
  refine F64.within_signedResult _ hpos hb ?_
  calc F64.unit * m ≤ F64.unit * (16 * b * pow2 1070) := Nat.mul_le_mul_left _ hm
    _ = b * pow2 1070 * (F64.unit * 16) := by ring

end Sys2Proof

namespace Sys2Proof.Machine

open Sys2Proof.Spec

theorem RgbWithin.mono {c : Rgb64} {a b : Nat} (h : RgbWithin c a) (hab : a ≤ b) : RgbWithin c b :=
  ⟨h.1.mono hab, h.2.1.mono hab, h.2.2.mono hab⟩

/-- A contribution of `k`/16 of an error of at most `b`. -/
theorem RgbWithin.contribute {c err : Rgb64} {a b k : Nat} (hc : RgbWithin c a) (herr : RgbWithin err (16 * b))
    (hk : k ≤ 16) (hb : b ≤ 2 ^ 45) (hsum : a + k * b ≤ 2 ^ 53) :
    RgbWithin (Spec.contribute k c err) (a + k * b) := by
  have hkb : k * b ≤ 16 * 2 ^ 45 := Nat.mul_le_mul hk hb
  have channel {x e : F64} (hx : x.Within a) (he : e.Within (16 * b)) :
      (F64.add x (F64.div (F64.mul e (F64.ofNat k)) (F64.ofNat 16))).Within (a + k * b) := by
    have hmul := he.mul_ofNat (k := k) (by omega) (by rw [Nat.mul_assoc, Nat.mul_comm b]; omega)
    rw [Nat.mul_assoc, Nat.mul_comm b] at hmul
    exact hx.add (hmul.div_sixteen (by omega)) hsum
  exact ⟨channel hc.1 herr.1, channel hc.2.1 herr.2.1, channel hc.2.2 herr.2.2⟩

/-! ### The sources of a pixel -/

/-- A pixel whose error reaches another one, with its weight in sixteenths (41_quantizer.md R116). -/
structure DitherSource where
  weight : Nat
  x : Nat
  y : Nat

/-- The raster index of the source in an image of width `w`. -/
def DitherSource.index (w : Nat) (q : DitherSource) : Nat := q.y * w + q.x

/-- The sources of the pixel at (x, y), those that exist, in the order of 41_quantizer.md R119. -/
def ditherSources (w x y : Nat) : List DitherSource :=
  (if 1 ≤ x ∧ 1 ≤ y then [⟨1, x - 1, y - 1⟩] else []) ++ (if 1 ≤ y then [⟨5, x, y - 1⟩] else []) ++
    (if x + 1 < w ∧ 1 ≤ y then [⟨3, x + 1, y - 1⟩] else []) ++ (if 1 ≤ x then [⟨7, x - 1, y⟩] else [])

/-- What a pixel holds after the contributions of some of its sources, in order; `e` gives the sources' errors. -/
def receiveAll (e : Nat → Nat → Rgb64) (c : Rgb64) (sources : List DitherSource) : Rgb64 :=
  sources.foldl (fun c q => contribute q.weight c (e q.x q.y)) c

theorem accumulated_eq_receiveAll (w : Nat) (seed : Rgb64) (e : Nat → Nat → Rgb64) (x y : Nat) :
    accumulated w seed e x y = receiveAll e seed (ditherSources w x y) := by
  unfold accumulated ditherSources receiveAll
  split_ifs <;> rfl

/-- A source lies in the row above or just before its pixel in the same row (41_quantizer.md R118). -/
theorem mem_ditherSources {w x y : Nat} {q : DitherSource} (h : q ∈ ditherSources w x y) :
    (q.y + 1 = y ∧ (q.x ≤ x ∨ q.x < w)) ∨ (q.y = y ∧ q.x + 1 = x) := by
  simp only [ditherSources, List.mem_append, List.mem_ite_nil_right, List.mem_singleton] at h
  rcases h with ((⟨hex, rfl⟩ | ⟨hex, rfl⟩) | ⟨hex, rfl⟩) | ⟨hex, rfl⟩ <;> dsimp only <;> omega

theorem ditherSources_weights_le (w x y : Nat) : ((ditherSources w x y).map DitherSource.weight).sum ≤ 16 := by
  have hone (c : Prop) [Decidable c] (q : DitherSource) :
      ((if c then [q] else []).map DitherSource.weight).sum ≤ q.weight := by
    split_ifs <;> simp
  simp only [ditherSources, List.map_append, List.sum_append]
  exact Nat.add_le_add (Nat.add_le_add (Nat.add_le_add (hone _ _) (hone _ _)) (hone _ _)) (hone _ _)

/-- The sources come in raster order. -/
theorem ditherSources_sorted {w x : Nat} (hx : x < w) (y : Nat) :
    (ditherSources w x y).Pairwise fun a b => a.index w < b.index w := by
  cases y with
  | zero => by_cases hleft : 1 ≤ x <;> simp [ditherSources, hleft]
  | succ y =>
    have hrow : (y + 1) * w = y * w + w := Nat.succ_mul y w
    by_cases hleft : 1 ≤ x <;> by_cases hright : x + 1 < w <;>
      simp [ditherSources, DitherSource.index, hleft, hright] <;> omega

/-! ### The scan seen from the receiving pixel -/

/-- The error of a pixel that holds `old` (41_quantizer.md R115). -/
def quantError (p : Palette) (old : Rgb64) : Rgb64 := errorOf old (colourF64 (paletteAt p (nearestIndex p old)))

/-- What the pixel at (x, y) holds when the scan reaches it: its seed, and its sources' errors in their order
(41_quantizer.md R119). -/
def ditherOld (p : Palette) (w : Nat) (seed : Nat → Nat → Rgb64) (x y : Nat) : Rgb64 :=
  (ditherSources w x y).attach.foldl
    (fun c q => contribute q.1.weight c (quantError p (ditherOld p w seed q.1.x q.1.y))) (seed x y)
termination_by (y, x)
decreasing_by
  rw [Prod.lex_def]
  have hq := mem_ditherSources q.2
  dsimp only
  omega

/-- The error the scan finds at (x, y). -/
def ditherError (p : Palette) (w : Nat) (seed : Nat → Nat → Rgb64) (x y : Nat) : Rgb64 :=
  quantError p (ditherOld p w seed x y)

theorem ditherOld_eq (p : Palette) (w : Nat) (seed : Nat → Nat → Rgb64) (x y : Nat) :
    ditherOld p w seed x y = receiveAll (ditherError p w seed) (seed x y) (ditherSources w x y) := by
  rw [ditherOld]
  exact List.foldl_attach (f := fun c (q : DitherSource) => contribute q.weight c (ditherError p w seed q.x q.y))

theorem ditherOld_eq_accumulated (p : Palette) (w : Nat) (seed : Nat → Nat → Rgb64) (x y : Nat) :
    ditherOld p w seed x y = accumulated w (seed x y) (ditherError p w seed) x y := by
  rw [ditherOld_eq, accumulated_eq_receiveAll]

/-! ### No value overflows -/

/-- Contributions of errors of at most `b` add their weights' part of `b`. -/
theorem receiveAll_within {e : Nat → Nat → Rgb64} {b : Nat} (hb : b ≤ 2 ^ 45) (sources : List DitherSource)
    (he : ∀ q ∈ sources, RgbWithin (e q.x q.y) (16 * b)) (hw : (sources.map DitherSource.weight).sum ≤ 16)
    {c : Rgb64} {a : Nat} (hc : RgbWithin c a) (hsum : a + (sources.map DitherSource.weight).sum * b ≤ 2 ^ 53) :
    RgbWithin (receiveAll e c sources) (a + (sources.map DitherSource.weight).sum * b) := by
  induction sources generalizing c a with
  | nil => simpa [receiveAll] using hc
  | cons q rest ih =>
    rw [List.map_cons, List.sum_cons] at hw hsum ⊢
    rw [Nat.add_mul, ← Nat.add_assoc] at hsum ⊢
    exact ih (fun q' hq' => he q' (List.mem_cons_of_mem _ hq')) (by omega)
      (hc.contribute (he q List.mem_cons_self) (by omega) hb (by omega)) hsum

/-- An error is at most 255 larger than the value it is the error of. -/
theorem quantError_within (p : Palette) {c : Rgb64} {a : Nat} (hc : RgbWithin c (16 * a)) (ha : a ≤ 2 ^ 45) :
    RgbWithin (quantError p c) (16 * (a + 255)) := by
  have hnew := colourF64_within (paletteAt p (nearestIndex p c))
  rw [Nat.mul_add]
  exact ⟨hc.1.sub hnew.1 (by omega), hc.2.1.sub hnew.2.1 (by omega), hc.2.2.sub hnew.2.2 (by omega)⟩

theorem index_lt_of_mem_ditherSources {w x y : Nat} (hx : x < w) {q : DitherSource} (h : q ∈ ditherSources w x y) :
    q.x < w ∧ q.index w < y * w + x := by
  unfold DitherSource.index
  rcases mem_ditherSources h with ⟨hy, hlt⟩ | ⟨hy, hlt⟩
  · have hrow : y * w = q.y * w + w := by rw [← hy, Nat.succ_mul]
    omega
  · rw [hy]
    omega

/-- The pixel with raster index `n` holds at most 255 + 510 n (41_quantizer.md R118). -/
theorem ditherOld_within (p : Palette) {w : Nat} {seed : Nat → Nat → Rgb64}
    (hseed : ∀ x y, RgbWithin (seed x y) (16 * 255)) {x y : Nat} (hx : x < w) (hsize : y * w + x ≤ 2 ^ 32) :
    RgbWithin (ditherOld p w seed x y) (16 * (255 + 510 * (y * w + x))) := by
  induction hn : y * w + x using Nat.strong_induction_on generalizing x y with
  | _ n ih =>
    have herrors : ∀ q ∈ ditherSources w x y, RgbWithin (ditherError p w seed q.x q.y) (16 * (510 * n)) := by
      intro q hq
      obtain ⟨hqx, hlt⟩ := index_lt_of_mem_ditherSources hx hq
      unfold DitherSource.index at hlt
      exact (quantError_within p (ih _ (by omega) hqx (by omega) rfl) (by omega)).mono (by omega)
    have hweights := ditherSources_weights_le w x y
    have htotal := Nat.mul_le_mul_right (510 * n) hweights
    rw [ditherOld_eq]
    exact (receiveAll_within (by omega) _ herrors hweights (hseed x y) (by omega)).mono (by omega)

end Sys2Proof.Machine
end

section
/-!
PROOFS. The scan of dithered QUANT, and what it leaves (41_quantizer.md R115 to R119). Between two pixels EBUF holds the
palette colours of the pixels before the scan, and at every other pixel its seed with the contributions of the sources
before the scan. One pixel of the scan moves that boundary by one.
-/

namespace Sys2Proof.Machine

open Sys2Proof.Spec

/-! ### Raster order -/

/-- The position with raster index `n` (00_scope.md R12). -/
def rasterPos (w n : Nat) : Nat × Nat := (n % w, n / w)

theorem rasterPos_index {w x : Nat} (hx : x < w) (y : Nat) : rasterPos w (y * w + x) = (x, y) := by
  have hw : 0 < w := by omega
  rw [rasterPos, Nat.mul_add_mod_self_right, Nat.mod_eq_of_lt hx, Nat.add_comm, Nat.add_mul_div_right _ _ hw,
    Nat.div_eq_of_lt hx, Nat.zero_add]

/-- The positions in raster order are those with the rising raster indices. -/
theorem rasterOrder_eq_map (w h : Nat) : rasterOrder w h = (List.range (h * w)).map (rasterPos w) := by
  induction h with
  | zero => simp [rasterOrder]
  | succ h ih =>
    have hrow : (List.range w).map (fun x => (x, h)) = ((List.range w).map (h * w + ·)).map (rasterPos w) := by
      rw [List.map_map]
      exact List.map_congr_left fun x hx => (rasterPos_index (List.mem_range.mp hx) h).symm
    rw [Nat.succ_mul, List.range_add, List.map_append, ← ih, ← hrow, rasterOrder, List.range_succ, List.flatMap_append,
      List.flatMap_singleton, rasterOrder]

/-- Every raster index inside an image is that of a position. -/
theorem exists_position {w h j : Nat} (hj : j < w * h) : ∃ x y, x < w ∧ y < h ∧ j = y * w + x := by
  have hw : 0 < w := Nat.pos_of_ne_zero (by rintro rfl; simp at hj)
  exact ⟨j % w, j / w, Nat.mod_lt _ hw, Nat.div_lt_of_lt_mul hj, (Nat.div_add_mod' j w).symm⟩

/-- Positions of an image are equal where their raster indices are. -/
theorem index_inj {w x x' y y' : Nat} (hx : x < w) (hx' : x' < w) : y' * w + x' = y * w + x ↔ x' = x ∧ y' = y := by
  constructor
  · intro h
    have := congrArg (rasterPos w) h
    rw [rasterPos_index hx', rasterPos_index hx, Prod.mk.injEq] at this
    exact this
  · rintro ⟨rfl, rfl⟩
    rfl

theorem and_index_iff {w x y a b : Nat} {c : Prop} (hx : x < w) (ha : c → a < w) :
    (c ∧ b * w + a = y * w + x) ↔ c ∧ a = x ∧ b = y := and_congr_right fun hc => index_inj hx (ha hc)

/-! ### What one pixel of the scan sends -/

/-- A conditional `Spread` to one entry, read at any entry (41_quantizer.md R116). -/
theorem getElem?_spread_if (c : Prop) [Decidable c] (buf : EBuf) (m k j : Nat) (err : Rgb64) :
    (if c then spread buf m err k else buf)[j]? =
      buf[j]?.map fun old => if c ∧ m = j then contribute k old err else old := by
  by_cases hc : c
  · simp only [hc, if_true, true_and, spread, List.getElem?_modify]
    rfl
  · simp [hc]

theorem receiveAll_append (e : Nat → Nat → Rgb64) (c : Rgb64) (before after : List DitherSource) :
    receiveAll e c (before ++ after) = receiveAll e (receiveAll e c before) after := List.foldl_append

/-- What a source that may not exist contributes, when only the one with raster index `n` does. -/
theorem receiveAll_filter_if (w n : Nat) (e : Nat → Nat → Rgb64) (old : Rgb64) (c : Prop) [Decidable c]
    (q : DitherSource) :
    receiveAll e old ((if c then [q] else []).filter fun q => decide (q.index w = n)) =
      if c ∧ q.y * w + q.x = n then contribute q.weight old (e q.x q.y) else old := by
  unfold DitherSource.index
  by_cases hc : c <;> by_cases hn : q.y * w + q.x = n <;> simp [receiveAll, hc, hn]

/-- What the pixel at (x', y') holds after the one at (x, y) has sent its error: one contribution where it is one of the
four neighbours, and no change elsewhere (41_quantizer.md R116). -/
def afterNeighbour (x y : Nat) (err : Rgb64) (x' y' : Nat) (old : Rgb64) : Rgb64 :=
  if x' = x + 1 ∧ y' = y then contribute 7 old err
  else if x' + 1 = x ∧ y' = y + 1 then contribute 3 old err
  else if x' = x ∧ y' = y + 1 then contribute 5 old err
  else if x' = x + 1 ∧ y' = y + 1 then contribute 1 old err
  else old

/-- `Diffuse` at each entry: the four targets are different pixels. -/
theorem getElem?_diffuse {w h x y x' y' : Nat} (hx : x < w) (hx' : x' < w) (hy' : y' < h) (err : Rgb64) (buf : EBuf) :
    (diffuse w h x y err buf)[y' * w + x']? = buf[y' * w + x']?.map (afterNeighbour x y err x' y') := by
  have right : (x + 1 < w ∧ y * w + (x + 1) = y' * w + x') ↔ x' = x + 1 ∧ y' = y := by
    rw [and_index_iff hx' (by omega)]; omega
  have belowLeft : ((y + 1 < h ∧ 1 ≤ x) ∧ (y + 1) * w + (x - 1) = y' * w + x') ↔ x' + 1 = x ∧ y' = y + 1 := by
    rw [and_index_iff hx' (by omega)]; omega
  have below : (y + 1 < h ∧ (y + 1) * w + x = y' * w + x') ↔ x' = x ∧ y' = y + 1 := by
    rw [and_index_iff hx' (by omega)]; omega
  have belowRight : ((y + 1 < h ∧ x + 1 < w) ∧ (y + 1) * w + (x + 1) = y' * w + x') ↔ x' = x + 1 ∧ y' = y + 1 := by
    rw [and_index_iff hx' (by omega)]; omega
  simp only [diffuse, getElem?_spread_if, Option.map_map, right, belowLeft, below, belowRight]
  congr 1
  funext old
  dsimp only [Function.comp_apply, afterNeighbour]
  split_ifs
  all_goals first | rfl | omega

/-- Among a pixel's sources at most one is the pixel at (x, y), and it sends what `Diffuse` spreads. -/
theorem receiveAll_from_one {w x y x' y' : Nat} (hx : x < w) (hx' : x' < w) (err old : Rgb64) :
    receiveAll (fun _ _ => err) old ((ditherSources w x' y').filter fun q => decide (q.index w = y * w + x)) =
      afterNeighbour x y err x' y' old := by
  have left : (1 ≤ x' ∧ y' * w + (x' - 1) = y * w + x) ↔ x' = x + 1 ∧ y' = y := by
    rw [and_index_iff hx (by omega)]; omega
  have aboveRight : ((x' + 1 < w ∧ 1 ≤ y') ∧ (y' - 1) * w + (x' + 1) = y * w + x) ↔ x' + 1 = x ∧ y' = y + 1 := by
    rw [and_index_iff hx (by omega)]; omega
  have above : (1 ≤ y' ∧ (y' - 1) * w + x' = y * w + x) ↔ x' = x ∧ y' = y + 1 := by
    rw [and_index_iff hx (by omega)]; omega
  have aboveLeft : ((1 ≤ x' ∧ 1 ≤ y') ∧ (y' - 1) * w + (x' - 1) = y * w + x) ↔ x' = x + 1 ∧ y' = y + 1 := by
    rw [and_index_iff hx (by omega)]; omega
  simp only [ditherSources, List.filter_append, receiveAll_append, receiveAll_filter_if, afterNeighbour, left, aboveRight,
    above, aboveLeft]
  split_ifs
  all_goals first | rfl | omega

/-! ### EBUF between two pixels of the scan -/

/-- The palette position the scan finds for the pixel at (x, y). -/
def ditherIndex (p : Palette) (w : Nat) (seed : Nat → Nat → Rgb64) (x y : Nat) : Fin 6 :=
  nearestIndex p (ditherOld p w seed x y)

/-- The palette colour the scan leaves at the pixel with raster index `n`. -/
def ditherColour (p : Palette) (w : Nat) (seed : Nat → Nat → Rgb64) (n : Nat) : Rgb :=
  paletteAt p (ditherIndex p w seed (rasterPos w n).1 (rasterPos w n).2)

/-- The entry of EBUF at (x, y) when the scan has done `n` pixels: its palette colour where it is one of them, and else
its seed with what those of its sources have sent that are among them. -/
def scanEntry (p : Palette) (w : Nat) (seed : Nat → Nat → Rgb64) (n x y : Nat) : Rgb64 :=
  if y * w + x < n then colourF64 (paletteAt p (ditherIndex p w seed x y))
  else receiveAll (ditherError p w seed) (seed x y) ((ditherSources w x y).filter fun q => decide (q.index w < n))

/-- EBUF when the scan has done `n` pixels of an image of `count`. -/
def scanBuf (p : Palette) (w count : Nat) (seed : Nat → Nat → Rgb64) (n : Nat) : EBuf :=
  (List.range count).map fun m => scanEntry p w seed n (rasterPos w m).1 (rasterPos w m).2

theorem getElem?_scanBuf (p : Palette) {w h x y : Nat} (seed : Nat → Nat → Rgb64) (n : Nat) (hx : x < w) (hy : y < h) :
    (scanBuf p w (w * h) seed n)[y * w + x]? = some (scanEntry p w seed n x y) := by
  rw [scanBuf, List.getElem?_map, List.getElem?_range (raster_lt w h x y hx hy), Option.map_some, rasterPos_index hx]

/-- In a list of rising keys, the items with keys below `n + 1` are those below `n` and then those at `n`. -/
theorem filter_lt_succ {α : Type} (key : α → Nat) (n : Nat) (l : List α) (h : l.Pairwise fun a b => key a < key b) :
    l.filter (fun a => decide (key a < n + 1)) =
      l.filter (fun a => decide (key a < n)) ++ l.filter fun a => decide (key a = n) := by
  induction l with
  | nil => rfl
  | cons a l ih =>
    obtain ⟨ha, hl⟩ := List.pairwise_cons.mp h
    have hnone (hn : n ≤ key a) : l.filter (fun a => decide (key a < n)) = [] :=
      List.filter_eq_nil_iff.mpr fun b hb => by have := ha b hb; simp; omega
    have hrest := ih hl
    simp only [Nat.lt_succ_iff] at hrest ⊢
    rcases Nat.lt_trichotomy (key a) n with hlt | heq | hgt
    · simp [hrest, hlt, hlt.le, hlt.ne]
    · simp [hrest, heq, hnone heq.ge]
    · simp [hrest, hnone hgt.le, hgt, hgt.ne', hgt.le]

/-- When the scan reaches a pixel, all its sources have sent their errors. -/
theorem scanEntry_self (p : Palette) {w : Nat} (seed : Nat → Nat → Rgb64) {x : Nat} (hx : x < w) (y : Nat) :
    scanEntry p w seed (y * w + x) x y = ditherOld p w seed x y := by
  rw [scanEntry, if_neg (Nat.lt_irrefl _), ditherOld_eq, List.filter_eq_self.mpr]
  exact fun q hq => decide_eq_true (index_lt_of_mem_ditherSources hx hq).2

theorem scanEntry_of_lt (p : Palette) {w n x y : Nat} (seed : Nat → Nat → Rgb64) (h : y * w + x < n) :
    scanEntry p w seed n x y = colourF64 (paletteAt p (ditherIndex p w seed x y)) := if_pos h

/-- A pixel has no source at or after itself. -/
theorem ditherSources_filter_self {w x : Nat} (hx : x < w) {y n : Nat} (hn : y * w + x ≤ n) :
    ((ditherSources w x y).filter fun q => decide (q.index w = n)) = [] :=
  List.filter_eq_nil_iff.mpr fun q hq => by
    have hlt := (index_lt_of_mem_ditherSources hx hq).2
    rw [decide_eq_true_iff]
    omega

theorem receiveAll_congr {e e' : Nat → Nat → Rgb64} (c : Rgb64) {l : List DitherSource}
    (h : ∀ q ∈ l, e q.x q.y = e' q.x q.y) : receiveAll e c l = receiveAll e' c l :=
  List.foldl_ext _ _ _ fun c q hq => by rw [h q hq]

/-- The scan at (x, y) makes of each entry what it is when one pixel more is done. -/
theorem scanEntry_succ (p : Palette) {w x y x' y' : Nat} (seed : Nat → Nat → Rgb64) (hx : x < w) (hx' : x' < w) :
    scanEntry p w seed (y * w + x + 1) x' y' =
      afterNeighbour x y (ditherError p w seed x y) x' y'
        (if y' * w + x' = y * w + x then colourF64 (paletteAt p (ditherIndex p w seed x y))
          else scanEntry p w seed (y * w + x) x' y') := by
  rw [← receiveAll_from_one hx hx']
  rcases Nat.lt_or_ge (y * w + x) (y' * w + x') with hlt | hge
  · rw [if_neg hlt.ne', scanEntry, scanEntry, if_neg (by omega), if_neg (by omega),
      filter_lt_succ _ _ _ (ditherSources_sorted hx' y'), receiveAll_append]
    refine receiveAll_congr _ fun q hq => ?_
    obtain ⟨hmem, hindex⟩ := List.mem_filter.mp hq
    obtain ⟨hqx, hqy⟩ := (index_inj hx (index_lt_of_mem_ditherSources hx' hmem).1).mp (of_decide_eq_true hindex)
    rw [hqx, hqy]
  · rw [ditherSources_filter_self hx' hge, scanEntry_of_lt p seed (by omega)]
    split_ifs with heq
    · obtain ⟨rfl, rfl⟩ := (index_inj hx hx').mp heq
      rfl
    · rw [scanEntry_of_lt p seed (by omega)]
      rfl

/-- One pixel of the scan (41_quantizer.md R115). -/
theorem ditherPixel_scanBuf (p : Palette) {w h x y : Nat} (seed : Nat → Nat → Rgb64) (hx : x < w) (hy : y < h)
    (hfin : FiniteRgb (ditherOld p w seed x y)) :
    ditherPixel p w h x y (scanBuf p w (w * h) seed (y * w + x)) = .ok (scanBuf p w (w * h) seed (y * w + x + 1)) := by
  have hentry := getElem?_scanBuf p seed (y * w + x) hx hy
  rw [scanEntry_self p seed hx] at hentry
  rw [ditherPixel_of_getElem? p hentry, nearest_eq_nearestIndex p hfin]
  refine congrArg Except.ok (List.ext_getElem? fun j => ?_)
  rcases Nat.lt_or_ge j (w * h) with hj | hj
  · obtain ⟨x', y', hx', hy', rfl⟩ := exists_position hj
    rw [getElem?_diffuse hx hx' hy', List.getElem?_set', getElem?_scanBuf p seed _ hx' hy',
      getElem?_scanBuf p seed _ hx' hy', scanEntry_succ p seed hx hx']
    simp only [eq_comm (a := y * w + x)]
    split_ifs <;> rfl
  · rw [List.getElem?_eq_none (by simpa [scanBuf] using hj), List.getElem?_eq_none (by simpa [scanBuf] using hj)]

/-- The scan over the positions from raster index `n` on. -/
theorem ditherScan_scanBuf (p : Palette) {w h : Nat} (seed : Nat → Nat → Rgb64)
    (hfin : ∀ x y, x < w → y < h → FiniteRgb (ditherOld p w seed x y)) (k n : Nat) (hn : n + k = w * h) :
    ditherScan p w h ((List.range' n k).map (rasterPos w)) (scanBuf p w (w * h) seed n) =
      .ok (scanBuf p w (w * h) seed (w * h)) := by
  induction k generalizing n with
  | zero => rw [← hn]; rfl
  | succ k ih =>
    obtain ⟨x, y, hx, hy, rfl⟩ := exists_position (w := w) (h := h) (j := n) (by omega)
    rw [List.range'_succ, List.map_cons, rasterPos_index hx, ditherScan,
      ditherPixel_scanBuf p seed hx hy (hfin x y hx hy)]
    exact ih _ (by omega)

/-- The whole scan leaves a palette colour at every pixel (41_quantizer.md R118). -/
theorem ditherScan_image (p : Palette) {w h : Nat} (seed : Nat → Nat → Rgb64)
    (hfin : ∀ x y, x < w → y < h → FiniteRgb (ditherOld p w seed x y)) :
    ditherScan p w h (rasterOrder w h) ((List.range (w * h)).map fun n => seed (rasterPos w n).1 (rasterPos w n).2) =
      .ok ((List.range (w * h)).map fun n => colourF64 (ditherColour p w seed n)) := by
  have hstart : ((List.range (w * h)).map fun n => seed (rasterPos w n).1 (rasterPos w n).2) =
      scanBuf p w (w * h) seed 0 := by
    refine List.map_congr_left fun n _ => ?_
    rw [scanEntry, if_neg (Nat.not_lt_zero _), List.filter_eq_nil_iff.mpr fun q _ => by simp]
    rfl
  have hend : scanBuf p w (w * h) seed (w * h) =
      (List.range (w * h)).map fun n => colourF64 (ditherColour p w seed n) := by
    refine List.map_congr_left fun n hn => ?_
    obtain ⟨x, y, hx, hy, rfl⟩ := exists_position (List.mem_range.mp hn)
    rw [ditherColour, rasterPos_index hx]
    exact scanEntry_of_lt p seed (raster_lt w h x y hx hy)
  rw [hstart, ← hend, rasterOrder_eq_map, List.range_eq_range', Nat.mul_comm h w]
  exact ditherScan_scanBuf p seed hfin (w * h) 0 (Nat.zero_add _)

/-! ### Dithered QUANT -/

/-- The adjusted colour of each pixel (41_quantizer.md R114). -/
def ditherSeed (g : F64) (w : Nat) (px : Nat → Rgb) (x y : Nat) : Rgb64 := adjusted g (px (y * w + x))

theorem ditherOld_finite (p : Palette) {g : F64} (hg : gainOk g = true) {w h : Nat} (hcount : w * h ≤ 2 ^ 32)
    (px : Nat → Rgb) {x y : Nat} (hx : x < w) (hy : y < h) : FiniteRgb (ditherOld p w (ditherSeed g w px) x y) :=
  (ditherOld_within p (fun _ _ => adjusted_within hg _) hx ((raster_lt w h x y hx hy).le.trans hcount)).finite

/-- Dithered mode finds a palette colour for each pixel of a written image (41_quantizer.md R114 to R118). -/
theorem quantizedColours_dither (p : Palette) {g : F64} (hg : gainOk g = true) {w h : Nat} (hcount : w * h ≤ 2 ^ 32)
    {m : Memory} {px : Nat → Rgb} (hpix : ∀ n, n < w * h → PixelIs m n (px n)) :
    quantizedColours true p w h g m =
      .ok ((List.range (w * h)).map (ditherColour p w (ditherSeed g w px))) := by
  have hseeds : collect (adjustedPixel m g) (List.range (w * h)) =
      .ok ((List.range (w * h)).map fun n => ditherSeed g w px (rasterPos w n).1 (rasterPos w n).2) := by
    refine collect_of_forall _ _ _ fun n hn => ?_
    obtain ⟨x, y, hx, hy, rfl⟩ := exists_position (List.mem_range.mp hn)
    rw [rasterPos_index hx]
    exact adjustedPixel_of_pixelIs hg (hpix _ (List.mem_range.mp hn))
  have hscan := ditherScan_image p (ditherSeed g w px) fun x y hx hy => ditherOld_finite p hg hcount px hx hy
  rw [quantizedColours, if_pos rfl, hseeds]
  dsimp only [bind, Except.bind]
  rw [hscan]
  dsimp only
  rw [collect_ok, List.map_map, List.map_map]
  exact List.map_congr_left fun n _ => writeBackPixel_colourF64 _

theorem imageSize_le (s : State) : s.imageWidth * s.imageHeight ≤ 2 ^ 32 :=
  (Nat.mul_le_mul s.imageWidth_lt.le s.imageHeight_lt.le).trans (by norm_num)

theorem quantColours_dither {s : State} {px : Nat → Rgb} (hd : LegalDims s) (hg : LegalGain s.gainBits)
    (hdither : s.dither = true) (hpix : ∀ n, n < pixelCount s → PixelIs s.pix n (px n)) :
    quantColours s = .ok ((List.range (pixelCount s)).map
      (ditherColour s.params.palette s.imageWidth (ditherSeed s.gain s.imageWidth px))) := by
  rw [quantColours_of_legal hd hg, hdither]
  exact quantizedColours_dither _ (gainOk_of_legalGain hg) (imageSize_le s) hpix

/-- Settles O33: no value of the scan overflows, and each pixel's palette colour is written back as it is. -/
theorem ditherQuantCompletes : Obligations.DitherQuantCompletes := by
  intro s px hd hg hdither hpix
  exact ⟨fun n => ditherIndex s.params.palette s.imageWidth (ditherSeed s.gain s.imageWidth px)
      (rasterPos s.imageWidth n).1 (rasterPos s.imageWidth n).2,
    _, exec_quant_of_ok (quantColours_dither hd hg hdither hpix), get_writePixels_image s.pix (pixelCount s) _⟩

/-- Settles O34: a pixel holds what its sources sent it, in their order, when the scan reaches it. -/
theorem ditherFollowsTheScan : Obligations.DitherFollowsTheScan := by
  intro s t px hd hg hdither hpix ht
  cases ht.symm.trans (exec_quant_of_ok (quantColours_dither hd hg hdither hpix))
  set w := s.imageWidth
  set old := ditherOld s.params.palette w (ditherSeed s.gain w px)
  refine ⟨old, fun x y => nearestIndex s.params.palette (old x y), fun x y hx hy => ⟨?_, ?_, ?_⟩⟩
  · exact ditherOld_eq_accumulated _ _ _ x y
  · exact nearest_eq_nearestIndex _ (ditherOld_finite _ (gainOk_of_legalGain hg) (imageSize_le s) px hx hy)
  · refine pixelIs_writePixels s.pix ?_
    rw [pixelCount, List.getElem?_map, List.getElem?_range (raster_lt w _ x y hx hy), Option.map_some, ditherColour,
      rasterPos_index hx]
    rfl

end Sys2Proof.Machine
end

section
/-!
PROOFS. MASK (42_mask.md R130 to R132). The loop meets every raster index of the image once, so it leaves 255 in the
colour bytes of the pixels outside the disk and every other byte as it was. What it leaves depends on no byte it writes,
and so a second run changes nothing.
-/

namespace Sys2Proof.Machine

open Sys2Proof.Spec

/-! ### What MASK leaves -/

theorem outsideDisk_iff (w h x y : Nat) : outsideDisk w h x y = true ↔ Outside w h x y := decide_eq_true_iff

theorem channelAt_pureWhite {k : Nat} (h : k < 3) : channelAt pureWhite k = some 255#8 := by
  interval_cases k <;> rfl

/-- One turn of the loop of MASK, at the pixel with raster index `n` (42_mask.md R131). -/
theorem get_maskPixel (w h n : Nat) (m : Memory) (a : Nat) :
    (if outsideDisk w h (n % w) (n / w) = true then writePixel m n pureWhite else m).get a =
      if a / 4 = n ∧ a % 4 < 3 ∧ outsideDisk w h (n % w) (n / w) = true then some 255#8 else m.get a := by
  by_cases hout : outsideDisk w h (n % w) (n / w) = true
  · rw [if_pos hout, get_writePixel]
    simp only [hout, and_true]
    split_ifs with hin
    · exact channelAt_pureWhite hin.2
    · rfl
  · simp [hout]

/-- The loop of MASK over the pixels with raster indices `ns`, at every address. -/
theorem get_maskScan (w h : Nat) (ns : List Nat) (m : Memory) (a : Nat) :
    (maskScan w h (ns.map (rasterPos w)) m).get a =
      if a / 4 ∈ ns ∧ a % 4 < 3 ∧ outsideDisk w h (a / 4 % w) (a / 4 / w) = true then some 255#8 else m.get a := by
  induction ns generalizing m with
  | nil => simp [maskScan]
  | cons n ns ih =>
    rw [List.map_cons, rasterPos, maskScan, Nat.div_add_mod', ih, get_maskPixel]
    by_cases hn : a / 4 = n
    · subst hn
      simp only [List.mem_cons, true_or, true_and]
      exact ite_eq_right_iff.mpr fun hin => (if_pos hin.2).symm
    · simp only [List.mem_cons, hn, false_or, false_and, if_false]

/-- The loop of MASK at every address. -/
theorem get_maskScan_rasterOrder (w h : Nat) (m : Memory) (a : Nat) :
    (maskScan w h (rasterOrder w h) m).get a =
      if a / 4 < w * h ∧ a % 4 < 3 ∧ outsideDisk w h (a / 4 % w) (a / 4 / w) = true then some 255#8 else m.get a := by
  rw [rasterOrder_eq_map, get_maskScan, Nat.mul_comm h w]
  simp only [List.mem_range]

theorem exec_mask_of_legal {s : State} (hd : LegalDims s) :
    exec .mask s = .next (withStatus (maskImage s.imageWidth s.imageHeight s) 0x00000002#32) := by
  rw [exec_mask, maskBody, (badDimensions_eq_false_iff s).mpr hd]
  rfl

theorem exec_mask_of_illegal {s : State} (hd : ¬ LegalDims s) : exec .mask s = .next (withStatus s 0x00000022#32) := by
  refine badDimensionsRejected .mask s (.inr (.inl rfl)) ?_
  rw [LegalDims] at hd
  omega

/-- Settles O36: the check of the dimensions comes first, and the loop over a legal image whitens the masked pixels. -/
theorem maskWhitensOutsideTheDisk : Obligations.MaskWhitensOutsideTheDisk := by
  refine ⟨decodeSampleWords.2.2.2.1, fun s hd => exec_mask_of_illegal hd, fun s hd => ?_⟩
  refine ⟨maskScan s.imageWidth s.imageHeight (rasterOrder s.imageWidth s.imageHeight) s.pix, exec_mask_of_legal hd,
    fun a => ?_⟩
  rw [get_maskScan_rasterOrder, ← outsideDisk_iff]
  exact ⟨fun hin => if_pos hin, fun hout => if_neg hout⟩

/-! ### MASK run twice -/

theorem maskScan_twice (w h : Nat) {m : Memory} (hm : m.wf = true) :
    maskScan w h (rasterOrder w h) (maskScan w h (rasterOrder w h) m) = maskScan w h (rasterOrder w h) m := by
  have hw := maskScan_wf w h (rasterOrder w h) m hm
  refine Memory.ext_get _ _ (maskScan_wf w h _ _ hw) hw fun a => ?_
  simp only [get_maskScan_rasterOrder]
  split_ifs <;> rfl

theorem maskImage_twice (w h : Nat) {s : State} (hm : s.pix.wf = true) (v : Word) :
    maskImage w h (withStatus (maskImage w h s) v) = withStatus (maskImage w h s) v := by
  simp only [maskImage, withStatus, maskScan_twice w h hm]

/-- Settles O37: MASK keeps the dimensions, so the second run makes the same choice as the first. -/
theorem maskIdempotent : Obligations.MaskIdempotent := by
  intro s t hwf ht
  by_cases hd : LegalDims s
  · obtain rfl := Host.Outcome.next.inj (ht.symm.trans (exec_mask_of_legal hd))
    set masked := maskImage s.imageWidth s.imageHeight s with hmasked
    calc exec .mask (withStatus masked 0x00000002#32)
        = .next (withStatus (maskImage s.imageWidth s.imageHeight (withStatus masked 0x00000002#32)) 0x00000002#32) :=
          exec_mask_of_legal (s := withStatus masked 0x00000002#32) hd
      _ = .next (withStatus (withStatus masked 0x00000002#32) 0x00000002#32) := by
          rw [hmasked, maskImage_twice _ _ hwf]
      _ = .next (withStatus masked 0x00000002#32) := rfl
  · obtain rfl := Host.Outcome.next.inj (ht.symm.trans (exec_mask_of_illegal hd))
    exact exec_mask_of_illegal (s := withStatus s 0x00000022#32) hd

/-! ### The disk -/

theorem outside_mirror_x {w x : Nat} (h y : Nat) (hx : x < w) : Outside w h (w - 1 - x) y ↔ Outside w h x y := by
  have hmirror : 2 * ((w - 1 - x : Nat) : Int) - w + 1 = -(2 * (x : Int) - w + 1) := by omega
  rw [Outside, hmirror, neg_mul_neg, Outside]

theorem outside_mirror_y {h y : Nat} (w x : Nat) (hy : y < h) : Outside w h x (h - 1 - y) ↔ Outside w h x y := by
  have hmirror : 2 * ((h - 1 - y : Nat) : Int) - h + 1 = -(2 * (y : Int) - h + 1) := by omega
  rw [Outside, hmirror, neg_mul_neg, Outside]

/-- The pixel nearest the centre of a square is inside the disk: its test value is at most 2 (42_mask.md R132). -/
theorem not_outside_centre {w : Nat} (hw : 0 < w) : ¬ Outside w w ((w - 1) / 2) ((w - 1) / 2) := by
  rw [Outside, gt_iff_lt, not_lt]
  rcases Nat.even_or_odd' (w - 1) with ⟨k, hk | hk⟩
  · have hcentre : 2 * (((w - 1) / 2 : Nat) : Int) - w + 1 = 0 := by omega
    rw [hcentre]
    positivity
  · have hcentre : 2 * (((w - 1) / 2 : Nat) : Int) - w + 1 = -1 := by omega
    have htwo : (2 : Int) ≤ w := by omega
    rw [hcentre]
    nlinarith only [htwo]

/-- Settles O38: mirroring a position changes the sign of its offset from the centre; the squares up to 3x3 are few. -/
theorem maskGeometry : Obligations.MaskGeometry := by
  refine ⟨fun w h x y hx hy => ⟨?_, ?_⟩, fun w hw => ⟨(w - 1) / 2, (w - 1) / 2, by omega, by omega, ?_⟩, ?_⟩
  · rw [Bool.eq_iff_iff, outsideDisk_iff, outsideDisk_iff, outside_mirror_x h y hx]
  · rw [Bool.eq_iff_iff, outsideDisk_iff, outsideDisk_iff, outside_mirror_y w x hy]
  · rw [← Bool.not_eq_true, outsideDisk_iff]
    exact not_outside_centre hw
  · have hsmall : ∀ w < 4, ∀ x < w, ∀ y < w, outsideDisk w w x y = false := by decide
    exact fun w x y hw hx hy => hsmall w (by omega) x hx y hy

end Sys2Proof.Machine
end

section
/-!
PROOFS. PACK (43_packer.md R140 to R147). The reversed scan meets the raster indices of the image in falling order, and
the rotation by 180 degrees mirrors a raster index, so nibble k comes from pixel k or from the pixel k places before the
last. An integer colour has one nearest position, and its code is that of the pixel.
-/

namespace Sys2Proof.Machine

open Sys2Proof.Spec

/-! ### The code of a pixel -/

/-- No two positions are both the lowest one of least distance (40_palette.md R101). -/
theorem isNearest_unique {p : Palette} {c : Rgb} {i j : Fin 6} (hi : IsNearest p c i) (hj : IsNearest p c j) :
    i = j := by
  rcases lt_trichotomy i j with hlt | heq | hgt
  · exact absurd ((hj i).2 hlt) (hi j).1.not_gt
  · exact heq
  · exact absurd ((hi j).2 hgt) (hj i).1.not_gt

/-- `PixCode` of a written pixel (43_packer.md R144). -/
theorem pixelCode_of_isNearest {p : Palette} {m : Memory} {n : Nat} {c : Rgb} {i : Fin 6} (hpix : PixelIs m n c)
    (hi : IsNearest p c i) : pixelCode p m n = .ok (codeAt i) := by
  obtain ⟨k, hk⟩ := nearest_bytes p c
  simp only [pixelCode, (readPixel_ok m n c).mpr hpix, hk, isNearest_unique (isNearest_of_nearest hk) hi]

/-! ### The scan -/

/-- The reversed scan is raster order read backwards (43_packer.md R142). -/
theorem reversedScan_eq_reverse (w h : Nat) : reversedScan w h = (rasterOrder w h).reverse := by
  rw [reversedScan, rasterOrder, List.reverse_flatMap]
  simp only [Function.comp_def, List.map_reverse]

/-- Visit k of the reversed scan is at the position k places before the last in raster order (43_packer.md R142). -/
theorem reversedScan_eq_map (w h : Nat) :
    reversedScan w h = (List.range (w * h)).map fun k => rasterPos w (w * h - 1 - k) := by
  rw [reversedScan_eq_reverse, rasterOrder_eq_map, ← List.map_reverse, List.range_eq_range', List.reverse_range',
    List.map_map, Nat.mul_comm h w, Nat.zero_add]
  rfl

/-- The rotation by 180 degrees mirrors the raster index (43_packer.md R146). -/
theorem rotated_index {w h x y : Nat} (hx : x < w) (hy : y < h) :
    (h - 1 - y) * w + (w - 1 - x) = w * h - 1 - (y * w + x) := by
  obtain ⟨d, rfl⟩ := Nat.exists_eq_add_of_lt hy
  have hsize : w * (y + d + 1) = d * w + y * w + w := by ring
  have hrow : y + d + 1 - 1 - y = d := by omega
  rw [hrow, hsize]
  omega

/-- The source pixel of the output position with raster index `n` (43_packer.md R141). -/
theorem scanCode_rasterPos (p : Palette) (m : Memory) {w h n : Nat} (rot : Bool) (hn : n < w * h) :
    scanCode p m w h rot (rasterPos w n) = pixelCode p m (if rot then w * h - 1 - n else n) := by
  obtain ⟨x, y, hx, hy, rfl⟩ := exists_position hn
  rw [rasterPos_index hx]
  cases rot
  · rfl
  · exact congrArg (pixelCode p m) (rotated_index hx hy)

/-- Visit k of the scan emits nibble k of the closed form (43_packer.md R146). -/
theorem scanCode_eq_packedNibble {p : Palette} {m : Memory} {w h k : Nat} (rot : Bool) {code : Nat → Nibble}
    (hcode : ∀ n, n < w * h → pixelCode p m n = .ok (code n)) (hk : k < w * h) :
    scanCode p m w h rot (rasterPos w (w * h - 1 - k)) = .ok (packedNibble (w * h) rot code k) := by
  have hmirror : w * h - 1 - k < w * h := Nat.sub_one_sub_lt_of_lt hk
  rw [scanCode_rasterPos p m rot hmirror, packedNibble, if_pos hk]
  cases rot
  · exact hcode _ hmirror
  · have hback : w * h - 1 - (w * h - 1 - k) = k := by omega
    rw [if_pos rfl, if_pos rfl, hback]
    exact hcode k hk

/-- The nibbles of the whole scan. -/
theorem collect_scanCode {p : Palette} {m : Memory} {w h : Nat} (rot : Bool) {code : Nat → Nibble}
    (hcode : ∀ n, n < w * h → pixelCode p m n = .ok (code n)) :
    collect (scanCode p m w h rot) (reversedScan w h) =
      .ok ((List.range (w * h)).map (packedNibble (w * h) rot code)) := by
  rw [reversedScan_eq_map, collect_ok, List.map_map, List.map_map]
  exact List.map_congr_left fun k hk => scanCode_eq_packedNibble rot hcode (List.mem_range.mp hk)

/-! ### The bytes -/

/-- Byte j holds nibbles 2j and 2j+1, a missing last nibble being 0 (43_packer.md R145). -/
theorem getElem?_packNibbles (ns : List Nibble) {j : Nat} (hj : 2 * j < ns.length) :
    (packNibbles ns)[j]? = some (ns.getD (2 * j) 0 ++ ns.getD (2 * j + 1) 0) := by
  induction ns using packNibbles.induct generalizing j with
  | case1 => cases hj
  | case2 a =>
    obtain rfl : j = 0 := by rw [List.length_singleton] at hj; omega
    rfl
  | case3 a b rest ih =>
    cases j with
    | zero => rfl
    | succ j => exact ih (by simp only [List.length_cons] at hj; omega)

/-- The closed form is 0 past the last pixel, as the padding is (43_packer.md R145, R146). -/
theorem getD_packedNibbles (count : Nat) (rot : Bool) (code : Nat → Nibble) (k : Nat) :
    ((List.range count).map (packedNibble count rot code)).getD k 0 = packedNibble count rot code k := by
  rw [List.getD_eq_getElem?_getD, List.getElem?_map]
  rcases Nat.lt_or_ge k count with hk | hk
  · rw [List.getElem?_range hk]
    rfl
  · rw [List.getElem?_eq_none (by simpa using hk), packedNibble, if_neg hk.not_gt]
    rfl

/-- What the bitstream written from address 0 leaves at every address (43_packer.md R143, R146, R147). -/
theorem get_writeBytes_packNibbles (m : Memory) (count : Nat) (rot : Bool) (code : Nat → Nibble) (j : Nat) :
    (writeBytes m 0 (packNibbles ((List.range count).map (packedNibble count rot code)))).get j =
      if j < (count + 1) / 2 then
        some (packedNibble count rot code (2 * j) ++ packedNibble count rot code (2 * j + 1))
      else m.get j := by
  rw [get_writeBytes, packNibbles_length, List.length_map, List.length_range, Nat.zero_add, Nat.sub_zero]
  simp only [Nat.zero_le, true_and]
  split_ifs with hj
  · rw [getElem?_packNibbles _ (by rw [List.length_map, List.length_range]; omega), getD_packedNibbles,
      getD_packedNibbles]
  · rfl

/-! ### PACK -/

/-- PACK of an image whose pixels all have a code. -/
theorem exec_pack_of_codes {s : State} {code : Nat → Nibble} (hd : LegalDims s)
    (hcode : ∀ n, n < pixelCount s → pixelCode s.params.palette s.pix n = .ok (code n)) :
    exec .pack s = .next { s with
      pk := writeBytes s.pk 0
        (packNibbles ((List.range (pixelCount s)).map (packedNibble (pixelCount s) s.rot180 code)))
      regs := { s.regs with pkLen := BitVec.ofNat 32 ((pixelCount s + 1) / 2), status := 0x00000002#32 } } := by
  rw [exec_pack, packBody, (badDimensions_eq_false_iff s).mpr hd, if_neg Bool.false_ne_true, packImage_eq_map,
    collect_scanCode s.rot180 hcode]
  rfl

/-- Settles O39: the scan emits the closed form's nibbles, two of them make a byte, and the body of PACK past its check
writes only those bytes and PK_LEN. -/
theorem packClosedForm : Obligations.PackClosedForm := by
  intro s px pos hd hpix hpos
  exact ⟨_, exec_pack_of_codes hd fun n hn => pixelCode_of_isNearest (hpix n hn) (hpos n hn),
    get_writeBytes_packNibbles s.pk (pixelCount s) s.rot180 _⟩

end Sys2Proof.Machine
end

section
/-!
PROOFS. The run-length codec (44_rle.md). The greedy loop keeps the nibbles it has met, closes a run at another value or at
255, and opens every run with one nibble: what is said of the encoding follows from that. RLE_DEC's checks come in R154's
order, and each needs only the bytes read up to it. A well-formed stream meets them all, and the encoding is one.
-/

namespace Sys2Proof.Machine

open Sys2Proof.Spec

/-! ### The greedy loop -/

theorem expandRuns_cons (r : RunRecord) (rs : List RunRecord) :
    expandRuns (r :: rs) = List.replicate r.run r.val ++ expandRuns rs := rfl

/-- The loop keeps the nibbles: those of the open run, then those still to come (44_rle.md R150, R151). -/
theorem expandRuns_runsFrom (v : Nibble) (r : Nat) (ns : List Nibble) :
    expandRuns (runsFrom v r ns) = List.replicate r v ++ ns := by
  induction ns generalizing v r with
  | nil => rfl
  | cons x xs ih =>
    rw [runsFrom]
    split_ifs with h
    · obtain ⟨rfl, -⟩ := h
      rw [ih, List.replicate_succ', List.append_assoc, List.singleton_append]
    · rw [expandRuns_cons, ih]
      rfl

theorem expandRuns_runsOf (ns : List Nibble) : expandRuns (runsOf ns) = ns := by
  cases ns with
  | nil => rfl
  | cons x xs => exact expandRuns_runsFrom x 1 xs

theorem runsFrom_run_bounds (v : Nibble) {r : Nat} (ns : List Nibble) (hr : 1 ≤ r ∧ r ≤ 255) :
    ∀ q ∈ runsFrom v r ns, 1 ≤ q.run ∧ q.run ≤ 255 := by
  induction ns generalizing v r with
  | nil => simpa [runsFrom] using hr
  | cons x xs ih =>
    rw [runsFrom]
    split_ifs with h
    · exact ih v ⟨by omega, h.2⟩
    · exact List.forall_mem_cons.mpr ⟨hr, ih x (by decide)⟩

theorem runsOf_run_bounds (ns : List Nibble) : ∀ q ∈ runsOf ns, 1 ≤ q.run ∧ q.run ≤ 255 := by
  cases ns with
  | nil => exact List.forall_mem_nil _
  | cons x xs => exact runsFrom_run_bounds x xs (by decide)

/-- The first record has the value of the run that is open. -/
theorem runsFrom_head?_val (v : Nibble) (r : Nat) (ns : List Nibble) : ∀ q ∈ (runsFrom v r ns).head?, q.val = v := by
  induction ns generalizing r with
  | nil => simp [runsFrom]
  | cons x xs ih =>
    rw [runsFrom]
    split_ifs
    · exact ih (r + 1)
    · simp

/-- Two adjacent records may have the same value only where the first is full (44_rle.md R151). -/
def GreedyPair (a b : RunRecord) : Prop := a.val = b.val → a.run = 255

theorem runsFrom_greedy (v : Nibble) {r : Nat} (ns : List Nibble) (hr : r ≤ 255) :
    (runsFrom v r ns).IsChain GreedyPair := by
  induction ns generalizing v r with
  | nil => exact .singleton _
  | cons x xs ih =>
    rw [runsFrom]
    split_ifs with h
    · exact ih v h.2
    · refine List.isChain_cons.mpr ⟨fun q hq hval => ?_, ih x (by decide)⟩
      have hx : x = v := (runsFrom_head?_val x 1 xs q hq).symm.trans hval.symm
      exact le_antisymm hr (not_lt.mp fun hlt => h ⟨hx, hlt⟩)

theorem runsOf_greedy (ns : List Nibble) : (runsOf ns).IsChain GreedyPair := by
  cases ns with
  | nil => exact .nil
  | cons x xs => exact runsFrom_greedy x xs (by decide)

/-! ### The encoding -/

/-- Byte `i` of a count, in the number itself (20_memory.md R61). -/
theorem extractLsb'_byte_ofNat (n : Nat) {i : Nat} (hi : i < 4) :
    (BitVec.ofNat 32 n).extractLsb' (8 * i) 8 = BitVec.ofNat 8 (n / 256 ^ i) := by
  apply BitVec.eq_of_toNat_eq
  rw [BitVec.extractLsb'_toNat, BitVec.toNat_ofNat, BitVec.toNat_ofNat, Nat.shiftRight_eq_div_pow]
  interval_cases i <;> omega

theorem leBytes_four_ofNat (n : Nat) : leBytes 4 (BitVec.ofNat 32 n) =
    [BitVec.ofNat 8 n, BitVec.ofNat 8 (n / 256), BitVec.ofNat 8 (n / 65536), BitVec.ofNat 8 (n / 16777216)] :=
  calc leBytes 4 (BitVec.ofNat 32 n)
      = (List.range 4).map fun i => BitVec.ofNat 8 (n / 256 ^ i) :=
        List.map_congr_left fun _ hi => extractLsb'_byte_ofNat n (List.mem_range.mp hi)
    _ = _ := by simp [List.range_succ]

/-- Settles O41: the records are those of the greedy loop. -/
theorem rleEncodingIsGreedy : Obligations.RleEncodingIsGreedy := by
  intro bs
  refine ⟨runsOf (nibblesOf bs), ?_, runsOf_run_bounds _, expandRuns_runsOf _, fun i a b ha hb => ?_⟩
  · rw [← leBytes_four_ofNat]
    rfl
  · obtain ⟨hi, rfl⟩ := List.getElem?_eq_some_iff.mp ha
    obtain ⟨hi', rfl⟩ := List.getElem?_eq_some_iff.mp hb
    exact List.isChain_iff_getElem.mp (runsOf_greedy (nibblesOf bs)) i hi'

/-- No record stands for more than 255 nibbles. -/
theorem nibbles_le_records (bs : List Byte) : 2 * bs.length ≤ 255 * (runsOf (nibblesOf bs)).length := by
  have hsum : ((runsOf (nibblesOf bs)).map RunRecord.run).sum = 2 * bs.length := by
    rw [← expandRuns_length, expandRuns_runsOf, nibblesOf_length]
  have hle := List.sum_le_card_nsmul ((runsOf (nibblesOf bs)).map RunRecord.run) 255
    (List.forall_mem_map.mpr fun q hq => (runsOf_run_bounds _ q hq).2)
  rw [hsum, List.length_map, smul_eq_mul] at hle
  omega

/-- Settles O42: a record stands for one nibble at least and for 255 at most. -/
theorem rleEncodingLengthBounds : Obligations.RleEncodingLengthBounds := by
  intro bs
  refine ⟨fun h => by subst h; rfl, fun _ => ⟨?_, rleEncode_fits bs⟩⟩
  have := nibbles_le_records bs
  rw [rleEncode_length]
  omega

/-! ### RLE_ENC -/

theorem get_writeBytes_from_zero (m : Memory) (bs : List Byte) (a : Nat) :
    (writeBytes m 0 bs).get a = if a < bs.length then bs[a]? else m.get a := by
  simp [get_writeBytes]

theorem exec_rleEnc_of_written {s : State} {bs : List Byte} (hlen : bs.length = s.regs.pkLen.toNat)
    (hcap : bs.length ≤ s.params.pkCap) (hpk : ∀ i, i < bs.length → s.pk.get i = bs[i]?) :
    exec .rleEnc s = .next { s with
      rl := writeBytes s.rl 0 (rleEncode bs)
      regs := { s.regs with rlLen := lengthWord (rleEncode bs).length, status := 0x00000002#32 } } := by
  have hread : readBytes s.pk 0 s.regs.pkLen.toNat = .ok bs :=
    (readBytes_ok _ _ _ _).mpr ⟨hlen, fun i hi => by rw [Nat.zero_add, hpk i (hlen ▸ hi)]⟩
  rw [exec_rleEnc, rleEncBody, encodePacked_eq_map, Regs.read_pkLen, if_neg (by omega), hread]
  rfl

/-- Settles O40: every byte RLE_ENC reads is written, and it writes the encoding from address 0. -/
theorem rleEncResult : Obligations.RleEncResult := by
  intro s bs hlen hcap hpk
  refine ⟨_, _, exec_rleEnc_of_written hlen hcap hpk, fun hfit => if_pos hfit, fun a => ?_⟩
  exact get_writeBytes_from_zero s.rl (rleEncode bs) a

/-! ### The checks of RLE_DEC -/

theorem exec_rleDec_of_error {s : State} {e : ErrCode}
    (h : decodeStream s.params s.rl s.regs.rlLen.toNat = raise e) : exec .rleDec s = .next (s.finish e) := by
  rw [exec_rleDec, rleDecBody_eq_map, Regs.read_rlLen, h]
  rfl

/-- Settles O43: each length check comes before the first read. -/
theorem rleLengthChecks : Obligations.RleLengthChecks := by
  refine fun s => ⟨fun h => ?_, fun h => ?_, fun h => ?_⟩
  · rw [exec_rleEnc, rleEncBody, Regs.read_pkLen, if_pos h, complete_raise]
    rfl
  · exact exec_rleDec_of_error (e := .capacity) (if_pos h)
  · refine exec_rleDec_of_error (e := .rleBadLength) ?_
    have : s.regs.rlLen.toNat ≤ s.params.rlCap := by rw [Params.rlCap]; omega
    rw [decodeStream, if_neg (by omega), if_pos h]

/-- Four written bytes, read at once. -/
theorem readBytes_four {m : Memory} {a : Nat} {b0 b1 b2 b3 : Byte} (h0 : m.get a = some b0)
    (h1 : m.get (a + 1) = some b1) (h2 : m.get (a + 2) = some b2) (h3 : m.get (a + 3) = some b3) :
    readBytes m a 4 = .ok [b0, b1, b2, b3] := by
  refine (readBytes_ok _ _ _ _).mpr ⟨rfl, fun i hi => ?_⟩
  interval_cases i
  exacts [h0, h1, h2, h3]

theorem decodeStream_of_bad_magic {p : Params} {rl : Memory} {n : Nat} {magic : List Byte} (h8 : 8 ≤ n)
    (hn : n ≤ p.rlCap) (hread : readBytes rl 0 4 = .ok magic) (hbad : magic ≠ rleMagic) :
    decodeStream p rl n = raise .rleBadMagic := by
  rw [decodeStream, if_neg (by omega), if_neg (by omega), hread]
  exact if_pos hbad

theorem readBytes_of_hasMagic {rl : Memory} (h : HasMagic rl) : readBytes rl 0 4 = .ok rleMagic := by
  obtain ⟨h0, h1, h2, h3⟩ := h
  exact readBytes_four h0 h1 h2 h3

theorem readBytes_of_hasCount {rl : Memory} {count : Nat} (h : HasCount rl count) :
    ∃ cb, readBytes rl 4 4 = .ok cb ∧ leNat cb = count := by
  obtain ⟨b4, b5, b6, b7, h4, h5, h6, h7, rfl⟩ := h
  refine ⟨_, readBytes_four h4 h5 h6 h7, ?_⟩
  simp only [leNat]
  omega

/-- The record that a run byte and a value byte make (44_rle.md R154). -/
def recordOf (q : Byte × Byte) : RunRecord := ⟨q.1.toNat, q.2.extractLsb' 0 4⟩

theorem recordWf_iff (q : Byte × Byte) : recordWf q.1 q.2 = true ↔ GoodRecord q := by
  simp [recordWf, GoodRecord]

theorem readRecord_good {rl : Memory} {j : Nat} {q : Byte × Byte} (hq : RecordIs rl j q) (hgood : GoodRecord q) :
    readRecord rl j = .ok (recordOf q) := by
  rw [readRecord_written rl j q.1 q.2 hq.1 hq.2, if_pos ((recordWf_iff q).mpr hgood)]
  rfl

theorem readRecord_bad {rl : Memory} {j : Nat} {q : Byte × Byte} (hq : RecordIs rl j q) (hbad : ¬ GoodRecord q) :
    readRecord rl j = raise .rleBadRecord := by
  rw [readRecord_written rl j q.1 q.2 hq.1 hq.2, if_neg (mt (recordWf_iff q).mp hbad)]

theorem collect_readRecord {rl : Memory} {n : Nat} {q : Nat → Byte × Byte} (h : RecordsBefore rl n q) :
    collect (readRecord rl) (List.range n) = .ok (((List.range n).map q).map recordOf) := by
  rw [List.map_map]
  refine collect_of_forall _ _ _ fun i hi => ?_
  obtain ⟨hq, hgood⟩ := h i (List.mem_range.mp hi)
  exact readRecord_good hq hgood

theorem sum_map_run_recordOf (qs : List (Byte × Byte)) : ((qs.map recordOf).map RunRecord.run).sum = runSum qs := by
  rw [List.map_map]
  rfl

theorem expandRuns_map_recordOf (qs : List (Byte × Byte)) : expandRuns (qs.map recordOf) = pairNibbles qs := by
  rw [expandRuns, List.flatMap_map]
  rfl

section Header

variable {p : Params} {rl : Memory} {n count : Nat} (h8 : 8 ≤ n) (hn : n ≤ p.rlCap) (hm : HasMagic rl)
  (hc : HasCount rl count)
include h8 hn hm hc

theorem decodeStream_of_large_count (hcount : p.pkCap < count) : decodeStream p rl n = raise .capacity := by
  obtain ⟨cb, hcb, rfl⟩ := readBytes_of_hasCount hc
  rw [decodeStream_after_count p rl n cb h8 hn (readBytes_of_hasMagic hm) hcb, if_pos hcount]

theorem decodeStream_of_odd_body (hcount : count ≤ p.pkCap) (hodd : n % 2 = 1) :
    decodeStream p rl n = raise .rleBadLength := by
  obtain ⟨cb, hcb, rfl⟩ := readBytes_of_hasCount hc
  rw [decodeStream_after_count p rl n cb h8 hn (readBytes_of_hasMagic hm) hcb, if_neg (by omega), if_pos (by omega)]

theorem decodeStream_of_bad_record {j : Nat} {q : Nat → Byte × Byte} (hcount : count ≤ p.pkCap) (heven : n % 2 = 0)
    (hj : 8 + 2 * j < n) (hbefore : RecordsBefore rl j q) (hq : RecordIs rl j (q j)) (hbad : ¬ GoodRecord (q j)) :
    decodeStream p rl n = raise .rleBadRecord := by
  obtain ⟨cb, hcb, rfl⟩ := readBytes_of_hasCount hc
  have hrecords : collect (readRecord rl) (List.range ((n - 8) / 2)) = raise .rleBadRecord :=
    collect_range_error _ _ j _ (by omega) (fun i hi => ⟨_, readRecord_good (hbefore i hi).1 (hbefore i hi).2⟩)
      (readRecord_bad hq hbad)
  rw [decodeStream_after_count p rl n cb h8 hn (readBytes_of_hasMagic hm) hcb, if_neg (by omega), if_neg (by omega),
    hrecords]
  rfl

/-- Where every record is accepted, the run sum alone decides (44_rle.md R154). -/
theorem decodeStream_of_records {q : Nat → Byte × Byte} (hcount : count ≤ p.pkCap) (heven : n % 2 = 0)
    (hrs : RecordsBefore rl ((n - 8) / 2) q) :
    decodeStream p rl n =
      if runSum ((List.range ((n - 8) / 2)).map q) ≠ 2 * count then raise .rleBadLength
      else .ok (count, ((List.range ((n - 8) / 2)).map q).map recordOf) := by
  obtain ⟨cb, hcb, rfl⟩ := readBytes_of_hasCount hc
  rw [decodeStream_after_count p rl n cb h8 hn (readBytes_of_hasMagic hm) hcb, if_neg (by omega), if_neg (by omega),
    collect_readRecord hrs, ← sum_map_run_recordOf]

end Header

/-- Settles O44: each clause is the check of its name, the checks before it being met. -/
theorem rleDecReportsTheFirstError : Obligations.RleDecReportsTheFirstError := by
  intro s h8 hcap
  refine ⟨fun m0 m1 m2 m3 h0 h1 h2 h3 hbad => ?_, fun count hm hc => ⟨fun hlarge => ?_, fun hcount =>
    ⟨fun hodd => ?_, fun heven q => ⟨fun j hj hbefore hq hbad => ?_, fun hrs hsum => ?_⟩⟩⟩⟩
  · exact exec_rleDec_of_error (decodeStream_of_bad_magic h8 hcap (readBytes_four h0 h1 h2 h3) hbad)
  · exact exec_rleDec_of_error (decodeStream_of_large_count h8 hcap hm hc hlarge)
  · exact exec_rleDec_of_error (decodeStream_of_odd_body h8 hcap hm hc hcount hodd)
  · exact exec_rleDec_of_error (decodeStream_of_bad_record h8 hcap hm hc hcount heven hj hbefore hq hbad)
  · exact exec_rleDec_of_error ((decodeStream_of_records h8 hcap hm hc hcount heven hrs).trans (if_pos hsum))

/-! ### RLE_DEC of a well-formed stream -/

/-- Every check of RLE_DEC passes, in the terms of `streamStatus` (44_rle.md R154). -/
structure WellFormedStream (pkCap : Nat) (bs : List Byte) : Prop where
  magic : bs.take 4 = [0x53#8, 0x50#8, 0x36#8, 0x52#8]
  count : headerCount bs ≤ pkCap
  even : bs.length % 2 = 0
  records : ∀ q ∈ recordPairs (bs.drop 8), GoodRecord q
  runs : runSum (recordPairs (bs.drop 8)) = 2 * headerCount bs

theorem any_bad_eq_false_iff (qs : List (Byte × Byte)) :
    qs.any (fun r => r.1 == 0#8 || decide (r.2.toNat > 0x0F)) = false ↔ ∀ q ∈ qs, GoodRecord q := by
  simp [GoodRecord]

theorem streamStatus_ok_iff (pkCap : Nat) (bs : List Byte) :
    streamStatus pkCap bs = 0x02#32 ↔ WellFormedStream pkCap bs := by
  unfold streamStatus
  split_ifs with h1 h2 h3 h4 h5
  · exact iff_of_false (by decide) fun h => h1 h.magic
  · exact iff_of_false (by decide) fun h => h2.not_ge h.count
  · exact iff_of_false (by decide) fun h => by have := h.even; omega
  · exact iff_of_false (by decide) fun h => by rw [(any_bad_eq_false_iff _).mpr h.records] at h4; cases h4
  · exact iff_of_false (by decide) fun h => h5 h.runs
  · exact iff_of_true rfl ⟨not_not.mp h1, not_lt.mp h2, by omega,
      (any_bad_eq_false_iff _).mp (Bool.eq_false_of_not_eq_true h4), not_not.mp h5⟩

/-- Record `j` of a stream: its bytes 8 + 2j and 9 + 2j (30_encoding.md R93). -/
def streamRecord (bs : List Byte) (j : Nat) : Byte × Byte := (bs.getD (8 + 2 * j) 0, bs.getD (9 + 2 * j) 0)

theorem recordPairs_eq_map (bs : List Byte) :
    recordPairs bs = (List.range (bs.length / 2)).map fun j => (bs.getD (2 * j) 0, bs.getD (2 * j + 1) 0) := by
  induction bs using recordPairs.induct with
  | case1 run val rest ih =>
    have hlen : (run :: val :: rest).length / 2 = rest.length / 2 + 1 := by simp only [List.length_cons]; omega
    rw [recordPairs, ih, hlen, List.range_succ_eq_map, List.map_cons, List.map_map]
    rfl
  | case2 bs h =>
    match bs, h with
    | [], _ => rfl
    | [_], _ => simp [recordPairs]
    | run :: val :: rest, h => exact absurd rfl (h run val rest)

theorem recordPairs_drop_eight (bs : List Byte) :
    recordPairs (bs.drop 8) = (List.range ((bs.length - 8) / 2)).map (streamRecord bs) := by
  rw [recordPairs_eq_map, List.length_drop]
  refine List.map_congr_left fun j _ => ?_
  have hbyte : ∀ i, (bs.drop 8).getD i 0 = bs.getD (8 + i) 0 := fun i => by
    rw [List.getD_eq_getElem?_getD, List.getElem?_drop, List.getD_eq_getElem?_getD]
  rw [hbyte, hbyte, streamRecord, show 8 + (2 * j + 1) = 9 + 2 * j by omega]

section Stream

variable {rl : Memory} {bs : List Byte} (hrl : ∀ i, i < bs.length → rl.get i = bs[i]?)
include hrl

theorem get_of_stream {i : Nat} (hi : i < bs.length) : rl.get i = some (bs.getD i 0) := by
  rw [hrl i hi, List.getD_eq_getElem?_getD, List.getElem?_eq_getElem hi]
  rfl

theorem hasMagic_of_stream (h4 : 4 ≤ bs.length) (hmagic : bs.take 4 = [0x53#8, 0x50#8, 0x36#8, 0x52#8]) :
    HasMagic rl := by
  have hbyte : ∀ i, i < 4 → rl.get i = [0x53#8, 0x50#8, 0x36#8, 0x52#8][i]? := fun i hi => by
    rw [hrl i (by omega), ← hmagic, List.getElem?_take_of_lt hi]
  exact ⟨hbyte 0 (by decide), hbyte 1 (by decide), hbyte 2 (by decide), hbyte 3 (by decide)⟩

theorem hasCount_of_stream (h8 : 8 ≤ bs.length) : HasCount rl (headerCount bs) :=
  ⟨_, _, _, _, get_of_stream hrl (by omega), get_of_stream hrl (by omega), get_of_stream hrl (by omega),
    get_of_stream hrl (by omega), rfl⟩

theorem recordsBefore_of_stream (hgood : ∀ q ∈ recordPairs (bs.drop 8), GoodRecord q) :
    RecordsBefore rl ((bs.length - 8) / 2) (streamRecord bs) := by
  intro j hj
  refine ⟨⟨get_of_stream hrl (by omega), get_of_stream hrl (by omega)⟩, hgood _ ?_⟩
  rw [recordPairs_drop_eight]
  exact List.mem_map_of_mem (List.mem_range.mpr hj)

theorem decodeStream_of_wellFormed {p : Params} (h8 : 8 ≤ bs.length) (hcap : bs.length ≤ p.rlCap)
    (hwf : WellFormedStream p.pkCap bs) :
    decodeStream p rl bs.length = .ok (headerCount bs, (recordPairs (bs.drop 8)).map recordOf) := by
  rw [decodeStream_of_records h8 hcap (hasMagic_of_stream hrl (by omega) hwf.magic) (hasCount_of_stream hrl h8) hwf.count
    hwf.even (recordsBefore_of_stream hrl hwf.records), ← recordPairs_drop_eight, if_neg (not_not_intro hwf.runs)]

end Stream

theorem exec_rleDec_of_wellFormed {s : State} {bs : List Byte} (hlen : bs.length = s.regs.rlLen.toNat)
    (h8 : 8 ≤ bs.length) (hcap : bs.length ≤ s.params.rlCap) (hrl : ∀ i, i < bs.length → s.rl.get i = bs[i]?)
    (hwf : WellFormedStream s.params.pkCap bs) :
    exec .rleDec s = .next { s with
      pk := writeBytes s.pk 0 (packNibbles (pairNibbles (recordPairs (bs.drop 8))))
      regs := { s.regs with pkLen := BitVec.ofNat 32 (headerCount bs), status := 0x00000002#32 } } := by
  rw [exec_rleDec, rleDecBody_eq_map, Regs.read_rlLen, ← hlen, decodeStream_of_wellFormed hrl h8 hcap hwf,
    ← expandRuns_map_recordOf]
  rfl

theorem pairNibbles_length (qs : List (Byte × Byte)) : (pairNibbles qs).length = runSum qs := by
  rw [← expandRuns_map_recordOf, expandRuns_length, sum_map_run_recordOf]

theorem get_writeBytes_packNibbles_even (m : Memory) {ns : List Nibble} {count : Nat} (hns : ns.length = 2 * count)
    (a : Nat) : (writeBytes m 0 (packNibbles ns)).get a =
      if a < count then some (ns.getD (2 * a) 0 ++ ns.getD (2 * a + 1) 0) else m.get a := by
  have hlen : (packNibbles ns).length = count := by rw [packNibbles_length]; omega
  rw [get_writeBytes_from_zero, hlen]
  split_ifs with ha
  · exact getElem?_packNibbles ns (by omega)
  · rfl

/-- Settles O45: a well-formed stream passes every check, and its runs make two nibbles for every byte of the count. -/
theorem rleDecResult : Obligations.RleDecResult := by
  intro s bs hlen h8 hcap hrl hstatus
  have hwf := (streamStatus_ok_iff _ _).mp hstatus
  exact ⟨_, exec_rleDec_of_wellFormed hlen h8 hcap hrl hwf,
    get_writeBytes_packNibbles_even s.pk ((pairNibbles_length _).trans hwf.runs)⟩

/-! ### The encoding is a well-formed stream -/

theorem recordPairs_flatMap_bytes (rs : List RunRecord) :
    recordPairs (rs.flatMap RunRecord.bytes) = rs.map fun r => (BitVec.ofNat 8 r.run, 0#4 ++ r.val) := by
  induction rs with
  | nil => rfl
  | cons r rs ih => exact congrArg (_ :: ·) ih

theorem recordOf_bytes {r : RunRecord} (hr : r.run ≤ 255) : recordOf (BitVec.ofNat 8 r.run, 0#4 ++ r.val) = r := by
  have hrun : (BitVec.ofNat 8 r.run).toNat = r.run := by rw [BitVec.toNat_ofNat]; omega
  have hval : (0#4 ++ r.val).extractLsb' 0 4 = r.val := BitVec.extractLsb'_append_eq_right
  rw [recordOf, hrun, hval]

theorem goodRecord_bytes {r : RunRecord} (hr : 1 ≤ r.run ∧ r.run ≤ 255) :
    GoodRecord (BitVec.ofNat 8 r.run, 0#4 ++ r.val) := by
  constructor
  · intro hzero
    have hnat := congrArg BitVec.toNat hzero
    rw [BitVec.toNat_ofNat, BitVec.toNat_ofNat] at hnat
    omega
  · change (0#4 ++ r.val).toNat ≤ 15
    rw [BitVec.toNat_append, BitVec.toNat_ofNat, Nat.zero_mod, Nat.zero_shiftLeft, Nat.zero_or]
    exact Nat.le_of_lt_succ r.val.isLt

theorem rleEncode_drop_eight (bs : List Byte) :
    (rleEncode bs).drop 8 = (runsOf (nibblesOf bs)).flatMap RunRecord.bytes :=
  List.drop_left' (by simp [rleMagic])

theorem headerCount_rleEncode {bs : List Byte} (h : bs.length < 4294967296) : headerCount (rleEncode bs) = bs.length := by
  rw [rleEncode, leBytes_four_ofNat]
  change (BitVec.ofNat 8 _).toNat + 256 * (BitVec.ofNat 8 _).toNat + 65536 * (BitVec.ofNat 8 _).toNat +
    16777216 * (BitVec.ofNat 8 _).toNat = _
  simp only [BitVec.toNat_ofNat]
  omega

theorem pairNibbles_rleEncode (bs : List Byte) : pairNibbles (recordPairs ((rleEncode bs).drop 8)) = nibblesOf bs := by
  have hrecords : (recordPairs ((rleEncode bs).drop 8)).map recordOf = runsOf (nibblesOf bs) := by
    rw [rleEncode_drop_eight, recordPairs_flatMap_bytes, List.map_map]
    exact (List.map_congr_left fun r hr => recordOf_bytes (runsOf_run_bounds _ r hr).2).trans (List.map_id _)
  rw [← expandRuns_map_recordOf, hrecords, expandRuns_runsOf]

theorem wellFormedStream_rleEncode {pkCap : Nat} {bs : List Byte} (hcap : bs.length ≤ pkCap)
    (h : bs.length < 4294967296) : WellFormedStream pkCap (rleEncode bs) where
  magic := rfl
  count := by rwa [headerCount_rleEncode h]
  even := by rw [rleEncode_length]; omega
  records := by
    rw [rleEncode_drop_eight, recordPairs_flatMap_bytes]
    exact List.forall_mem_map.mpr fun r hr => goodRecord_bytes (runsOf_run_bounds _ r hr)
  runs := by rw [← pairNibbles_length, pairNibbles_rleEncode, nibblesOf_length, headerCount_rleEncode h]

theorem packNibbles_nibblesOf (bs : List Byte) : packNibbles (nibblesOf bs) = bs := by
  induction bs with
  | nil => rfl
  | cons b bs ih =>
    have hb : b.extractLsb' 4 4 ++ b.extractLsb' 0 4 = b := BitVec.extractLsb'_append_extractLsb'
    calc packNibbles (nibblesOf (b :: bs)) = (b.extractLsb' 4 4 ++ b.extractLsb' 0 4) :: packNibbles (nibblesOf bs) := rfl
      _ = b :: bs := by rw [hb, ih]

/-! ### The round trip -/

theorem lengthWord_toNat {n : Nat} (h : n < 4294967296) : (lengthWord n).toNat = n := by
  rw [lengthWord, if_pos h, BitVec.toNat_ofNat]
  omega

/-- RLE_DEC of an encoding writes back the bytes it is the encoding of (44_rle.md R156). -/
theorem exec_rleDec_of_encoding {s : State} {bs : List Byte} (hlen : (rleEncode bs).length = s.regs.rlLen.toNat)
    (hcap : bs.length ≤ s.params.pkCap) (hcount : bs.length < 4294967296)
    (hrl : ∀ i, i < (rleEncode bs).length → s.rl.get i = (rleEncode bs)[i]?) :
    exec .rleDec s = .next { s with
      pk := writeBytes s.pk 0 bs
      regs := { s.regs with pkLen := BitVec.ofNat 32 bs.length, status := 0x00000002#32 } } := by
  have h8 : 8 ≤ (rleEncode bs).length := by rw [rleEncode_length]; omega
  have hfits : (rleEncode bs).length ≤ s.params.rlCap := by
    have := rleEncode_fits bs
    rw [Params.rlCap]
    omega
  rw [exec_rleDec_of_wellFormed hlen h8 hfits hrl (wellFormedStream_rleEncode hcap hcount), pairNibbles_rleEncode,
    packNibbles_nibblesOf, headerCount_rleEncode hcount]

/-- Settles O46: RLE_ENC leaves the encoding in RL and its length in RL_LEN, and RLE_DEC writes over PK what PK holds. -/
theorem rleRoundTrip : Obligations.RleRoundTrip := by
  intro s bs hlen hcap hpk hfit
  have hcount : bs.length < 4294967296 := hlen ▸ s.regs.pkLen.isLt
  refine ⟨_, _, exec_rleEnc_of_written hlen hcap hpk,
    exec_rleDec_of_encoding (lengthWord_toNat hfit).symm hcap hcount fun i hi => ?_, rfl, ?_, fun a => ?_⟩
  · exact (get_writeBytes_from_zero ..).trans (if_pos hi)
  · change BitVec.ofNat 32 bs.length = s.regs.pkLen
    rw [hlen, BitVec.ofNat_toNat, BitVec.setWidth_eq]
  · refine (get_writeBytes_from_zero ..).trans ?_
    split_ifs with ha
    · exact (hpk a ha).symm
    · rfl

end Sys2Proof.Machine
end

section
/-!
PROOFS. How the parts of a command halt. The bodies of QUANT, PACK and RLE_ENC past their checks raise no error: a halt of
theirs is a model fault, ReadUnwritten or NumericFault (60_exceptions.md R186).
-/

namespace Sys2Proof.Machine

/-- A halt here is a model fault: no error of 60_exceptions.md R180 is raised. -/
structure OnlyFaults {α : Type} (r : Exec α) : Prop where
  ne_error : ∀ e, r ≠ .error (.error e)

/-! ### Operations made of others -/

theorem onlyFaults_ok {α : Type} (a : α) : OnlyFaults (.ok a) := ⟨nofun⟩

theorem onlyFaults_of_error_eq {α : Type} {r : Exec α} {f : Fault} (h : ∀ x, r = .error x → x = .fault f) :
    OnlyFaults r := ⟨fun _ he => nomatch h _ he⟩

theorem OnlyFaults.bind {α β : Type} {r : Exec α} {f : α → Exec β} (hr : OnlyFaults r) (hf : ∀ a, OnlyFaults (f a)) :
    OnlyFaults (r >>= f) := by
  cases r with
  | error x => exact ⟨fun e he => hr.ne_error e (congrArg _ (Except.error.inj he))⟩
  | ok a => exact hf a

theorem OnlyFaults.map {α β : Type} {r : Exec α} (hr : OnlyFaults r) (f : α → β) : OnlyFaults (r.map f) := by
  cases r with
  | error x => exact ⟨fun e he => hr.ne_error e (congrArg _ (Except.error.inj he))⟩
  | ok a => exact onlyFaults_ok (f a)

theorem onlyFaults_collect {α β : Type} {f : α → Exec β} (hf : ∀ a, OnlyFaults (f a)) (as : List α) :
    OnlyFaults (collect f as) := by
  refine ⟨fun e he => ?_⟩
  obtain ⟨a, -, ha⟩ := collect_error f as _ he
  exact (hf a).ne_error e ha

/-! ### Reads and `nearest` -/

theorem onlyFaults_readByte (m : Memory) (a : Nat) : OnlyFaults (readByte m a) :=
  onlyFaults_of_error_eq fun x hx => ((readByte_error m a x).mp hx).2

theorem onlyFaults_readBytes (m : Memory) (a n : Nat) : OnlyFaults (readBytes m a n) :=
  onlyFaults_collect (fun i => onlyFaults_readByte m (a + i)) _

theorem onlyFaults_readPixel (m : Memory) (n : Nat) : OnlyFaults (readPixel m n) :=
  onlyFaults_of_error_eq fun x hx => ((readPixel_error m n x).mp hx).2

theorem onlyFaults_nearest (p : Palette) (c : Rgb64) : OnlyFaults (nearest p c) :=
  onlyFaults_of_error_eq (nearest_error p c)

/-! ### QUANT past its checks -/

theorem adjustedPixel_eq_map (m : Memory) (g : F64) (n : Nat) :
    adjustedPixel m g n = (readPixel m n).map (adjust g) := by
  unfold adjustedPixel
  cases readPixel m n <;> rfl

theorem flatPixel_eq_bind (p : Palette) (m : Memory) (g : F64) (n : Nat) :
    flatPixel p m g n = adjustedPixel m g n >>= fun c => (nearest p c).map (paletteAt p) := by
  unfold flatPixel
  cases adjustedPixel m g n with
  | error x => rfl
  | ok c => dsimp only [bind, Except.bind]; cases nearest p c <;> rfl

theorem onlyFaults_adjustedPixel (m : Memory) (g : F64) (n : Nat) : OnlyFaults (adjustedPixel m g n) := by
  rw [adjustedPixel_eq_map]
  exact (onlyFaults_readPixel m n).map _

theorem onlyFaults_flatPixel (p : Palette) (m : Memory) (g : F64) (n : Nat) : OnlyFaults (flatPixel p m g n) := by
  rw [flatPixel_eq_bind]
  exact (onlyFaults_adjustedPixel m g n).bind fun c => (onlyFaults_nearest p c).map _

theorem onlyFaults_ditherPixel (p : Palette) (w h x y : Nat) (buf : EBuf) : OnlyFaults (ditherPixel p w h x y buf) := by
  cases hbuf : buf[y * w + x]? with
  | none =>
    rw [ditherPixel, hbuf]
    exact ⟨nofun⟩
  | some old =>
    rw [ditherPixel_of_getElem? p hbuf]
    exact (onlyFaults_nearest p old).map _

theorem ditherScan_cons (p : Palette) (w h x y : Nat) (ps : List (Nat × Nat)) (buf : EBuf) :
    ditherScan p w h ((x, y) :: ps) buf = ditherPixel p w h x y buf >>= ditherScan p w h ps := by
  rw [ditherScan]
  cases ditherPixel p w h x y buf <;> rfl

theorem onlyFaults_ditherScan (p : Palette) (w h : Nat) (ps : List (Nat × Nat)) (buf : EBuf) :
    OnlyFaults (ditherScan p w h ps buf) := by
  induction ps generalizing buf with
  | nil => exact onlyFaults_ok buf
  | cons q ps ih =>
    obtain ⟨x, y⟩ := q
    rw [ditherScan_cons]
    exact (onlyFaults_ditherPixel ..).bind ih

theorem onlyFaults_channelByte (v : F64) : OnlyFaults (channelByte v) := by
  unfold channelByte
  cases F64.toU8 (clampChannel v) <;> exact ⟨nofun⟩

theorem writeBackPixel_eq_bind (c : Rgb64) :
    writeBackPixel c =
      channelByte c.r >>= fun r => channelByte c.g >>= fun g => (channelByte c.b).map fun b => ⟨r, g, b⟩ := by
  unfold writeBackPixel
  cases channelByte c.r <;> cases channelByte c.g <;> cases channelByte c.b <;> rfl

theorem onlyFaults_writeBackPixel (c : Rgb64) : OnlyFaults (writeBackPixel c) := by
  rw [writeBackPixel_eq_bind]
  exact (onlyFaults_channelByte c.r).bind fun _ => (onlyFaults_channelByte c.g).bind fun _ =>
    (onlyFaults_channelByte c.b).map _

theorem onlyFaults_quantizedColours (dither : Bool) (p : Palette) (w h : Nat) (g : F64) (m : Memory) :
    OnlyFaults (quantizedColours dither p w h g m) := by
  cases dither
  · exact onlyFaults_collect (onlyFaults_flatPixel p m g) _
  · exact ((onlyFaults_collect (onlyFaults_adjustedPixel m g) _).bind (onlyFaults_ditherScan p w h _)).bind
      (onlyFaults_collect onlyFaults_writeBackPixel)

theorem onlyFaults_quantizeBody (w h : Nat) (g : F64) (s : State) : OnlyFaults (quantizeBody w h g s) := by
  rw [quantizeBody_eq_map]
  exact (onlyFaults_quantizedColours ..).map _

/-! ### PACK and RLE_ENC past their checks -/

theorem pixelCode_eq_bind (p : Palette) (m : Memory) (n : Nat) :
    pixelCode p m n = readPixel m n >>= fun c => (nearest p (colourF64 c)).map codeAt := by
  unfold pixelCode
  cases readPixel m n with
  | error x => rfl
  | ok c => dsimp only [bind, Except.bind]; cases nearest p (colourF64 c) <;> rfl

theorem onlyFaults_pixelCode (p : Palette) (m : Memory) (n : Nat) : OnlyFaults (pixelCode p m n) := by
  rw [pixelCode_eq_bind]
  exact (onlyFaults_readPixel m n).bind fun c => (onlyFaults_nearest p (colourF64 c)).map _

theorem onlyFaults_packImage (w h : Nat) (s : State) : OnlyFaults (packImage w h s) := by
  rw [packImage_eq_map]
  exact (onlyFaults_collect (fun _ => onlyFaults_pixelCode ..) _).map _

theorem onlyFaults_encodePacked (s : State) : OnlyFaults (encodePacked s) := by
  rw [encodePacked_eq_map]
  exact (onlyFaults_readBytes ..).map _

end Sys2Proof.Machine
end

section
/-!
PROOFS. CONVERT (45_convert.md). Past its checks it is the bodies of QUANT, MASK, PACK and RLE_ENC in turn. Run as commands,
these differ in what their own checks and completions do: the checks pass on a panel's image and on the bitstream PACK
leaves, and no body reads STATUS. So CONVERT of a written image completes as its stages do.
-/

namespace Sys2Proof.Machine

open Sys2Proof.Spec

/-! ### The checks -/

/-- Settles O27: the check against the panel is the first thing CONVERT does. -/
theorem convertRejectsOtherSizes : Obligations.ConvertRejectsOtherSizes := by
  intro s hsize
  rw [exec_convert, convertBody, if_pos ((State.notPanelSized_iff s).mpr hsize), complete_raise]
  rfl

/-- A panel's image passes the checks of QUANT, MASK and PACK (00_scope.md R6). -/
theorem legalDims_of_panelSized {s : State} (hwf : s.params.wf = true) (hw : s.imageWidth = s.params.panelSize)
    (hh : s.imageHeight = s.params.panelSize) : LegalDims s := by
  have hcap := (panelSize_of_wf s.params hwf).2
  simp only [Params.wf, Bool.and_eq_true, decide_eq_true_eq] at hwf
  obtain ⟨⟨⟨⟨⟨⟨⟨-, hpos, -⟩, -⟩, -⟩, -⟩, -⟩, -⟩, -⟩ := hwf
  rw [LegalDims, hw, hh]
  exact ⟨hpos, hpos, hcap⟩

theorem exec_convert_of_legal {s : State} (hw : s.imageWidth = s.params.panelSize)
    (hh : s.imageHeight = s.params.panelSize) (hg : LegalGain s.gainBits) :
    exec .convert s = complete s (pipeline s.imageWidth s.imageHeight s.gain s) := by
  have hpanel : ¬ s.notPanelSized = true := fun h => ((State.notPanelSized_iff s).mp h).elim (· hw) (· hh)
  rw [exec_convert, convertBody, if_neg hpanel, gainOk_of_legalGain hg]
  rfl

theorem exec_quant_of_legal {s : State} (hd : LegalDims s) (hg : LegalGain s.gainBits) :
    exec .quant s = complete s (quantizeBody s.imageWidth s.imageHeight s.gain s) := by
  rw [exec_quant, quantBody, (badDimensions_eq_false_iff s).mpr hd, gainOk_of_legalGain hg]
  rfl

theorem exec_pack_of_legal {s : State} (hd : LegalDims s) :
    exec .pack s = complete s (packImage s.imageWidth s.imageHeight s) := by
  rw [exec_pack, packBody, (badDimensions_eq_false_iff s).mpr hd]
  rfl

theorem exec_rleEnc_of_fits {s : State} (hlen : (s.regs.read .pkLen).toNat ≤ s.params.pkCap) :
    exec .rleEnc s = complete s (encodePacked s) := by
  rw [exec_rleEnc, rleEncBody, if_neg hlen.not_gt]

/-! ### Completion -/

/-- An operation that answers as `r` does, but with STATUS already written, is completed as `r` is. -/
theorem complete_map_finish {r : Exec State} (hr : OnlyFaults r) (s t : State) :
    complete s (r.map (·.finish .ok)) = complete t r := by
  rcases r with (e | f) | u
  · exact absurd rfl (hr.ne_error e)
  · rfl
  · rfl

/-- Two bodies under one completion are a command and what goes on from its next state. -/
theorem complete_bind {s : State} {r : Exec State} {f : State → Exec State}
    {g : State → Host.Outcome State Fault Refusal} (hr : OnlyFaults r)
    (hg : ∀ t, r = .ok t → g (t.finish .ok) = complete s (f t)) :
    complete s (r >>= f) = andThen (complete s r) g := by
  rcases r with (e | f) | t
  · exact absurd rfl (hr.ne_error e)
  · rfl
  · exact (hg t rfl).symm

theorem except_map_map {α β γ : Type} (r : Exec α) (f : α → β) (g : β → γ) :
    (r.map f).map g = r.map fun a => g (f a) := by
  cases r <;> rfl

/-- The body of PACK does not read STATUS. -/
theorem packImage_finish (w h : Nat) (s : State) :
    packImage w h (s.finish .ok) = (packImage w h s).map (·.finish .ok) := by
  rw [packImage_eq_map, packImage_eq_map, except_map_map]
  rfl

/-- The body of RLE_ENC does not read STATUS. -/
theorem encodePacked_finish (s : State) : encodePacked (s.finish .ok) = (encodePacked s).map (·.finish .ok) := by
  rw [encodePacked_eq_map, encodePacked_eq_map, except_map_map]
  rfl

/-! ### The stages as commands -/

/-- MASK as a stage of CONVERT: PIX is left as it is where CONFIG.MASK is 0 (45_convert.md R171). -/
def maskStage (s : State) : State :=
  { s with pix :=
      if s.maskEnabled then maskScan s.imageWidth s.imageHeight (rasterOrder s.imageWidth s.imageHeight) s.pix
      else s.pix }

theorem maskStage_eq_ite (s : State) :
    maskStage s = if s.maskEnabled then maskImage s.imageWidth s.imageHeight s else s := by
  unfold maskStage
  split_ifs <;> rfl

/-- MASK as a command, made after a completed one, leaves what the stage leaves. -/
theorem andThen_mask_finish {s : State} (hd : LegalDims s) (g : State → Host.Outcome State Fault Refusal) :
    andThen (if s.maskEnabled then exec .mask (s.finish .ok) else .next (s.finish .ok)) g =
      g ((maskStage s).finish .ok) := by
  rw [maskStage_eq_ite]
  split_ifs
  · rw [exec_mask_of_legal (s := s.finish .ok) hd]
    rfl
  · rfl

/-- PACK as a command, made after a completed one, is the body of PACK under completion. -/
theorem exec_pack_finish {s : State} (hd : LegalDims s) (t : State) :
    exec .pack (s.finish .ok) = complete t (packImage s.imageWidth s.imageHeight s) := by
  rw [← complete_map_finish (onlyFaults_packImage ..) (s.finish .ok), ← packImage_finish]
  exact exec_pack_of_legal (s := s.finish .ok) hd

/-- RLE_ENC as a command, made after a completed one, is the body of RLE_ENC under completion. -/
theorem exec_rleEnc_finish {s : State} (hlen : (s.regs.read .pkLen).toNat ≤ s.params.pkCap) (t : State) :
    exec .rleEnc (s.finish .ok) = complete t (encodePacked s) := by
  rw [← complete_map_finish (onlyFaults_encodePacked s) (s.finish .ok), ← encodePacked_finish]
  exact exec_rleEnc_of_fits (s := s.finish .ok) hlen

/-- PACK leaves no more bytes than RLE_ENC accepts, so the two commands are their bodies in turn. -/
theorem complete_pack_encode {s : State} (hd : LegalDims s) (t : State) :
    complete t (packImage s.imageWidth s.imageHeight s >>= encodePacked) =
      andThen (exec .pack (s.finish .ok)) (exec .rleEnc) := by
  rw [exec_pack_finish hd t]
  refine complete_bind (onlyFaults_packImage ..) fun packed hpacked => ?_
  exact exec_rleEnc_finish (packImage_pkLen_le hd.2.2 hpacked) t

/-- What follows QUANT is the same as commands and as bodies under one completion. -/
theorem complete_after_quantize {s : State} (hd : LegalDims s) (t : State) :
    (andThen (if s.maskEnabled then exec .mask (s.finish .ok) else .next (s.finish .ok)) fun u =>
        andThen (exec .pack u) fun v => exec .rleEnc v) =
      complete t (packImage s.imageWidth s.imageHeight
        (if s.maskEnabled then maskImage s.imageWidth s.imageHeight s else s) >>= encodePacked) := by
  rw [andThen_mask_finish hd, ← maskStage_eq_ite]
  exact (complete_pack_encode (s := maskStage s) hd t).symm

/-- Settles O47: each stage passes its command's checks, raises no error past them and does not read STATUS, so the body of
CONVERT comes apart into the four commands. -/
theorem convertEqualsItsStages : Obligations.ConvertEqualsItsStages := by
  intro s hwf hw hh hg
  have hd := legalDims_of_panelSized hwf hw hh
  rw [exec_convert_of_legal hw hh hg, exec_quant_of_legal hd hg, pipeline_eq_bind, bind_assoc, bind_assoc]
  refine complete_bind (onlyFaults_quantizeBody ..) fun t ht => ?_
  obtain ⟨cs, -, rfl⟩ := quantizeBody_ok _ _ _ _ _ ht
  exact complete_after_quantize (s := { s with pix := writePixels s.pix 0 cs }) hd s

/-! ### A written image -/

/-- QUANT of a written image puts a palette colour at each pixel, in either mode (41_quantizer.md R113, R118). -/
theorem exec_quant_of_written {s : State} {px : Nat → Rgb} (hd : LegalDims s) (hg : LegalGain s.gainBits)
    (hpix : ∀ n, n < pixelCount s → PixelIs s.pix n (px n)) :
    ∃ (pos : Nat → Fin 6) (m : Memory), exec .quant s = .next (withStatus { s with pix := m } 0x00000002#32) ∧
      ∀ a, m.get a = if a / 4 < pixelCount s ∧ a % 4 < 3 then
          some (channel (paletteAt s.params.palette (pos (a / 4))) (a % 4)) else s.pix.get a := by
  cases hdither : s.dither with
  | false =>
    obtain ⟨pos, m, -, hquant⟩ := flatQuantResult s px hd hg hdither hpix
    exact ⟨pos, m, hquant⟩
  | true => exact ditherQuantCompletes s px hd hg hdither hpix

theorem pixelIs_of_channels {m : Memory} {n : Nat} {c : Rgb}
    (h : ∀ a, a / 4 = n → a % 4 < 3 → m.get a = some (channel c (a % 4))) : PixelIs m n c := by
  have hget (k : Nat) (hk : k < 3) : m.get (4 * n + k) = some (channel c k) := by
    have hmod : (4 * n + k) % 4 = k := by omega
    rw [h (4 * n + k) (by omega) (by omega), hmod]
  exact ⟨hget 0 (by decide), hget 1 (by decide), hget 2 (by decide)⟩

/-- What the mask stage leaves at every address (42_mask.md R131). -/
theorem get_maskStage (s : State) (a : Nat) :
    (maskStage s).pix.get a =
      if s.maskEnabled = true ∧ a / 4 < pixelCount s ∧ a % 4 < 3 ∧
          outsideDisk s.imageWidth s.imageHeight (a / 4 % s.imageWidth) (a / 4 / s.imageWidth) = true then
        some 255#8
      else s.pix.get a := by
  unfold maskStage
  cases s.maskEnabled
  · rfl
  · simp only [if_true, true_and]
    exact get_maskScan_rasterOrder ..

/-- The mask stage writes the colour bytes of the image alone. -/
theorem get_maskStage_of_not_image (s : State) {a : Nat} (ha : ¬ (a / 4 < pixelCount s ∧ a % 4 < 3)) :
    (maskStage s).pix.get a = s.pix.get a := by
  rw [get_maskStage]
  exact if_neg fun hin => ha ⟨hin.2.1, hin.2.2.1⟩

/-- After the mask stage a pixel has its colour, or is white where it is masked. -/
theorem pixelIs_maskStage {s : State} {n : Nat} {c : Rgb} (hn : n < pixelCount s)
    (hpix : ∀ a, a / 4 = n → a % 4 < 3 → s.pix.get a = some (channel c (a % 4))) :
    PixelIs (maskStage s).pix n c ∨
      (s.maskEnabled = true ∧ Outside s.imageWidth s.imageHeight (n % s.imageWidth) (n / s.imageWidth) ∧
        PixelIs (maskStage s).pix n ⟨255, 255, 255⟩) := by
  by_cases hmask : s.maskEnabled = true ∧
      outsideDisk s.imageWidth s.imageHeight (n % s.imageWidth) (n / s.imageWidth) = true
  · refine .inr ⟨hmask.1, (outsideDisk_iff ..).mp hmask.2, pixelIs_of_channels fun a ha hk => ?_⟩
    have hwhite : channel pureWhite (a % 4) = 255#8 := by unfold channel; split_ifs <;> rfl
    rw [get_maskStage, ha, if_pos ⟨hmask.1, hn, hk, hmask.2⟩]
    exact congrArg some hwhite.symm
  · refine .inl (pixelIs_of_channels fun a ha hk => ?_)
    rw [get_maskStage, ha, if_neg fun hin => hmask ⟨hin.1, hin.2.2.2⟩]
    exact hpix a ha hk

/-- PACK and RLE_ENC of a written image: a bitstream of the image's length and its encoding (45_convert.md R171). -/
theorem exec_pack_rleEnc_of_written {s : State} (hd : LegalDims s)
    (hpix : ∀ n, n < pixelCount s → ∃ c, PixelIs s.pix n c) :
    ∃ bs : List Byte, bs.length = (pixelCount s + 1) / 2 ∧
      andThen (exec .pack s) (exec .rleEnc) = .next { s with
        pk := writeBytes s.pk 0 bs
        rl := writeBytes s.rl 0 (rleEncode bs)
        regs := { s.regs with
          pkLen := BitVec.ofNat 32 ((pixelCount s + 1) / 2)
          rlLen := lengthWord (rleEncode bs).length
          status := 0x00000002#32 } } := by
  have hcode : ∀ n, n < pixelCount s → ∃ code, pixelCode s.params.palette s.pix n = .ok code := fun n hn => by
    obtain ⟨c, hc⟩ := hpix n hn
    obtain ⟨i, hi⟩ := nearest_bytes s.params.palette c
    exact ⟨_, pixelCode_of_isNearest hc (isNearest_of_nearest hi)⟩
  choose! code hcode using hcode
  set bs := packNibbles ((List.range (pixelCount s)).map (packedNibble (pixelCount s) s.rot180 code)) with hbs
  have hlen : bs.length = (pixelCount s + 1) / 2 := by
    rw [hbs, packNibbles_length, List.length_map, List.length_range]
  have hfits : (pixelCount s + 1) / 2 < 4294967296 := by
    have : pixelCount s ≤ 2 ^ 32 := imageSize_le s
    omega
  have hcap : pixelCount s ≤ s.params.maxPixels := hd.2.2
  refine ⟨bs, hlen, ?_⟩
  rw [exec_pack_of_codes hd hcode]
  refine exec_rleEnc_of_written ?_ ?_ fun i hi => ?_
  · change bs.length = (BitVec.ofNat 32 ((pixelCount s + 1) / 2)).toNat
    rw [hlen, BitVec.toNat_ofNat, Nat.mod_eq_of_lt hfits]
  · change bs.length ≤ (s.params.maxPixels + 1) / 2
    omega
  · exact (get_writeBytes_from_zero ..).trans (if_pos hi)

/-- Settles O48: by the stages. QUANT leaves a palette colour at each pixel, MASK that or white, and every such pixel has a
code for PACK, which writes each byte RLE_ENC reads. -/
theorem convertCompletes : Obligations.ConvertCompletes := by
  intro s px hwf hw hh hg hpix
  have hd := legalDims_of_panelSized hwf hw hh
  obtain ⟨pos, m, hquant, hm⟩ := exec_quant_of_written hd hg hpix
  set quantized : State := { s with pix := m } with hquantized
  have hcolour : ∀ n, n < pixelCount s → PixelIs (maskStage quantized).pix n (paletteAt s.params.palette (pos n)) ∨
      (s.maskEnabled = true ∧ Outside s.imageWidth s.imageHeight (n % s.imageWidth) (n / s.imageWidth) ∧
        PixelIs (maskStage quantized).pix n ⟨255, 255, 255⟩) := fun n hn =>
    pixelIs_maskStage (s := quantized) hn fun a ha hk => by rw [hquantized, hm, ha, if_pos ⟨hn, hk⟩]
  obtain ⟨bs, hlen, hpacked⟩ := exec_pack_rleEnc_of_written (s := (maskStage quantized).finish .ok) hd fun n hn =>
    (hcolour n hn).elim (fun h => ⟨_, h⟩) fun h => ⟨_, h.2.2⟩
  have hconvert : exec .convert s = andThen (exec .pack ((maskStage quantized).finish .ok)) (exec .rleEnc) := by
    rw [convertEqualsItsStages s hwf hw hh hg, hquant, ← finish_ok_eq_withStatus]
    exact andThen_mask_finish (s := quantized) hd fun u => andThen (exec .pack u) (exec .rleEnc)
  refine ⟨_, bs, lengthWord (rleEncode bs).length, hconvert.trans hpacked,
    rfl, rfl, rfl, rfl, fun n hn => (hcolour n hn).imp_left fun h => ⟨_, h⟩, fun a ha => ?_, hlen,
    get_writeBytes_from_zero s.pk bs, get_writeBytes_from_zero s.rl (rleEncode bs), fun hfit => if_pos hfit⟩
  exact (get_maskStage_of_not_image quantized ha).trans ((hm a).trans (if_neg ha))

end Sys2Proof.Machine
end

section
/-!
PROOFS. What no step undoes (60_exceptions.md R186, 70_reset_and_hazards.md R200): the recorded faults and the parameters. No
command touches either, a host access can only mark a fault more, and reset leaves the host's side alone.
-/

namespace Sys2Proof.Machine

/-- `t` has the parameters of `s` and every fault recorded in `s` (60_exceptions.md R186, 00_scope.md R6). -/
structure State.RecordKeptBy (s t : State) : Prop where
  params : t.params = s.params
  hazard : s.host.faults.hostHazard = true → t.host.faults.hostHazard = true
  misuse : s.host.faults.hostMisuse = true → t.host.faults.hostMisuse = true

theorem State.RecordKeptBy.of_eq {s t : State} (hp : t.params = s.params) (hf : t.host.faults = s.host.faults) :
    s.RecordKeptBy t where
  params := hp
  hazard := fun h => hf ▸ h
  misuse := fun h => hf ▸ h

theorem State.RecordKeptBy.trans {s t u : State} (h : s.RecordKeptBy t) (h' : t.RecordKeptBy u) : s.RecordKeptBy u where
  params := h'.params.trans h.params
  hazard := h'.hazard ∘ h.hazard
  misuse := h'.misuse ∘ h.misuse

/-- The block's move, a command or an illegal word, leaves the host's side alone. -/
theorem recordKept_blockStep {s t : State} (ht : blockStep s = .next t) : s.RecordKeptBy t := by
  rcases blockStep_cases s with ⟨i, -, hi⟩ | ⟨e, -, he⟩
  · obtain ⟨hparams, hhost, -⟩ := commandFrame i s t (hi.symm.trans ht)
    exact .of_eq hparams (congrArg HostSide.faults hhost)
  · cases he.symm.trans ht
    exact .of_eq rfl rfl

/-! ### The host's move -/

/-- A refused access marks the fault set, and takes no mark away (60_exceptions.md R186). -/
theorem recordKept_recordRefused (s : State) (legal : Bool) : s.RecordKeptBy (s.recordRefused legal) := by
  rw [recordRefused_eq]
  exact ⟨rfl, fun h => by simp [h], fun h => by simp [h]⟩

/-- The three things a host read can be (20_memory.md R62, R63, R67; 70_reset_and_hazards.md R203). -/
theorem hostRead_cases (s : State) (a : HostAddr) (width : Nat) (x : Option Word) :
    s.hostRead a width x = s ∨ (∃ space off, s.hostRead a width x = s.performRead space off width x) ∨
      ∃ legal, s.hostRead a width x = s.recordRefused legal := by
  unfold State.hostRead
  cases resolve s.params a with
  | none => exact .inl rfl
  | some q =>
    dsimp only
    split_ifs
    · exact .inr (.inl ⟨q.1, q.2, rfl⟩)
    · exact .inr (.inr ⟨_, rfl⟩)

theorem recordKept_performRead (s : State) (space : Space) (off width : Nat) (x : Option Word) :
    s.RecordKeptBy (s.performRead space off width x) := by
  obtain ⟨hparams, -, -, -, -, -, hfaults, -⟩ := performRead_block s space off width x
  exact .of_eq hparams hfaults

theorem recordKept_hostRead (s : State) (a : HostAddr) (width : Nat) (x : Option Word) :
    s.RecordKeptBy (s.hostRead a width x) := by
  rcases hostRead_cases s a width x with hr | ⟨space, off, hr⟩ | ⟨legal, hr⟩ <;> rw [hr]
  · exact .of_eq rfl rfl
  · exact recordKept_performRead ..
  · exact recordKept_recordRefused ..

theorem recordKept_performWrite (s : State) (space : Space) (off width : Nat) (v : Word) :
    s.RecordKeptBy (s.performWrite space off width v) := by
  rcases performWrite_cases s space off width v with ⟨-, -, hw⟩ | ⟨-, -, hw⟩ | ⟨r, -, -, -, hw⟩ | ⟨-, hw⟩ <;> rw [hw]
  · exact .of_eq rfl rfl
  · exact .of_eq rfl rfl
  · exact .of_eq rfl rfl
  · exact .of_eq (State.setMemory_params ..) (congrArg HostSide.faults (State.setMemory_host ..))

theorem recordKept_hostWrite (s : State) (a : HostAddr) (width : Nat) (v : Word) :
    s.RecordKeptBy (s.hostWrite a width v) := by
  rcases hostWrite_cases s a width v with hw | ⟨space, off, -, -, -, hw⟩ | ⟨legal, hw⟩ <;> rw [hw]
  · exact .of_eq rfl rfl
  · exact recordKept_performWrite ..
  · exact recordKept_recordRefused ..

theorem recordKept_hostOp (s : State) (op : HostOp) : s.RecordKeptBy (hostOp s op) := by
  cases op with
  | read a width x => exact recordKept_hostRead s a width x
  | write a width v => exact recordKept_hostWrite s a width v
  | wait =>
    unfold hostOp
    split_ifs
    · exact .of_eq rfl rfl
    · exact .of_eq rfl rfl
  | reset => exact .of_eq rfl rfl

theorem recordKept_hostStep (s : State) : s.RecordKeptBy (hostStep s) := by
  unfold hostStep
  split
  · exact .of_eq rfl rfl
  · refine State.RecordKeptBy.trans ?_ (recordKept_hostOp _ _)
    exact .of_eq rfl rfl

/-- Settles O5: the block's move leaves the host's side alone, and the host's move only adds to the fault set. -/
theorem stepKeepsFaultsAndParameters : Obligations.StepKeepsFaultsAndParameters := by
  intro s t hstep
  have hturn : s.RecordKeptBy s.takeTurn := .of_eq rfl rfl
  have hkept : s.RecordKeptBy t := by
    rcases step_next s t hstep with ⟨-, hblock⟩ | ⟨-, -, rfl⟩ | ⟨-, op, rest, -, rfl⟩
    · exact hturn.trans (recordKept_blockStep hblock)
    · exact .of_eq rfl rfl
    · exact hturn.trans (recordKept_hostStep _)
  exact ⟨hkept.params, hkept.hazard, hkept.misuse⟩

end Sys2Proof.Machine
end

section
/-!
PROOFS. The errors of each command (60_exceptions.md R180 to R183). A command raises an error in its own checks or not at
all: past them a halt is a model fault.
-/

namespace Sys2Proof.Machine

open Sys2Proof.Spec

/-- Every error raised here has its code in the list. -/
structure Reports {α : Type} (codes : List (BitVec 4)) (r : Exec α) : Prop where
  code_mem : ∀ e, r = .error (.error e) → e.code ∈ codes

/-! ### Operations made of others -/

theorem OnlyFaults.reports {α : Type} {r : Exec α} (h : OnlyFaults r) (codes : List (BitVec 4)) : Reports codes r :=
  ⟨fun e he => absurd he (h.ne_error e)⟩

theorem reports_ok {α : Type} (codes : List (BitVec 4)) (a : α) : Reports codes (.ok a : Exec α) :=
  (onlyFaults_ok a).reports codes

/-- A check that raises a listed code, before an operation that raises listed codes. -/
theorem Reports.guard {α : Type} {codes : List (BitVec 4)} {r : Exec α} (hr : Reports codes r) {e : ErrCode}
    (he : e.code ∈ codes) (c : Prop) [Decidable c] : Reports codes (if c then raise e else r) := by
  split_ifs
  · refine ⟨fun e' he' => ?_⟩
    cases he'
    exact he
  · exact hr

theorem Reports.bind {α β : Type} {codes : List (BitVec 4)} {r : Exec α} {f : α → Exec β} (hr : Reports codes r)
    (hf : ∀ a, Reports codes (f a)) : Reports codes (r >>= f) := by
  cases r with
  | error x => exact ⟨fun e he => hr.code_mem e (congrArg _ (Except.error.inj he))⟩
  | ok a => exact hf a

theorem Reports.map {α β : Type} {codes : List (BitVec 4)} {r : Exec α} (hr : Reports codes r) (f : α → β) :
    Reports codes (r.map f) := by
  cases r with
  | error x => exact ⟨fun e he => hr.code_mem e (congrArg _ (Except.error.inj he))⟩
  | ok a => exact reports_ok codes (f a)

theorem reports_collect {α β : Type} {codes : List (BitVec 4)} {f : α → Exec β} (hf : ∀ a, Reports codes (f a))
    (as : List α) : Reports codes (collect f as) := by
  refine ⟨fun e he => ?_⟩
  obtain ⟨a, -, ha⟩ := collect_error f as _ he
  exact (hf a).code_mem e ha

/-! ### LOOKUP, CONVERT and RLE_DEC -/

theorem onlyFaults_lookupBody (s : State) : OnlyFaults (lookupBody s) := by
  rw [lookupBody_eq_map]
  exact (onlyFaults_nearest ..).map _

theorem onlyFaults_pipeline (w h : Nat) (g : F64) (s : State) : OnlyFaults (pipeline w h g s) := by
  rw [pipeline_eq_bind]
  exact (((onlyFaults_quantizeBody w h g s).bind fun _ => onlyFaults_ok _).bind (onlyFaults_packImage w h)).bind
    onlyFaults_encodePacked

/-- Record j read, then checked (44_rle.md R154). -/
theorem readRecord_eq_bind (rl : Memory) (j : Nat) :
    readRecord rl j = readByte rl (8 + 2 * j) >>= fun run => readByte rl (9 + 2 * j) >>= fun val =>
      if recordWf run val then .ok ⟨run.toNat, val.extractLsb' 0 4⟩ else raise .rleBadRecord := by
  unfold readRecord
  cases readByte rl (8 + 2 * j) with
  | error x => rfl
  | ok run => cases readByte rl (9 + 2 * j) <;> rfl

/-- The reads and checks of RLE_DEC in their order (44_rle.md R154). -/
theorem decodeStream_eq_bind (p : Params) (rl : Memory) (n : Nat) :
    decodeStream p rl n =
      if n > p.rlCap then raise .capacity
      else if n < 8 then raise .rleBadLength
      else readBytes rl 0 4 >>= fun magic =>
        if magic ≠ rleMagic then raise .rleBadMagic
        else readBytes rl 4 4 >>= fun cb =>
          if leNat cb > p.pkCap then raise .capacity
          else if (n - 8) % 2 = 1 then raise .rleBadLength
          else collect (readRecord rl) (List.range ((n - 8) / 2)) >>= fun records =>
            if (records.map RunRecord.run).sum ≠ 2 * leNat cb then raise .rleBadLength
            else .ok (leNat cb, records) := by
  unfold decodeStream
  cases readBytes rl 0 4 with
  | error x => rfl
  | ok magic =>
    cases readBytes rl 4 4 with
    | error x => rfl
    | ok cb => cases collect (readRecord rl) (List.range ((n - 8) / 2)) <;> rfl

theorem reports_readRecord (rl : Memory) (j : Nat) : Reports (codesOf .rleDec) (readRecord rl j) := by
  rw [readRecord_eq_bind]
  refine ((onlyFaults_readByte ..).reports _).bind fun run => ((onlyFaults_readByte ..).reports _).bind fun val => ?_
  rw [← ite_not]
  exact (reports_ok _ _).guard (by decide) _

theorem reports_decodeStream (p : Params) (rl : Memory) (n : Nat) : Reports (codesOf .rleDec) (decodeStream p rl n) := by
  have hcapacity : ErrCode.capacity.code ∈ codesOf .rleDec := by decide
  have hmagic : ErrCode.rleBadMagic.code ∈ codesOf .rleDec := by decide
  have hlength : ErrCode.rleBadLength.code ∈ codesOf .rleDec := by decide
  have hread (a : Nat) : Reports (codesOf .rleDec) (readBytes rl a 4) := (onlyFaults_readBytes rl a 4).reports _
  have hrecords (k : Nat) : Reports (codesOf .rleDec) (collect (readRecord rl) (List.range k)) :=
    reports_collect (reports_readRecord rl) _
  rw [decodeStream_eq_bind]
  refine .guard (.guard (.bind (hread 0) fun magic => ?_) hlength _) hcapacity _
  refine .guard (.bind (hread 4) fun cb => ?_) hmagic _
  refine .guard (.guard (.bind (hrecords _) fun records => ?_) hlength _) hcapacity _
  exact (reports_ok _ _).guard hlength _

/-! ### The commands -/

/-- What a command's body can raise is what 60_exceptions.md R181 lists for it. -/
theorem reports_commandBody (i : Instr) (s : State) : Reports (codesOf i) (commandBody i s) := by
  cases i
  case nop => exact reports_ok _ s
  case lookup => exact (onlyFaults_lookupBody s).reports _
  case quant =>
    exact (((onlyFaults_quantizeBody ..).reports _).guard (by decide) _).guard (by decide) _
  case mask => exact (reports_ok _ _).guard (by decide) _
  case pack => exact ((onlyFaults_packImage ..).reports _).guard (by decide) _
  case rleEnc => exact ((onlyFaults_encodePacked s).reports _).guard (by decide) _
  case rleDec =>
    rw [commandBody, rleDecBody_eq_map]
    exact (reports_decodeStream ..).map _
  case convert =>
    exact (((onlyFaults_pipeline ..).reports _).guard (by decide) _).guard (by decide) _

theorem zero_mem_codesOf (i : Instr) : 0 ∈ codesOf i := by cases i <;> decide

/-- Settles O13: completion writes the whole of STATUS, with OK's code 0 or that of an error the body raised. -/
theorem completionReportsAListedCode : Obligations.CompletionReportsAListedCode := by
  intro i s t h
  rw [exec_eq_complete_body] at h
  rcases complete_next s t _ h with ⟨s', -, rfl⟩ | ⟨e, he, rfl⟩
  · exact ⟨State.finish_busy .., State.finish_done .., State.finish_err s' .ok ▸ zero_mem_codesOf i⟩
  · exact ⟨State.finish_busy .., State.finish_done .., State.finish_err s e ▸ (reports_commandBody i s).code_mem e he⟩

/-- Settles O14: a completion with a body's writes reports OK, and one with an error writes STATUS alone. -/
theorem failedCommandChangesOnlyStatus : Obligations.FailedCommandChangesOnlyStatus := by
  intro i s t h hne
  rw [exec_eq_complete_body] at h
  rcases complete_next s t _ h with ⟨s', -, rfl⟩ | ⟨e, -, rfl⟩
  · exact absurd (State.finish_err s' .ok) hne
  · exact ⟨rfl, State.finish_busy .., State.finish_done ..⟩

end Sys2Proof.Machine
end

section
/-!
PROOFS. ReadUnwritten (60_exceptions.md R186). A scan of PIX is ReadUnwritten wherever the unwritten byte stands, because
nothing else in it can halt: `nearest` answers on every byte colour and on every adjusted colour of a legal gain. RLE_DEC
checks as it reads (44_rle.md R154), so there the bytes before the unwritten one must be accepted.
-/

namespace Sys2Proof.Machine

open Sys2Proof.Spec

/-! ### Scans of PIX -/

/-- A scan in which only unwritten bytes halt, and one does, is ReadUnwritten. -/
theorem collect_unwritten {α β : Type} {f : α → Exec β} {as : List α} {a : α} (ha : a ∈ as)
    (h : f a = .error (.fault .readUnwritten)) (hf : ∀ b e, f b = .error e → e = .fault .readUnwritten) :
    collect f as = .error (.fault .readUnwritten) := by
  obtain ⟨e, he⟩ := collect_halts f as a _ ha h
  obtain ⟨b, -, hb⟩ := collect_error f as e he
  rw [he, hf b e hb]

theorem map_eq_error_iff {α β : Type} {r : Exec α} {g : α → β} {e : Halt} : r.map g = .error e ↔ r = .error e := by
  cases r <;> simp [Except.map]

/-- The same where each item is a function of one pixel. -/
theorem collect_pixels_unwritten {α β : Type} {f : α → Exec β} {as : List α} {m : Memory} (pixel : α → Nat)
    (g : Rgb → β) (hf : ∀ a, f a = (readPixel m (pixel a)).map g) {a : α} (ha : a ∈ as)
    (h : readPixel m (pixel a) = .error (.fault .readUnwritten)) :
    collect f as = .error (.fault .readUnwritten) := by
  refine collect_unwritten ha ((hf a).trans (map_eq_error_iff.mpr h)) fun b e hb => ?_
  rw [hf, map_eq_error_iff, readPixel_error] at hb
  exact hb.2

/-- One unwritten byte of R, G and B is enough (10_state.md R37). -/
theorem readPixel_unwritten {m : Memory} {n k : Nat} (hk : k < 3) (h : m.get (4 * n + k) = none) :
    readPixel m n = .error (.fault .readUnwritten) := by
  refine (readPixel_error m n _).mpr ⟨?_, rfl⟩
  interval_cases k
  · exact .inl h
  · exact .inr (.inl h)
  · exact .inr (.inr h)

/-- `PixCode` halts only at its reads: a byte colour always has a nearest entry (40_palette.md R101). -/
theorem pixelCode_eq_map (p : Palette) (m : Memory) (n : Nat) :
    pixelCode p m n = (readPixel m n).map fun c => codeAt (nearestIndex p (colourF64 c)) := by
  rw [pixelCode_eq_bind]
  cases readPixel m n with
  | error e => rfl
  | ok c => exact congrArg (Except.map codeAt) (nearest_eq_nearestIndex p (colourF64_within c).finite)

/-- With a legal gain, a pixel of flat QUANT halts only at its reads as well (41_quantizer.md R110, R113). -/
theorem flatPixel_eq_map (p : Palette) (m : Memory) {g : F64} (hg : gainOk g = true) (n : Nat) :
    flatPixel p m g n = (readPixel m n).map fun c => paletteAt p (nearestIndex p (adjusted g c)) := by
  rw [flatPixel_eq_bind, adjustedPixel_eq_map]
  cases readPixel m n with
  | error e => rfl
  | ok c =>
    change (nearest p (adjust g c)).map (paletteAt p) = _
    rw [adjust_eq_adjusted hg, nearest_eq_nearestIndex p (adjusted_within hg c).finite]
    rfl

/-! ### PACK, QUANT and CONVERT -/

/-- Both modes of QUANT read the whole image before anything else can halt (41_quantizer.md R113, R114). -/
theorem quantizedColours_unwritten (dither : Bool) (p : Palette) {w h n : Nat} {g : F64} {m : Memory}
    (hg : gainOk g = true) (hn : n < w * h) (hread : readPixel m n = .error (.fault .readUnwritten)) :
    quantizedColours dither p w h g m = .error (.fault .readUnwritten) := by
  have hmem : n ∈ List.range (w * h) := List.mem_range.mpr hn
  cases dither
  · exact collect_pixels_unwritten id _ (flatPixel_eq_map p m hg) hmem hread
  · have hseeds : collect (adjustedPixel m g) (List.range (w * h)) = .error (.fault .readUnwritten) :=
      collect_pixels_unwritten id _ (adjustedPixel_eq_map m g) hmem hread
    rw [quantizedColours, if_pos rfl, hseeds]
    rfl

theorem exec_quant_unwritten {s : State} {n : Nat} (hd : LegalDims s) (hg : LegalGain s.gainBits)
    (hn : n < pixelCount s) (hread : readPixel s.pix n = .error (.fault .readUnwritten)) :
    exec .quant s = .fault .readUnwritten := by
  rw [exec_quant_of_legal hd hg, quantizeBody_eq_map,
    quantizedColours_unwritten _ _ (gainOk_of_legalGain hg) hn hread]
  rfl

/-- The pixel whose code the packer emits at output position `o` (43_packer.md R141). -/
def sourcePixel (w h : Nat) (rot : Bool) (o : Nat × Nat) : Nat :=
  (sourceOf w h rot o.1 o.2).2 * w + (sourceOf w h rot o.1 o.2).1

theorem scanCode_eq_map (p : Palette) (m : Memory) (w h : Nat) (rot : Bool) (o : Nat × Nat) :
    scanCode p m w h rot o =
      (readPixel m (sourcePixel w h rot o)).map fun c => codeAt (nearestIndex p (colourF64 c)) :=
  pixelCode_eq_map p m _

/-- Every pixel of the image is sampled, with either rotation (43_packer.md R141, R142). -/
theorem exists_sourcePixel_eq (rot : Bool) {w h n : Nat} (hn : n < w * h) :
    ∃ o ∈ reversedScan w h, sourcePixel w h rot o = n := by
  obtain ⟨x, y, hx, hy, rfl⟩ := exists_position hn
  cases rot
  · exact ⟨(x, y), (mem_reversedScan ..).mpr ⟨hx, hy⟩, rfl⟩
  · refine ⟨(w - 1 - x, h - 1 - y), (mem_reversedScan ..).mpr ⟨by dsimp only; omega, by dsimp only; omega⟩, ?_⟩
    have hx' : w - 1 - (w - 1 - x) = x := by omega
    have hy' : h - 1 - (h - 1 - y) = y := by omega
    simp only [sourcePixel, sourceOf, if_true, hx', hy']

theorem exec_pack_unwritten {s : State} {n : Nat} (hd : LegalDims s) (hn : n < pixelCount s)
    (hread : readPixel s.pix n = .error (.fault .readUnwritten)) : exec .pack s = .fault .readUnwritten := by
  obtain ⟨o, ho, rfl⟩ := exists_sourcePixel_eq s.rot180 hn
  rw [exec_pack_of_legal hd, packImage_eq_map,
    collect_pixels_unwritten _ _ (scanCode_eq_map _ _ _ _ _) ho hread]
  rfl

/-- CONVERT's first stage is QUANT's, so it ends where QUANT ends (45_convert.md R171). -/
theorem exec_convert_unwritten {s : State} {n : Nat} (hwf : s.params.wf = true)
    (hw : s.imageWidth = s.params.panelSize) (hh : s.imageHeight = s.params.panelSize) (hg : LegalGain s.gainBits)
    (hn : n < pixelCount s) (hread : readPixel s.pix n = .error (.fault .readUnwritten)) :
    exec .convert s = .fault .readUnwritten := by
  rw [convertEqualsItsStages s hwf hw hh hg, exec_quant_unwritten (legalDims_of_panelSized hwf hw hh) hg hn hread]
  rfl

/-! ### RLE_ENC and RLE_DEC -/

theorem exec_rleEnc_unwritten {s : State} {i : Nat} (hlen : s.regs.pkLen.toNat ≤ s.params.pkCap)
    (hi : i < s.regs.pkLen.toNat) (hpk : s.pk.get i = none) : exec .rleEnc s = .fault .readUnwritten := by
  have hread : readBytes s.pk 0 s.regs.pkLen.toNat = .error (.fault .readUnwritten) :=
    readBytes_unwritten s.pk 0 _ i hi (by rwa [Nat.zero_add])
  rw [exec_rleEnc_of_fits (by rwa [Regs.read_pkLen]), encodePacked_eq_map, Regs.read_pkLen, hread]
  rfl

theorem exec_rleDec_of_fault {s : State} {f : Fault}
    (h : decodeStream s.params s.rl s.regs.rlLen.toNat = .error (.fault f)) : exec .rleDec s = .fault f := by
  rw [exec_rleDec, rleDecBody_eq_map, Regs.read_rlLen, h]
  rfl

section Stream

variable {p : Params} {rl : Memory} {n a : Nat} (h8 : 8 ≤ n) (hn : n ≤ p.rlCap) (ha : rl.get a = none)
include h8 hn ha

theorem decodeStream_unwritten_magic (h4 : a < 4) : decodeStream p rl n = .error (.fault .readUnwritten) := by
  have hread : readBytes rl 0 4 = .error (.fault .readUnwritten) :=
    readBytes_unwritten rl 0 4 a h4 (by rwa [Nat.zero_add])
  rw [decodeStream_eq_bind, if_neg hn.not_gt, if_neg h8.not_gt, hread]
  rfl

theorem decodeStream_unwritten_count (hm : HasMagic rl) (h4 : 4 ≤ a) (hlt : a < 8) :
    decodeStream p rl n = .error (.fault .readUnwritten) := by
  have hread : readBytes rl 4 4 = .error (.fault .readUnwritten) :=
    readBytes_unwritten rl 4 4 (a - 4) (by omega) (by rwa [Nat.add_sub_cancel' h4])
  rw [decodeStream_eq_bind, if_neg hn.not_gt, if_neg h8.not_gt, readBytes_of_hasMagic hm, hread]
  dsimp only [bind, Except.bind]
  exact if_neg (not_not_intro rfl)

/-- Byte `a` is the run or the value of record `(a - 8) / 2`; both are read before either is checked (44_rle.md R154). -/
theorem decodeStream_unwritten_record {count : Nat} {q : Nat → Byte × Byte} (hm : HasMagic rl) (hc : HasCount rl count)
    (hcount : count ≤ p.pkCap) (heven : n % 2 = 0) (ha8 : 8 ≤ a) (han : a < n)
    (hbefore : RecordsBefore rl ((a - 8) / 2) q) : decodeStream p rl n = .error (.fault .readUnwritten) := by
  obtain ⟨cb, hcb, rfl⟩ := readBytes_of_hasCount hc
  have hbyte : a = 8 + 2 * ((a - 8) / 2) ∨ a = 9 + 2 * ((a - 8) / 2) := by omega
  have hrecord : readRecord rl ((a - 8) / 2) = .error (.fault .readUnwritten) :=
    readRecord_unwritten rl _ (hbyte.imp (fun h => by rwa [← h]) fun h => by rwa [← h])
  have hrecords : collect (readRecord rl) (List.range ((n - 8) / 2)) = .error (.fault .readUnwritten) :=
    collect_range_error _ _ _ _ (by omega) (fun i hi => ⟨_, readRecord_good (hbefore i hi).1 (hbefore i hi).2⟩) hrecord
  rw [decodeStream_after_count p rl n cb h8 hn (readBytes_of_hasMagic hm) hcb, if_neg hcount.not_gt, if_neg (by omega),
    hrecords]

end Stream

/-- Settles O29: each command's reads halt at the byte, and no check or read that comes first can stop it otherwise. -/
theorem unwrittenInputFaults : Obligations.UnwrittenInputFaults := by
  refine ⟨fun s n k hd hn hk hpix => ?_, fun s n k hwf hw hh hg hn hk hpix => ?_, fun s i hlen hi hpk => ?_,
    fun s h8 hcap => ⟨fun a h4 ha => ?_, fun hm => ⟨fun a h4 hlt ha => ?_,
      fun count a q hc hcount heven ha8 han hbefore ha => ?_⟩⟩⟩
  · have hread := readPixel_unwritten hk hpix
    exact ⟨exec_pack_unwritten hd hn hread, fun hg => exec_quant_unwritten hd hg hn hread⟩
  · exact exec_convert_unwritten hwf hw hh hg hn (readPixel_unwritten hk hpix)
  · exact exec_rleEnc_unwritten hlen hi hpk
  · exact exec_rleDec_of_fault (decodeStream_unwritten_magic h8 hcap ha h4)
  · exact exec_rleDec_of_fault (decodeStream_unwritten_count h8 hcap ha hm h4 hlt)
  · exact exec_rleDec_of_fault (decodeStream_unwritten_record h8 hcap ha hm hc hcount heven ha8 han hbefore)

end Sys2Proof.Machine
end

section
/-!
PROOFS. Reset and hazards (70_reset_and_hazards.md R200 to R207). While BUSY = 1 the block leaves a turn to the host only
where the choice list gives it one, and every host access uses up one choice and adds none, so the block moves in the end.
-/

namespace Sys2Proof.Machine

open Sys2Proof.Spec

/-! ### BUSY does not stay 1 -/

/-- The block's move leaves BUSY = 0: a command completes with a STATUS of its own, and so does an illegal word. -/
theorem busy_of_blockStep {s t : State} (ht : blockStep s = .next t) : t.busy = false := by
  rcases blockStep_cases s with ⟨i, -, hi⟩ | ⟨e, -, he⟩
  · exact (completionReportsAListedCode i s t (hi.symm.trans ht)).1
  · cases he.symm.trans ht
    exact State.finish_busy ..

/-- While BUSY = 1 the host has the turn only where it has an access to make and the choice list says so. -/
theorem host_turn_of_busy {s : State} (hb : s.busy = true) (hm : s.blockMoves = false) :
    ∃ op rest sched, s.host.script = op :: rest ∧ s.host.sched = .host :: sched := by
  simp only [State.blockMoves, hb, Bool.true_and, Bool.or_eq_false_iff, bne_eq_false_iff_eq,
    List.isEmpty_eq_false_iff, List.ne_nil_iff_exists_cons, List.head?_eq_some_iff] at hm
  obtain ⟨⟨op, rest, hscript⟩, sched, hsched⟩ := hm
  exact ⟨op, rest, sched, hscript, hsched⟩

theorem hostRead_sched (s : State) (a : HostAddr) (width : Nat) (x : Option Word) :
    (s.hostRead a width x).host.sched = s.host.sched := by
  rcases hostRead_cases s a width x with hr | ⟨space, off, hr⟩ | ⟨legal, hr⟩ <;> rw [hr]
  · obtain ⟨-, -, -, -, -, -, -, -, hsched⟩ := performRead_block s space off width x
    exact hsched
  · rw [recordRefused_eq]

theorem hostWrite_sched (s : State) (a : HostAddr) (width : Nat) (v : Word) :
    (s.hostWrite a width v).host.sched = s.host.sched := by
  rcases hostWrite_cases s a width v with hw | ⟨space, off, -, -, -, hw⟩ | ⟨legal, hw⟩ <;> rw [hw]
  · rcases performWrite_cases s space off width v with ⟨-, -, hp⟩ | ⟨-, -, hp⟩ | ⟨r, -, -, -, hp⟩ | ⟨-, hp⟩ <;> rw [hp]
    · rfl
    · rw [State.setMemory_host]
  · rw [recordRefused_eq]

/-- No host access adds to the choice list. -/
theorem hostOp_sched (s : State) (op : HostOp) : (hostOp s op).host.sched = s.host.sched := by
  cases op with
  | read a width x => exact hostRead_sched s a width x
  | write a width v => exact hostWrite_sched s a width v
  | wait => unfold hostOp; split_ifs <;> rfl
  | reset => rfl

/-- Within `n` steps BUSY is 0 or the run is over (70_reset_and_hazards.md R207, 60_exceptions.md R186). -/
def State.LeavesBusyWithin (n : Nat) (s : State) : Prop :=
  ∃ k, k ≤ n ∧ ((∃ t, runSteps k s = .next t ∧ t.busy = false) ∨ (∃ f, runSteps k s = .fault f))

theorem State.LeavesBusyWithin.of_not_busy {s : State} (hb : s.busy = false) (n : Nat) : s.LeavesBusyWithin n :=
  ⟨0, Nat.zero_le n, .inl ⟨s, rfl, hb⟩⟩

theorem State.LeavesBusyWithin.of_step {s t : State} {n : Nat} (hstep : step s = .next t) (ht : t.LeavesBusyWithin n) :
    s.LeavesBusyWithin (n + 1) := by
  obtain ⟨k, hk, hends⟩ := ht
  have hrun : runSteps (k + 1) s = runSteps k t := by rw [runSteps, hstep, andThen]
  exact ⟨k + 1, Nat.succ_le_succ hk, hrun ▸ hends⟩

/-- The block's move completes the command or ends the run. -/
theorem State.LeavesBusyWithin.of_blockMoves {s : State} (hm : s.blockMoves = true) (n : Nat) :
    s.LeavesBusyWithin (n + 1) := by
  cases hstep : step s with
  | next t => exact .of_step hstep (.of_not_busy (busy_of_blockStep ((step_block s hm).symm.trans hstep)) n)
  | fault f => exact ⟨1, Nat.le_add_left 1 n, .inr ⟨f, by rw [runSteps, hstep, andThen]⟩⟩
  | refused x => exact absurd hstep (step_ne_refused s x)

/-- BUSY ends with the next step, or the step is a host access that uses up one choice. -/
theorem leavesBusyWithin_or_host_turn (s : State) (n : Nat) :
    s.LeavesBusyWithin (n + 1) ∨
      ∃ t sched, step s = .next t ∧ s.host.sched = .host :: sched ∧ t.host.sched = sched := by
  cases hb : s.busy with
  | false => exact .inl (.of_not_busy hb _)
  | true =>
    cases hm : s.blockMoves with
    | true => exact .inl (.of_blockMoves hm n)
    | false =>
      obtain ⟨op, rest, sched, hscript, hsched⟩ := host_turn_of_busy hb hm
      refine .inr ⟨_, sched, step_host_op s op rest hm hscript, hsched, ?_⟩
      rw [hostOp_sched, hsched, List.tail_cons]

/-- When no choice is left the block moves, at the latest (70_reset_and_hazards.md R207). -/
theorem leavesBusyWithin_of_sched (sched : List Agent) (s : State) (hs : s.host.sched = sched) :
    s.LeavesBusyWithin (sched.length + 1) := by
  induction sched generalizing s with
  | nil =>
    rcases leavesBusyWithin_or_host_turn s 0 with hends | ⟨t, rest, -, hsched, -⟩
    · exact hends
    · cases hs.symm.trans hsched
  | cons c sched ih =>
    rcases leavesBusyWithin_or_host_turn s (sched.length + 1) with hends | ⟨t, rest, hstep, hsched, ht⟩
    · exact hends
    · cases hs.symm.trans hsched
      exact .of_step hstep (ih t ht)

/-- Settles O57: by induction on the choice list. -/
theorem pollingEnds : Obligations.PollingEnds :=
  fun s _ => leavesBusyWithin_of_sched s.host.sched s rfl

/-! ### Reset -/

theorem State.blockReset_done (s : State) : s.blockReset.done = false := by
  rw [State.done, State.blockReset_regs, Regs.reset_status]
  decide

/-- Settles O2: the host's move is the reset event, which leaves the host's side alone. -/
theorem resetEventRestoresTheBlock : Obligations.ResetEventRestoresTheBlock :=
  fun s rest hs hm => ⟨(afterAccess s rest).blockReset, step_host_op s .reset rest hm hs, rfl, rfl,
    fun _ => ⟨rfl, rfl, rfl⟩, State.blockReset_busy _, State.blockReset_done _, rfl, rfl, rfl⟩

/-! ### Accesses while BUSY = 1 -/

theorem isStatusRead_iff (space : Space) (off width : Nat) :
    isStatusRead space off width = true ↔ space = .reg ∧ off = 0x04 ∧ width = 4 := decide_eq_true_iff

theorem accessLegal_eq_false {p : Params} {space : Space} {off width : Nat} (h : ¬ LegalAccess p space off width) :
    accessLegal p space off width = false := by
  rwa [Bool.eq_false_iff, ne_eq, accessLegal_iff]

section Busy

variable {s : State} {a : HostAddr} {space : Space} {off : Nat} (hb : s.busy = true)
  (hr : resolve s.params a = some (space, off))

include hb

/-- A refusal while BUSY = 1 marks HostHazard, and HostMisuse too where the space does not have the access. -/
theorem recordRefused_of_busy (legal : Bool) :
    s.recordRefused legal = withFaults s true (!legal || s.host.faults.hostMisuse) := by
  rw [recordRefused_eq, hb, Bool.true_or, withFaults]

include hr

/-- While BUSY = 1 no write is performed (70_reset_and_hazards.md R203). -/
theorem hostWrite_of_busy (width : Nat) (v : Word) :
    s.hostWrite a width v =
      withFaults s true (!accessLegal s.params space off width || s.host.faults.hostMisuse) := by
  simp only [State.hostWrite, hr, hb, Bool.not_true, Bool.and_false, Bool.false_eq_true, if_false,
    recordRefused_of_busy hb]

/-- While BUSY = 1 no read but that of STATUS is performed (70_reset_and_hazards.md R203). -/
theorem hostRead_of_busy (width : Nat) (x : Option Word)
    (hne : accessLegal s.params space off width = true → ¬ (space = .reg ∧ off = 0x04 ∧ width = 4)) :
    s.hostRead a width x =
      withFaults s true (!accessLegal s.params space off width || s.host.faults.hostMisuse) := by
  have hnot : ¬ (accessLegal s.params space off width && (!s.busy || isStatusRead space off width)) = true := by
    rw [hb, Bool.not_true, Bool.false_or, Bool.and_eq_true, isStatusRead_iff]
    exact fun ⟨hacc, hstatus⟩ => hne hacc hstatus
  simp only [State.hostRead, hr, if_neg hnot, recordRefused_of_busy hb]

end Busy

/-- A 32-bit read of STATUS returns it at any time (70_reset_and_hazards.md R203). -/
theorem hostRead_status {s : State} {a : HostAddr} (hr : resolve s.params a = some (.reg, 0x04)) (x : Option Word) :
    s.hostRead a 4 x = withRead s ⟨.reg, 0x04, 4, s.regs.read .status, x⟩ := by
  have hacc : accessLegal s.params .reg 0x04 4 = true := accessLegal_reg s.params 0x04 (by decide)
  have hstatus : isStatusRead .reg 0x04 4 = true := by decide
  simp only [State.hostRead, hr, hacc, hstatus, Bool.or_true, Bool.and_self, if_true]
  rfl

/-- Settles O54: a read of STATUS is the one access performed; a refused one marks HostHazard, and what is no access of the
space HostMisuse too. -/
theorem accessWhileBusyIsAHazard : Obligations.AccessWhileBusyIsAHazard := by
  intro s a width v x space off hb hr
  refine ⟨?_, fun hne hl => ?_, fun hl => ?_, fun hl => ⟨?_, ?_⟩⟩
  · rintro ⟨rfl, rfl, rfl⟩
    exact hostRead_status hr x
  · rw [hostRead_of_busy hb hr width x fun _ => hne, (accessLegal_iff ..).mpr hl, Bool.not_true, Bool.false_or]
  · rw [hostWrite_of_busy hb hr, (accessLegal_iff ..).mpr hl, Bool.not_true, Bool.false_or]
  · rw [hostRead_of_busy hb hr width x fun hacc => absurd ((accessLegal_iff ..).mp hacc) hl, accessLegal_eq_false hl,
      Bool.not_false, Bool.true_or]
  · rw [hostWrite_of_busy hb hr, accessLegal_eq_false hl, Bool.not_false, Bool.true_or]

end Sys2Proof.Machine
end
